-- ==== Sys2Proof/Word.lean ====
section
/-! DEFINITION. The word types of the block (00_scope.md R6, R7, R10). Every quantity is unsigned (R7). -/

namespace Sys2Proof

/-- A host register, a command word, a frequency count: 32 bits (R6, section 2 of 10_state.md). -/
abbrev Word := BitVec 32

/-- A symbol: an 8-bit unsigned value (R10). -/
abbrev Sym := BitVec 8

/-- A node index: 9 bits, 0..510 and NIL (R6). -/
abbrev NodeIdx := BitVec 9

/-- The 255 code bits of one LUT entry, first bit at bit 0 (R9, R49). -/
abbrev CodeBits := BitVec 255

end Sys2Proof
end

