-- ==== Sys2Proof/Syntax.lean ====
section
/-! DEFINITION. The commands of the opcode map (30_encoding.md R74), one constructor a row of spec/opcode_table.json, and the
names of the register window (10_state.md section 2). -/

namespace Sys2Proof

/-- A command with the operands its encoding holds (R71, R73). LOAD_FREQ's count and DECODE's chunk are not in the word:
they are read from ARGL (R69, R51). -/
inductive Instr where
  /-- NOP (R83) -/
  | nop
  /-- CLEAR (R84) -/
  | clear
  /-- LOAD_FREQ SYM (R88) -/
  | loadFreq (sym : Sym)
  /-- READ_FREQ SYM (R90) -/
  | readFreq (sym : Sym)
  /-- BUILD (R94) -/
  | build
  /-- READ_NODE IDX (R102) -/
  | readNode (idx : NodeIdx)
  /-- GENERATE (R110) -/
  | generate
  /-- READ_CODE SYM, WORD (R113) -/
  | readCode (sym : Sym) (word : BitVec 3)
  /-- DEC_RESET (R119) -/
  | decReset
  /-- DECODE N (R121) -/
  | decode (n : BitVec 6)
  deriving DecidableEq, Repr

/-- The five formats of a command word (R71). -/
inductive Format where
  | f0 | fs | fsw | fi | fn
  deriving DecidableEq, Repr

/-- The registers of the window (10_state.md section 2). `reserved` stands for the offsets 0x40..0xFC (R56). -/
inductive Reg where
  | id | cmd | arg | status | result0 | result1 | decpos | total
  /-- OUT0..OUT7 (R43) -/
  | out (j : Fin 8)
  /-- the reserved word at offset 0x40 + 4·j (R56) -/
  | reserved (j : Fin 48)
  deriving DecidableEq, Repr

/-- The byte offset of a register from BASE (10_state.md section 2). -/
def Reg.offset : Reg → Nat
  | .id => 0x00
  | .cmd => 0x04
  | .arg => 0x08
  | .status => 0x0C
  | .result0 => 0x10
  | .result1 => 0x14
  | .decpos => 0x18
  | .total => 0x1C
  | .out j => 0x20 + 4 * j.val
  | .reserved j => 0x40 + 4 * j.val

end Sys2Proof
end

