-- ==== Sys2Proof/Config.lean ====
section
/-! DEFINITION. The parameters of R6, the values the spec leaves open, and the free values of R148. -/

namespace Sys2Proof.Config

/-- NIL, the absent node and the virtual root (R6, D6). -/
def nil : NodeIdx := 0x1FF

/-- FREQ_MAX, the largest total of all counts (R6, D4). -/
def freqMax : Nat := 2 ^ 32 - 1

/-- The identification constant of the ID register (R27, D1). -/
def idValue : Word := 0x48554631

/-- OPEN: BASE counted in windows of 256 bytes. R53 fixes only that BASE is a multiple of 256 (log 7). -/
opaque basePage : Nat

/-- BASE, the byte address of the register window (R53): a multiple of 256. -/
def base : Nat := 256 * basePage

/-- FREE VALUE (R148, U1): the 32 bits drawn by the n-th read of a register whose value is unspecified while BUSY = 1.
It has no body: nothing can be proved about its value (log 3). -/
opaque unspecified : Nat → Word

end Sys2Proof.Config
end

