-- ==== Sys2Proof/WellFormed.lean ====
section
/-! DEFINITION. Which 32-bit words are commands (30_encoding.md R71, R72, R75) and which host accesses are supported
(20_memory.md R54). Every value of `Instr` is a legal command: its operand fields have exactly the widths of R73, and R76 says
that every value such a field holds is a legal encoding; so the checks are on words and on accesses, not on `Instr`. -/

namespace Sys2Proof

/-- The bits a format reserves (`Z` of R71). -/
def Format.reservedBits : Format → Word
  | .f0 => 0x00FFFFFF
  | .fs => 0x00FFFF00
  | .fsw => 0x00FFF800
  | .fi => 0x00FFFE00
  | .fn => 0x00FFFFC0

/-- The format each opcode selects; none for the reserved opcodes 0x0A..0xFF (R70, R74, R75). -/
def formatOfOpcode : Nat → Option Format
  | 0x00 => some .f0
  | 0x01 => some .f0
  | 0x02 => some .fs
  | 0x03 => some .fs
  | 0x04 => some .f0
  | 0x05 => some .fi
  | 0x06 => some .f0
  | 0x07 => some .fsw
  | 0x08 => some .f0
  | 0x09 => some .fn
  | _ => none

/-- The opcode field, bits [31:24] (R70). -/
def opcodeField (w : Word) : BitVec 8 := w.extractLsb' 24 8

/-- Check 1: the opcode is one of R74's. -/
def opcodeListed (w : Word) : Bool := (formatOfOpcode (opcodeField w).toNat).isSome

/-- Check 2: the bits the opcode's format reserves are all 0 (R72). -/
def reservedBitsClear (w : Word) : Bool :=
  match formatOfOpcode (opcodeField w).toNat with
  | some f => w &&& f.reservedBits == 0
  | none => true

/-- A word is a command of R74 exactly when both checks pass; otherwise it is illegal (R76). -/
def commandWordWellFormed (w : Word) : Bool := opcodeListed w && reservedBitsClear w

/-- Check 3: a byte address lies in the window BASE + 0x00 .. BASE + 0xFF (R53). -/
def addressInWindow (addr : Nat) : Bool := decide (Config.base ≤ addr ∧ addr < Config.base + 256)

/-- Check 4: an access at offset `off` of the window, `bits` wide, is one the block defines: 32 bits wide, at a multiple of
4 (R54). -/
def accessSupported (off bits : Nat) : Bool := bits == 32 && off % 4 == 0

end Sys2Proof
end

