-- ==== Sys2Proof/Decode.lean ====
section
/-! DEFINITION. Decoding a command word, total on all 32-bit words (30_encoding.md R74, R76), the encoder (R78), and the
host's entry `decodeTableWord`. -/

namespace Sys2Proof

/-- Why a word is illegal (R76): a reserved opcode (R75), or a reserved bit of its format that is 1 (R72). -/
inductive IllegalWord where
  | reservedOpcode
  | reservedBits
  deriving DecidableEq, Repr

/-- What a word written to CMD is: exactly one of a command or illegal (R76). -/
inductive Decoded where
  | command (i : Instr)
  | illegal (why : IllegalWord)
  deriving DecidableEq, Repr

/-- SYM = bits [7:0] (R71, R73). -/
def symField (w : Word) : Sym := w.extractLsb' 0 8

/-- WORD = bits [10:8] (R71, R73). -/
def wordField (w : Word) : BitVec 3 := w.extractLsb' 8 3

/-- IDX = bits [8:0] (R71, R73). -/
def idxField (w : Word) : NodeIdx := w.extractLsb' 0 9

/-- N = bits [5:0] (R71, R73). -/
def countField (w : Word) : BitVec 6 := w.extractLsb' 0 6

/-- The command `i` if the reserved bits of its format, bits [23:lo], are all 0 (R72). -/
def commandIfClear (w : Word) (lo : Nat) (i : Instr) : Decoded :=
  if w.extractLsb' lo (24 - lo) = 0 then .command i else .illegal .reservedBits

/-- The opcode map (R74). Opcodes 0x0A..0xFF are reserved (R75). -/
def decodeWord (w : Word) : Decoded :=
  match (opcodeField w).toNat with
  | 0x00 => commandIfClear w 0 .nop
  | 0x01 => commandIfClear w 0 .clear
  | 0x02 => commandIfClear w 8 (.loadFreq (symField w))
  | 0x03 => commandIfClear w 8 (.readFreq (symField w))
  | 0x04 => commandIfClear w 0 .build
  | 0x05 => commandIfClear w 9 (.readNode (idxField w))
  | 0x06 => commandIfClear w 0 .generate
  | 0x07 => commandIfClear w 11 (.readCode (symField w) (wordField w))
  | 0x08 => commandIfClear w 0 .decReset
  | 0x09 => commandIfClear w 6 (.decode (countField w))
  | _ => .illegal .reservedOpcode

/-- `OPC << 24` (R78). -/
def opcodeBits (opc : BitVec 8) : Word := opc.setWidth 32 <<< 24

/-- The word of a command: R78's `(OPC << 24) | (WORD << 8) | SYM`, `(OPC << 24) | IDX`, `(OPC << 24) | N`, `OPC << 24`. -/
def encode : Instr → Word
  | .nop => opcodeBits 0x00
  | .clear => opcodeBits 0x01
  | .loadFreq y => opcodeBits 0x02 ||| y.setWidth 32
  | .readFreq y => opcodeBits 0x03 ||| y.setWidth 32
  | .build => opcodeBits 0x04
  | .readNode idx => opcodeBits 0x05 ||| idx.setWidth 32
  | .generate => opcodeBits 0x06
  | .readCode y w => opcodeBits 0x07 ||| w.setWidth 32 <<< 8 ||| y.setWidth 32
  | .decReset => opcodeBits 0x08
  | .decode n => opcodeBits 0x09 ||| n.setWidth 32

/-- The 32-bit word the table's bits are: a command is one word (R69), bit 0 its least significant bit (R7). -/
def tableWord (nbits w : Nat) : Word := BitVec.ofNat 32 (w % 2 ^ nbits)

/-- The command the decoder reads from an instruction of the opcode table; none where the word is illegal. -/
def decodeTableWord (nbits w : Nat) : Option Instr :=
  match decodeWord (tableWord nbits w) with
  | .command i => some i
  | .illegal _ => none

/-- One row of the opcode map: a word `w` selects it when `(w AND mask) = value` (R74). -/
structure OpcodeRow where
  mnemonic : String
  value : Word
  mask : Word
  deriving DecidableEq, Repr

/-- The opcode map as R74 prints it (Match and Mask columns). -/
def opcodeMap : List OpcodeRow :=
  [⟨"NOP", 0x00000000, 0xFFFFFFFF⟩,
   ⟨"CLEAR", 0x01000000, 0xFFFFFFFF⟩,
   ⟨"LOAD_FREQ", 0x02000000, 0xFFFFFF00⟩,
   ⟨"READ_FREQ", 0x03000000, 0xFFFFFF00⟩,
   ⟨"BUILD", 0x04000000, 0xFFFFFFFF⟩,
   ⟨"READ_NODE", 0x05000000, 0xFFFFFE00⟩,
   ⟨"GENERATE", 0x06000000, 0xFFFFFFFF⟩,
   ⟨"READ_CODE", 0x07000000, 0xFFFFF800⟩,
   ⟨"DEC_RESET", 0x08000000, 0xFFFFFFFF⟩,
   ⟨"DECODE", 0x09000000, 0xFFFFFFC0⟩]

/-- The row's selection test (R74). -/
def OpcodeRow.selects (r : OpcodeRow) (w : Word) : Bool := w &&& r.mask == r.value

/-- The row of R74 a command stands in. -/
def Instr.mnemonic : Instr → String
  | .nop => "NOP"
  | .clear => "CLEAR"
  | .loadFreq _ => "LOAD_FREQ"
  | .readFreq _ => "READ_FREQ"
  | .build => "BUILD"
  | .readNode _ => "READ_NODE"
  | .generate => "GENERATE"
  | .readCode _ _ => "READ_CODE"
  | .decReset => "DEC_RESET"
  | .decode _ => "DECODE"

end Sys2Proof
end

