-- ==== Sys2Proof/Machine/State.lean ====
section
/-! DEFINITION. The state of the block (10_state.md R25), the inputs that stand for the host and the platform, and what
stops the model. -/

namespace Sys2Proof.Machine

/-- PHASE (R31). The value 3 is never held. -/
inductive Phase where
  | load
  | tree
  | code
  deriving DecidableEq, Repr

/-- The error codes of LAST_ERR (R129). Codes 6 and 7 are reserved and never written (U9). -/
inductive ErrCode where
  | ok
  | illegal
  | phase
  | arg
  | ovf
  | noCode
  deriving DecidableEq, Repr

/-- A tree node (R47). -/
structure Node where
  leaf : Bool
  sym : Sym
  freq : Word
  left : NodeIdx
  right : NodeIdx
  deriving DecidableEq, Repr

/-- The all-zero node: its reset and CLEAR value (R143, R84). -/
def Node.zero : Node := { leaf := false, sym := 0, freq := 0, left := 0, right := 0 }

/-- A code-table entry (R49). -/
structure LutEntry where
  valid : Bool
  len : BitVec 8
  bits : CodeBits
  deriving DecidableEq, Repr

/-- The entry of a symbol with no code (R49). -/
def LutEntry.empty : LutEntry := { valid := false, len := 0, bits := 0 }

/-- What happens next outside the command sequencer, and when the sequencer gets its turn (log 1). The first three are the
host's and the platform's acts; `blockTurn` lets time pass until the command in progress completes (R146, R147). -/
inductive Input where
  /-- the host reads `bits` bits at a byte address (R54) -/
  | read (addr bits : Nat)
  /-- the host writes `bits` bits at a byte address (R54); `value` is what a 32-bit write carries -/
  | write (addr bits : Nat) (value : Word)
  /-- the platform resets the block (R142) -/
  | reset
  /-- the block takes its turn: it runs the command in progress, if there is one, to completion (R146) -/
  | blockTurn
  deriving DecidableEq, Repr

/-- The whole state: R25's elements, and three fields of the model's own (`inputs`, `draws`, `readData`; log 1, 3, 4). -/
structure State where
  /-- ARG (R29) -/
  arg : Word
  /-- CMDL, the latched command word (R51) -/
  cmdl : Word
  /-- ARGL, the latched operand (R51) -/
  argl : Word
  /-- BUSY (R32) -/
  busy : Bool
  /-- OVR (R33) -/
  ovr : Bool
  /-- PHASE (R31) -/
  phase : Phase
  /-- LAST_ERR (R38) -/
  lastErr : ErrCode
  /-- RESULT0 (R40) -/
  result0 : Word
  /-- RESULT1 (R40) -/
  result1 : Word
  /-- K, the number of keys (R45) -/
  k : BitVec 9
  /-- FREQ[0..255] (R44) -/
  freq : Vector Word 256
  /-- ORDER[0..255] (R45) -/
  order : Vector Sym 256
  /-- NODE[0..510] (R47) -/
  node : Vector Node 511
  /-- LUT[0..255] (R49) -/
  lut : Vector LutEntry 256
  /-- OUTBUF[0..31] (R43) -/
  outbuf : Vector Sym 32
  /-- DEC_CUR (R50) -/
  decCur : NodeIdx
  /-- DEC_FELL (R36) -/
  decFell : Bool
  /-- the model's own: what the host, the platform and the block's turn do next, the next one first (log 1) -/
  inputs : List Input
  /-- the model's own: how many unspecified values have been drawn (log 3) -/
  draws : Nat
  /-- the model's own: what the host's last read returned; none before the first read (log 4) -/
  readData : Option Word
  deriving DecidableEq, Repr

/-- What stops the machine with a fault. -/
inductive Fault where
  /-- Raised by `step` for a host access to an address outside BASE + 0x00 .. BASE + 0xFF: the block's one address space does
  not hold it (R53). Safe: the model stops where a platform would send the access elsewhere (log 8). -/
  | outsideWindow
  deriving DecidableEq, Repr

/-- What the model gives no meaning. -/
inductive Refusal where
  /-- Answered by `exec` for a command that has no meaning yet. Safe: nothing can be proved of it. No arm answers it now. -/
  | notModelled (mnemonic : String)
  /-- Answered by `step` for a host access that is not 32 bits wide or not at a multiple of 4: "A model refuses such an
  access" (R54, U2). Safe: the platform's response is not modelled (log 9). -/
  | unsupportedAccess
  deriving DecidableEq, Repr

/-- The state right after reset (R143). The model's own fields: no input pending, nothing drawn, nothing read (log 1, 3, 4). -/
def State.reset : State where
  arg := 0
  cmdl := 0
  argl := 0
  busy := false
  ovr := false
  phase := .load
  lastErr := .ok
  result0 := 0
  result1 := 0
  k := 0
  freq := Vector.replicate 256 0
  order := Vector.replicate 256 0
  node := Vector.replicate 511 Node.zero
  lut := Vector.replicate 256 LutEntry.empty
  outbuf := Vector.replicate 32 0
  decCur := Config.nil
  decFell := false
  inputs := []
  draws := 0
  readData := none

end Sys2Proof.Machine
end

