-- ==== Sys2Proof/Machine/Ops.lean ====
section
/-! DEFINITION. The named operations over registers and arrays, ending a command (with success or with an error), and issuing
one. -/

namespace Sys2Proof.Machine

/-- The answer of one step of the machine, or of one command. -/
abbrev Answer := Host.Outcome State Fault Refusal

/-! ### Arrays -/

/-- FREQ[y] (R44). -/
def State.freqOf (s : State) (y : Sym) : Word := s.freq[y.toNat]'y.isLt

/-- ORDER[i] (R45); 0 past the array's end, which no command of a reachable state reads (log 13). -/
def State.orderAt (s : State) (i : Nat) : Sym := if h : i < 256 then s.order[i] else 0

/-- The array ORDER with entry `i` written; nothing is written past its end (log 13). -/
def orderSet (order : Vector Sym 256) (i : Nat) (y : Sym) : Vector Sym 256 :=
  if h : i < 256 then order.set i y else order

/-- NODE[i] of a node array; the all-zero node at NIL, which is no index of the array (log 13). -/
def nodeIn (nodes : Vector Node 511) (i : Nat) : Node := if h : i < 511 then nodes[i] else Node.zero

/-- A node array with entry `i` written; nothing is written past its end (log 13). -/
def nodeSet (nodes : Vector Node 511) (i : Nat) (n : Node) : Vector Node 511 :=
  if h : i < 511 then nodes.set i n else nodes

/-- NODE[i] (R47). -/
def State.nodeAt (s : State) (i : Nat) : Node := nodeIn s.node i

/-- LUT[y] of a code table (R49). -/
def lutIn (lut : Vector LutEntry 256) (y : Sym) : LutEntry := lut[y.toNat]'y.isLt

/-- A code table with the entry of `y` written. -/
def lutSet (lut : Vector LutEntry 256) (y : Sym) (e : LutEntry) : Vector LutEntry 256 := lut.set y.toNat e y.isLt

/-- LUT[y] (R49). -/
def State.lutOf (s : State) (y : Sym) : LutEntry := lutIn s.lut y

/-- The empty code table: every entry {VALID 0, LEN 0, BITS 0} (R49). -/
def lutEmpty : Vector LutEntry 256 := Vector.replicate 256 LutEntry.empty

/-- OUTBUF with entry `i` written; nothing is written past its end (log 13). -/
def outSet (out : Vector Sym 32) (i : Nat) (y : Sym) : Vector Sym 32 := if h : i < 32 then out.set i y else out

/-- OUTBUF[i] (R43); 0 past its end. -/
def State.outAt (s : State) (i : Nat) : Sym := if h : i < 32 then s.outbuf[i] else 0

/-- The cleared OUTBUF. -/
def outEmpty : Vector Sym 32 := Vector.replicate 32 0

/-! ### Quantities that are functions of the state -/

/-- The keys of the frequency table, in the order of their first load: ORDER[0..K-1] (R45). -/
def State.keys (s : State) : List Sym := s.order.toList.take s.k.toNat

/-- Σ_s FREQ[s], exactly (R42). -/
def State.totalCount (s : State) : Nat := (s.freq.toList.map BitVec.toNat).sum

/-- NNODE (R47): 0 if K = 0, else 2K - 1. -/
def State.nnode (s : State) : Nat := if s.k = 0 then 0 else 2 * s.k.toNat - 1

/-- ROOTPOS (R50): 2K - 2 if K >= 2, NIL (the virtual root) if K <= 1. -/
def State.rootPos (s : State) : NodeIdx :=
  if 2 ≤ s.k.toNat then BitVec.ofNat 9 (2 * s.k.toNat - 2) else Config.nil

/-- LIDX(y) (R87): the i < K with ORDER[i] = y, or NIL if FREQ[y] = 0. -/
def State.leafIndex (s : State) (y : Sym) : NodeIdx :=
  if s.freqOf y = 0 then Config.nil else BitVec.ofNat 9 (s.keys.idxOf y)

/-! ### Ending a command -/

/-- `raise E` (R8, R80, R128): the command ends with LAST_ERR <- E and BUSY <- 0, and nothing else changes. This is the
block's whole exception entry: it has no trap, no saved state, no vector and no return (R127, R136). -/
def State.raise (s : State) (e : ErrCode) : Answer := .next { s with lastErr := e, busy := false }

/-- Completion without error (R81): LAST_ERR <- E_OK and BUSY <- 0. -/
def State.complete (s : State) : Answer := .next { s with lastErr := .ok, busy := false }

/-- RESULT0 and RESULT1 written together, as every command with results does (R40, D26). -/
def State.withResults (s : State) (r0 r1 : Word) : State := { s with result0 := r0, result1 := r1 }

/-! ### Issuing a command -/

/-- Issue (R28, R146): the word is latched into CMDL, ARG's current value into ARGL, and BUSY becomes 1. -/
def State.issue (s : State) (w : Word) : State := { s with cmdl := w, argl := s.arg, busy := true }

/-- The reset state of R143 in place of the present one, with the model's own fields as they are (log 10). -/
def State.resetBlock (s : State) : State :=
  { State.reset with inputs := s.inputs, draws := s.draws, readData := s.readData }

end Sys2Proof.Machine
end

