-- ==== Sys2Proof/Machine/Operands.lean ====
section
/-! DEFINITION. How commands take their operands from ARGL and pack their results (20_memory.md R62, R63; R102, R113, R121). -/

namespace Sys2Proof.Machine

/-- The first `n` bits of a chunk in stream order: ARGL[0], ARGL[1], ..., ARGL[n-1] (R62). -/
def chunkBits (n : Nat) (chunk : Word) : List Bool := (List.range n).map chunk.getLsbD

/-- Word `w` of a code: BITS[32w+31 : 32w], with BITS bit 255 read as 0 (R63, R113). -/
def codeWord (bits : CodeBits) (w : BitVec 3) : Word := (bits.setWidth 256).extractLsb' (32 * w.toNat) 32

/-- The bit string an entry holds: c_i is BITS bit i, for i < LEN (R9, R63). -/
def LutEntry.code (e : LutEntry) : List Bool := (List.range e.len.toNat).map e.bits.getLsbD

/-- RESULT0 of READ_NODE (R102): bit 31 LEAF, [30:26] 0, [25:18] SYM, [17:9] RIGHT, [8:0] LEFT. -/
def packNode (n : Node) : Word := BitVec.ofBool n.leaf ++ (0 : BitVec 5) ++ n.sym ++ n.right ++ n.left

/-- RESULT0 of DECODE (R121): [5:0] NOUT, [13:8] NUSED, [16] FELL, all other bits 0. -/
def packDecode (fell : Bool) (used nout : Nat) : Word :=
  (0 : BitVec 15) ++ BitVec.ofBool fell ++ (0 : BitVec 2) ++ BitVec.ofNat 6 used ++ (0 : BitVec 2) ++ BitVec.ofNat 6 nout

/-- OUTj (R43): OUTBUF[4j] in bits [7:0], OUTBUF[4j+3] in bits [31:24]. -/
def State.outWord (s : State) (j : Nat) : Word :=
  s.outAt (4 * j + 3) ++ s.outAt (4 * j + 2) ++ s.outAt (4 * j + 1) ++ s.outAt (4 * j)

end Sys2Proof.Machine
end

