-- ==== Sys2Proof/Machine/CodeTable.lean ====
section
/-! DEFINITION. The Code Table Generator: GENERATE and READ_CODE (43_code_table.md). -/

namespace Sys2Proof.Machine

/-- GENERATE's `walk(n, len, bits)` (R110), at most `fuel` levels deep. A child's index is smaller than its parent's
(R48), so a walk from node n needs at most n + 1 levels. -/
def walk (nodes : Vector Node 511) : Nat → NodeIdx → Nat → CodeBits → Vector LutEntry 256 → Vector LutEntry 256
  | 0, _, _, _, lut => lut
  | fuel + 1, n, len, bits, lut =>
    let nd := nodeIn nodes n.toNat
    if nd.leaf then lutSet lut nd.sym { valid := true, len := BitVec.ofNat 8 len, bits := bits }
    else
      walk nodes fuel nd.right (len + 1) (bits ||| (1#255 <<< len))
        (walk nodes fuel nd.left (len + 1) bits lut)

/-- LUT after GENERATE (R110): empty, then the single symbol's code "0" (K = 1, R106), or the walk from the root (K >= 2). -/
def State.generatedLut (s : State) : Vector LutEntry 256 :=
  if s.k.toNat = 0 then lutEmpty
  else if s.k.toNat = 1 then lutSet lutEmpty (s.nodeAt 0).sym { valid := true, len := 1, bits := 0 }
  else walk s.node s.nnode (BitVec.ofNat 9 (2 * s.k.toNat - 2)) 0 0 lutEmpty

/-- max_s LUT[s].LEN (R110). -/
def maxLen (lut : Vector LutEntry 256) : Nat := (lut.toList.map fun e => e.len.toNat).foldl Nat.max 0

/-- GENERATE (R110): the decoder and OUTBUF are not touched. -/
def execGenerate (s : State) : Answer :=
  if s.phase = .load then s.raise .phase
  else
    ({ s with lut := s.generatedLut, phase := .code }.withResults
      (BitVec.ofNat 32 (maxLen s.generatedLut)) (s.k.setWidth 32)).complete

/-- READ_CODE (R113): E_PHASE outside CODE, E_NOCODE for a symbol with no code; a word past the code's length reads 0. -/
def execReadCode (y : Sym) (w : BitVec 3) (s : State) : Answer :=
  if s.phase ≠ .code then s.raise .phase
  else if (s.lutOf y).valid = false then s.raise .noCode
  else (s.withResults ((s.lutOf y).len.setWidth 32) (codeWord (s.lutOf y).bits w)).complete

end Sys2Proof.Machine
end

