-- ==== Sys2Proof/Machine/Control.lean ====
section
/-! DEFINITION. NOP and CLEAR (40_control.md). -/

namespace Sys2Proof.Machine

/-- NOP (R83): only LAST_ERR <- E_OK and the completion. -/
def execNop (s : State) : Answer := s.complete

/-- The arrays, counters, decoder, results and OVR at R84's values. CMDL and ARGL go to 0 as well, so that the state after CLEAR
"equals the reset state ... except ARG" (R84, R144; DEDUCED, log 6). -/
def State.cleared (s : State) : State :=
  { s with
    freq := Vector.replicate 256 0
    order := Vector.replicate 256 0
    lut := lutEmpty
    node := Vector.replicate 511 Node.zero
    outbuf := outEmpty
    k := 0
    phase := .load
    decCur := Config.nil
    decFell := false
    result0 := 0
    result1 := 0
    ovr := false
    cmdl := 0
    argl := 0 }

/-- CLEAR (R84). -/
def execClear (s : State) : Answer := s.cleared.complete

end Sys2Proof.Machine
end

