-- ==== Sys2Proof/Machine/Decoder.lean ====
section
/-! DEFINITION. The Decoder: DEC_RESET and DECODE (44_decoder.md). -/

namespace Sys2Proof.Machine

/-- next(cur, b) (R116); `none` is ABSENT. At the virtual root only bit 0 of a one-symbol tree leads anywhere (R120, R126). -/
def State.move (s : State) (cur : NodeIdx) (b : Bool) : Option NodeIdx :=
  if cur = Config.nil then (if s.k.toNat = 1 ∧ b = false then some 0 else none)
  else if b then some (s.nodeAt cur.toNat).right
  else some (s.nodeAt cur.toNat).left

/-- What a DECODE carries from bit to bit (R121): cur, nout, used, fell and OUTBUF. -/
structure Walk where
  cur : NodeIdx
  nout : Nat
  used : Nat
  fell : Bool
  out : Vector Sym 32
  deriving DecidableEq, Repr

/-- Reaching a leaf (R117, R121): its symbol is emitted at OUTBUF[nout], and the position is ROOTPOS before the next bit. -/
def State.emitSymbol (s : State) (a : Walk) (y : Sym) : Walk where
  cur := s.rootPos
  nout := a.nout + 1
  used := a.used + 1
  fell := a.fell
  out := outSet a.out a.nout y

/-- DECODE's loop over the bits of the chunk (R121): an absent node ends it at once, the fatal bit counted as used and the
position kept (R122); a leaf emits its symbol and returns to ROOTPOS (R117). -/
def State.walkBits (s : State) : List Bool → Walk → Walk
  | [], a => a
  | b :: bs, a =>
    match s.move a.cur b with
    | none => { a with used := a.used + 1, fell := true }
    | some n =>
      if (s.nodeAt n.toNat).leaf then s.walkBits bs (s.emitSymbol a (s.nodeAt n.toNat).sym)
      else s.walkBits bs { a with cur := n, used := a.used + 1 }

/-- The start of DECODE's loop: OUTBUF cleared, nothing emitted or used, not fallen (R121). -/
def State.walkStart (s : State) : Walk := { cur := s.decCur, nout := 0, used := 0, fell := false, out := outEmpty }

/-- DEC_RESET (R119). -/
def execDecReset (s : State) : Answer :=
  if s.phase = .load then s.raise .phase
  else { s with decCur := s.rootPos, decFell := false }.complete

/-- DECODE (R121): E_PHASE in LOAD or while halted, E_ARG for a count of 0 or more than 32. -/
def execDecode (n : BitVec 6) (s : State) : Answer :=
  if s.phase = .load ∨ s.decFell = true then s.raise .phase
  else if n = 0 ∨ 32 < n.toNat then s.raise .arg
  else
    let a := s.walkBits (chunkBits n.toNat s.argl) s.walkStart
    ({ s with outbuf := a.out, decCur := a.cur, decFell := a.fell }.withResults (packDecode a.fell a.used a.nout) 0).complete

end Sys2Proof.Machine
end

