-- ==== Sys2Proof/Machine/Frequency.lean ====
section
/-! DEFINITION. LOAD_FREQ and READ_FREQ (41_frequency_table.md). -/

namespace Sys2Proof.Machine

/-- "first load of s: new key": ORDER[K] <- s and K <- K + 1, if FREQ[s] = 0 (R88). -/
def State.addKey (s : State) (y : Sym) : State :=
  if s.freqOf y = 0 then { s with order := orderSet s.order s.k.toNat y, k := s.k + 1 } else s

/-- FREQ[y] <- FREQ[y] + c (R88). -/
def State.addCount (s : State) (y : Sym) (c : Word) : State :=
  { s with freq := s.freq.set y.toNat (s.freqOf y + c) y.isLt }

/-- FREQ, ORDER and K after a LOAD_FREQ that raises no error (R88). -/
def State.tableAfterLoad (s : State) (y : Sym) (c : Word) : State := (s.addKey y).addCount y c

/-- LOAD_FREQ (R88): the count is ARGL; the checks in the order E_PHASE, E_ARG, E_OVF; the sum computed exactly. -/
def execLoadFreq (y : Sym) (s : State) : Answer :=
  if s.phase ≠ .load then s.raise .phase
  else if s.argl = 0 then s.raise .arg
  else if s.totalCount + s.argl.toNat > Config.freqMax then s.raise .ovf
  else
    let t := s.tableAfterLoad y s.argl
    (t.withResults (t.freqOf y) ((t.leafIndex y).setWidth 32)).complete

/-- READ_FREQ (R90): permitted in all phases; a symbol that is no key reads 0 and NIL, which is no error. -/
def execReadFreq (y : Sym) (s : State) : Answer :=
  (s.withResults (s.freqOf y) ((s.leafIndex y).setWidth 32)).complete

end Sys2Proof.Machine
end

