-- ==== Sys2Proof/Machine/Tree.lean ====
section
/-! DEFINITION. The Tree Builder: BUILD and READ_NODE (42_tree_builder.md). -/

namespace Sys2Proof.Machine

/-- key(i) < key(j), for key(i) = (NODE[i].FREQ, i) in lexicographic order (R93, R8). -/
def keyLt (nodes : Vector Node 511) (i j : Nat) : Bool :=
  (nodeIn nodes i).freq.ult (nodeIn nodes j).freq ||
    ((nodeIn nodes i).freq == (nodeIn nodes j).freq && decide (i < j))

/-- The candidate of least key among `i` and those of `q` (R95). -/
def leastKey (nodes : Vector Node 511) : Nat → List Nat → Nat
  | i, [] => i
  | i, j :: q => leastKey nodes (if keyLt nodes j i then j else i) q

/-- The candidate of least key in the queue, and the queue without it (R94); none if the queue is empty. -/
def popLeast (nodes : Vector Node 511) : List Nat → Option (Nat × List Nat)
  | [] => none
  | i :: q => some (leastKey nodes i q, (i :: q).erase (leastKey nodes i q))

/-- The internal node that merges `a` (first selected, LEFT) and `b` (second selected, RIGHT) (R94, R95). -/
def mergedNode (nodes : Vector Node 511) (a b : Nat) : Node where
  leaf := false
  sym := 0
  freq := (nodeIn nodes a).freq + (nodeIn nodes b).freq
  left := BitVec.ofNat 9 a
  right := BitVec.ofNat 9 b

/-- BUILD's loop `while |Q| >= 2` (R94), at most `fuel` merges: each merge makes the queue one shorter, so K are enough. -/
def mergeLoop : Nat → Vector Node 511 → List Nat → Nat → Vector Node 511
  | 0, nodes, _, _ => nodes
  | fuel + 1, nodes, q, nxt =>
    match popLeast nodes q with
    | none => nodes
    | some (a, q1) =>
      match popLeast nodes q1 with
      | none => nodes
      | some (b, q2) => mergeLoop fuel (nodeSet nodes nxt (mergedNode nodes a b)) (q2 ++ [nxt]) (nxt + 1)

/-- The leaf of the i-th key (R94): {LEAF 1, SYM ORDER[i], FREQ FREQ[ORDER[i]], LEFT NIL, RIGHT NIL}. -/
def State.leafNode (s : State) (i : Nat) : Node where
  leaf := true
  sym := s.orderAt i
  freq := s.freqOf (s.orderAt i)
  left := Config.nil
  right := Config.nil

/-- NODE with the leaves written at 0..K-1, in first-load order (R94). -/
def State.withLeaves (s : State) : Vector Node 511 :=
  (List.range s.k.toNat).foldl (fun nodes i => nodeSet nodes i (s.leafNode i)) s.node

/-- NODE after BUILD (R94): the leaves, then the merges from the queue {0, ..., K-1}. -/
def State.builtNodes (s : State) : Vector Node 511 :=
  mergeLoop s.k.toNat s.withLeaves (List.range s.k.toNat) s.k.toNat

/-- The index of the root node, or NIL if there is no tree (R94's RESULT1). -/
def State.rootIndex (s : State) : NodeIdx := if s.k = 0 then Config.nil else BitVec.ofNat 9 (s.nnode - 1)

/-- BUILD (R94). -/
def execBuild (s : State) : Answer :=
  if s.phase ≠ .load then s.raise .phase
  else
    ({ s with node := s.builtNodes, lut := lutEmpty, phase := .tree, decCur := s.rootPos, decFell := false }.withResults
      (BitVec.ofNat 32 s.nnode) (s.rootIndex.setWidth 32)).complete

/-- READ_NODE (R102): E_PHASE in LOAD, E_ARG at an index that is no node. -/
def execReadNode (idx : NodeIdx) (s : State) : Answer :=
  if s.phase = .load then s.raise .phase
  else if s.nnode ≤ idx.toNat then s.raise .arg
  else (s.withResults (packNode (s.nodeAt idx.toNat)) (s.nodeAt idx.toNat).freq).complete

end Sys2Proof.Machine
end

