-- ==== Sys2Proof/Machine/Dispatch.lean ====
section
/-! DEFINITION. One arm per command of the opcode map: the execution of a command in progress, to its completion (R146). -/

namespace Sys2Proof.Machine

open Sys2Proof

/-- The execution of one command (R80): its own meaning, which ends it. -/
def exec (i : Instr) (s : State) : Host.Outcome State Fault Refusal :=
  match i with
  | .nop => Sys2Proof.Machine.execNop s
  | .clear => Sys2Proof.Machine.execClear s
  | .loadFreq y => Sys2Proof.Machine.execLoadFreq y s
  | .readFreq y => Sys2Proof.Machine.execReadFreq y s
  | .build => Sys2Proof.Machine.execBuild s
  | .readNode idx => Sys2Proof.Machine.execReadNode idx s
  | .generate => Sys2Proof.Machine.execGenerate s
  | .readCode y w => Sys2Proof.Machine.execReadCode y w s
  | .decReset => Sys2Proof.Machine.execDecReset s
  | .decode n => Sys2Proof.Machine.execDecode n s

end Sys2Proof.Machine
end

