-- ==== Sys2Proof/Machine/Fetch.lean ====
section
/-! DEFINITION. The block's turn: it runs the latched command to completion (70_reset_and_hazards.md R146). -/

namespace Sys2Proof.Machine

open Sys2Proof

/-- The command in progress, run whole: what CMDL encodes, or E_ILLEGAL for a word that is no command (R72, R75, R76). -/
def State.runLatched (s : State) : Answer :=
  match decodeWord s.cmdl with
  | .command i => exec i s
  | .illegal _ => s.raise .illegal

/-- The block's turn: with no command in progress it does nothing (U12). -/
def State.blockTurn (s : State) : Answer := if s.busy then s.runLatched else .next s

/-- A command word just issued, with the block's turn next (log 11). -/
def State.issuedNext (s : State) (w : Word) : State :=
  { s.issue w with inputs := .blockTurn :: s.inputs }

end Sys2Proof.Machine
end

