-- ==== Sys2Proof/Machine/Flags.lean ====
section
/-! DEFINITION. The fields of STATUS (10_state.md R30 to R39) and the word they make. -/

namespace Sys2Proof.Machine

/-- PHASE's encoding: 0 = LOAD, 1 = TREE, 2 = CODE (R30). -/
def Phase.bits : Phase → BitVec 2
  | .load => 0
  | .tree => 1
  | .code => 2

/-- LAST_ERR's encoding (R129). -/
def ErrCode.bits : ErrCode → BitVec 3
  | .ok => 0
  | .illegal => 1
  | .phase => 2
  | .arg => 3
  | .ovf => 4
  | .noCode => 5

/-- TREE_VALID (R34): 1 exactly when PHASE ∈ {TREE, CODE} and K >= 1. -/
def State.treeValid (s : State) : Bool := s.phase != .load && s.k != 0

/-- LUT_VALID (R35): 1 exactly when PHASE = CODE. -/
def State.lutValid (s : State) : Bool := s.phase == .code

/-- DEC_MID (R37): 1 exactly when PHASE ∈ {TREE, CODE} and DEC_CUR ≠ ROOTPOS. -/
def State.decMid (s : State) : Bool := s.phase != .load && s.decCur != s.rootPos

/-- STATUS while BUSY = 0 (R30); the reserved bits [31:25] and [15:11] read 0 (U7). -/
def State.statusWord (s : State) : Word :=
  (0 : BitVec 7) ++ s.k ++ (0 : BitVec 5) ++ s.lastErr.bits ++ BitVec.ofBool s.decMid ++ BitVec.ofBool s.decFell ++
    BitVec.ofBool s.lutValid ++ BitVec.ofBool s.treeValid ++ BitVec.ofBool s.ovr ++ BitVec.ofBool s.busy ++ s.phase.bits

/-- STATUS while BUSY = 1 (R30, R148): bit 2 reads 1, bit 3 reads OVR, every other bit is the drawn one (log 3, 5). -/
def State.busyStatusWord (s : State) (drawn : Word) : Word :=
  drawn.extractLsb' 4 28 ++ BitVec.ofBool s.ovr ++ (1 : BitVec 1) ++ drawn.extractLsb' 0 2

end Sys2Proof.Machine
end

