-- ==== Sys2Proof/Machine/Window.lean ====
section
/-! DEFINITION. The host's reads and writes of the register window (20_memory.md R53 to R57; R28, R29, R33, R148). -/

namespace Sys2Proof.Machine

open Sys2Proof

/-- The register at an offset that is a multiple of 4 in 0x00..0xFC (10_state.md section 2, R56). -/
def registerAt (off : Nat) : Reg :=
  match off / 4 % 64 with
  | 0 => .id
  | 1 => .cmd
  | 2 => .arg
  | 3 => .status
  | 4 => .result0
  | 5 => .result1
  | 6 => .decpos
  | 7 => .total
  | n => if h : n < 16 then .out ⟨(n - 8) % 8, Nat.mod_lt _ (by decide)⟩ else .reserved ⟨(n - 16) % 48, Nat.mod_lt _ (by decide)⟩

/-- What a register reads while BUSY = 0 (section 2 of 10_state.md); CMD and the reserved offsets read 0 (R28, R56). -/
def State.readIdle (s : State) : Reg → Word
  | .id => Config.idValue
  | .cmd => 0
  | .arg => s.arg
  | .status => s.statusWord
  | .result0 => s.result0
  | .result1 => s.result1
  | .decpos => s.decCur.setWidth 32
  | .total => BitVec.ofNat 32 s.totalCount
  | .out j => s.outWord j.val
  | .reserved _ => 0

/-- The registers whose value while BUSY = 1 is unspecified in whole or in part (R148). ID, CMD, ARG and the reserved offsets
keep the reads of R27, R56 and R29. -/
def unspecifiedWhileBusy : Reg → Bool
  | .id => false
  | .cmd => false
  | .arg => false
  | .reserved _ => false
  | .status => true
  | .result0 => true
  | .result1 => true
  | .decpos => true
  | .total => true
  | .out _ => true

/-- What an unspecified register reads while BUSY = 1: STATUS shows BUSY and OVR, all other bits are the drawn ones (R148, U1). -/
def State.readBusy (s : State) (r : Reg) (drawn : Word) : Word :=
  match r with
  | .status => s.busyStatusWord drawn
  | _ => drawn

/-- A supported host read: the value goes to the host, no state of the block changes (R55). An unspecified value is the next
free one (log 3). -/
def State.hostRead (s : State) (r : Reg) : State :=
  if s.busy = true ∧ unspecifiedWhileBusy r = true then
    { s with readData := some (s.readBusy r (Config.unspecified s.draws)), draws := s.draws + 1 }
  else { s with readData := some (s.readIdle r) }

/-- A supported host write: ARG is written (R29); CMD issues a command while BUSY = 0 (R28) and is dropped with OVR <- 1 while
BUSY = 1 (R33); a write of any other offset is ignored (R56). -/
def State.hostWrite (s : State) (r : Reg) (v : Word) : State :=
  match r with
  | .arg => { s with arg := v }
  | .cmd => if s.busy then { s with ovr := true } else s.issue v
  | _ => s

/-- One host access: at an address outside the window it faults (R53, log 8), of an unsupported shape it is refused (R54), else
it has the effect `act` on the register at its offset. -/
def hostAccess (addr bits : Nat) (act : Reg → State) : Answer :=
  if addressInWindow addr = false then .fault .outsideWindow
  else if accessSupported (addr - Config.base) bits = false then .refused .unsupportedAccess
  else .next (act (registerAt (addr - Config.base)))

end Sys2Proof.Machine
end

