-- ==== Sys2Proof/Machine/Step.lean ====
section
/-! DEFINITION. One step: the next input, or the block's turn when none is pending (70_reset_and_hazards.md R146, R147). -/

namespace Sys2Proof.Machine

open Sys2Proof

/-- One step of the machine: it consumes the next input. With none pending the block takes its turn, so that a command in
progress always completes (R147) and an idle block stays as it is (U12; log 1, 2). -/
def step (s : State) : Host.Outcome State Fault Refusal :=
  match s.inputs with
  | [] => s.blockTurn
  | .blockTurn :: rest => { s with inputs := rest }.blockTurn
  | .reset :: rest => .next { s with inputs := rest }.resetBlock
  | .read addr bits :: rest => hostAccess addr bits { s with inputs := rest }.hostRead
  | .write addr bits v :: rest =>
    hostAccess addr bits fun r => { s with inputs := rest }.hostWrite r v

/-- `s` with the command word `w` just issued by the host, so that the very next step runs it (R28, R146; log 11). -/
def State.withFetchWord (s : State) (nbits w : Nat) : State := s.issuedNext (tableWord nbits w)

end Sys2Proof.Machine
end

