-- ==== Sys2Proof/Machine/Reference.lean ====
section
/-! DEFINITION. The host's side, outside the block: the host reference functions of 00_scope.md section 6, the host programs of
30_encoding.md section 3, and the reference algorithms the spec compares the block with (R96, R104). -/

namespace Sys2Proof.Machine

open Sys2Proof

/-! ### Analysis and encoding (R11 to R16) -/

/-- The distinct symbols of a sequence in the order of their first occurrence (R12). -/
def firstOccurrences : List Sym → List Sym
  | [] => []
  | y :: ys => y :: (firstOccurrences ys).filter (· ≠ y)

/-- `analyze(S)` (R11): each distinct symbol with its number of occurrences, in first-occurrence order (R12). -/
def analyze (S : List Sym) : List (Sym × Nat) := (firstOccurrences S).map fun y => (y, S.count y)

/-- The code of a symbol in a code table, if it has one (R15, R108). -/
def codeOf (lut : Vector LutEntry 256) (y : Sym) : Option (List Bool) :=
  if (lutIn lut y).valid then some (lutIn lut y).code else none

/-- `encode(S, codes)` (R15): the codes one after the other; it fails at a symbol with no code (R16, C3). -/
def encodeSymbols (lut : Vector LutEntry 256) : List Sym → Option (List Bool)
  | [] => some []
  | y :: ys =>
    match codeOf lut y, encodeSymbols lut ys with
    | some c, some r => some (c ++ r)
    | _, _ => none

/-! ### Feeding a stream (R17, R61, R62, R79) -/

/-- A chunk as DECODE takes it: the first bit at bit 0 (R17, R62). -/
def packBits : List Bool → Word
  | [] => 0
  | b :: bs => (packBits bs <<< 1) ||| (BitVec.ofBool b).setWidth 32

/-- A stream in chunks of 32 bits, the last one shorter (R79); `fuel` at least the stream's length loses nothing. -/
def splitChunks : Nat → List Bool → List (List Bool)
  | 0, _ => []
  | _ + 1, [] => []
  | fuel + 1, b :: bs => (b :: bs).take 32 :: splitChunks fuel ((b :: bs).drop 32)

/-! ### Commands one after the other, each to completion (R64, R78, R149) -/

/-- `WR ARG, a ; WR CMD, w ; POLL` as one act on the block's state: issue the command, run it to completion (R78, R146). -/
def perform (i : Instr) (a : Word) (s : State) : Answer := exec i ({ s with arg := a }.issue (encode i))

/-- A command performed and found to have reported E_OK; none if it reported an error. -/
def performOk (i : Instr) (a : Word) (s : State) : Option State :=
  match perform i a s with
  | .next t => if t.lastErr = .ok then some t else none
  | .fault _ => none
  | .refused _ => none

/-- Commands with their ARG values, in order, each reporting E_OK. -/
def performAll : List (Instr × Word) → State → Option State
  | [], s => some s
  | (i, a) :: rest, s => (performOk i a s).bind (performAll rest)

/-- Commands with their ARG values, in order, each run to completion whatever it reports. -/
def performEach : List (Instr × Word) → State → Option State
  | [], s => some s
  | (i, a) :: rest, s =>
    match perform i a s with
    | .next t => performEach rest t
    | .fault _ => none
    | .refused _ => none

/-- Way (a) of R13: one LOAD_FREQ with count 1 for each symbol of the input, in input order. -/
def loadPerOccurrence (S : List Sym) : List (Instr × Word) := S.map fun y => (.loadFreq y, 1)

/-- Way (b) of R13: one LOAD_FREQ for each distinct symbol in first-occurrence order, with its count. -/
def loadPerSymbol (S : List Sym) : List (Instr × Word) :=
  (analyze S).map fun p => (.loadFreq p.1, BitVec.ofNat 32 p.2)

/-- The symbols a DECODE has emitted: OUTBUF[0..NOUT-1], NOUT read from RESULT0 (R121). -/
def State.emitted (s : State) : List Sym := s.outbuf.toList.take (s.result0.extractLsb' 0 6).toNat

/-- Feed chunks of a stream, one DECODE each, all reporting E_OK: the symbols emitted in all, and the state at the end (R17). -/
def feed : List (List Bool) → State → Option (List Sym × State)
  | [], s => some ([], s)
  | c :: cs, s =>
    (performOk (.decode (BitVec.ofNat 6 c.length)) (packBits c) s).bind fun t =>
      (feed cs t).map fun r => (t.emitted ++ r.1, r.2)

/-! ### Host programs (R77 to R79) -/

/-- `WR reg, v` (R77). -/
def wr (r : Reg) (v : Word) : Input := .write (Config.base + r.offset) 32 v

/-- `RD reg` (R77). -/
def rd (r : Reg) : Input := .read (Config.base + r.offset) 32

/-- `POLL` (R77): `n` reads of STATUS that still see BUSY = 1, then the completion, then the read that sees BUSY = 0 (log 16). -/
def poll (n : Nat) : List Input := List.replicate n (rd .status) ++ [.blockTurn, rd .status]

/-- The commands whose operand is passed in ARG (R69, R78). -/
def usesArg : Instr → Bool
  | .nop => false
  | .clear => false
  | .loadFreq _ => true
  | .readFreq _ => false
  | .build => false
  | .readNode _ => false
  | .generate => false
  | .readCode _ _ => false
  | .decReset => false
  | .decode _ => true

/-- A command mnemonic's expansion to host operations (R78). -/
def expand (i : Instr) (a : Word) (polls : Nat) : List Input :=
  (if usesArg i then [wr .arg a] else []) ++ wr .cmd (encode i) :: poll polls

/-- Mnemonics one after the other, each with its own number of vain reads: the j-th POLL sees BUSY = 1 `polls j` times (R147; log 16).
`after` is what the host does after each. -/
def expandAll (after : List Input) : List (Instr × Word) → (Nat → Nat) → List Input
  | [], _ => []
  | (i, a) :: rest, polls => expand i a (polls 0) ++ after ++ expandAll after rest fun j => polls (j + 1)

/-- `DECODE_STREAM b_0 ... b_{M-1}` (R79). The bits of the last chunk past its count, which R79 leaves open and DECODE ignores (R62), are
0 (DESIGN CHOICE, log 18). -/
def decodeStream (bits : List Bool) (polls : Nat → Nat) : List Input :=
  expandAll [] ((.decReset, 0) ::
    (splitChunks bits.length bits).map fun c => (.decode (BitVec.ofNat 6 c.length), packBits c)) polls

/-- The READ_CODE commands of `ENCODE_TABLE` (R79): every symbol with a VALID code, every w < ceil(LEN / 32). R79 gives no order of
them; the model's is by symbol 0..255, then by w, ascending (DESIGN CHOICE, log 17). -/
def encodeTableReads (lut : Vector LutEntry 256) : List (Instr × Word) :=
  (List.range 256).flatMap fun v =>
    let y := BitVec.ofNat 8 v
    if (lutIn lut y).valid then
      (List.range (((lutIn lut y).len.toNat + 31) / 32)).map fun w => (.readCode y (BitVec.ofNat 3 w), 0)
    else []

/-- `ENCODE_TABLE` (R79): the READ_CODE commands in the order of log 17, RESULT0 and RESULT1 read after each. -/
def encodeTable (lut : Vector LutEntry 256) (polls : Nat → Nat) : List Input :=
  expandAll [rd .result0, rd .result1] (encodeTableReads lut) polls

/-! ### The end of a run (R154) -/

/-- A host write to CMD. -/
def Input.isCmdWrite : Input → Bool
  | .write addr bits _ => addr == Config.base + Reg.cmd.offset && bits == 32
  | .read _ _ => false
  | .reset => false
  | .blockTurn => false

/-- A host read of STATUS. -/
def Input.isStatusRead : Input → Bool
  | .read addr bits => addr == Config.base + Reg.status.offset && bits == 32
  | .write _ _ _ => false
  | .reset => false
  | .blockTurn => false

/-- The next step ends the run (R154): it is a reset, or the host reads STATUS with BUSY = 0 and has issued its last command, no
write to CMD being left among its inputs (log 19). -/
def State.endsRun (s : State) : Bool :=
  match s.inputs with
  | [] => false
  | x :: rest => x == .reset || (x.isStatusRead && !s.busy && rest.all fun y => !y.isCmdWrite)

/-- The run that starts in `s` is over after `n` steps (R154): one of them ended it. -/
def State.runOver : Nat → State → Bool
  | 0, _ => false
  | n + 1, s =>
    s.endsRun ||
      match step s with
      | .next t => t.runOver n
      | .fault _ => false
      | .refused _ => false

/-! ### The reference builder (R96) and the paths of the tree (R104) -/

/-- Insertion into a list sorted by ascending frequency, before every element of at least its own: with `stableSort` an
element keeps its place before the later ones of equal frequency (R96). -/
def stableInsert (f : Nat → Nat) (i : Nat) : List Nat → List Nat
  | [] => [i]
  | j :: q => if f i ≤ f j then i :: j :: q else j :: stableInsert f i q

/-- A stable sort by ascending frequency (R96). -/
def stableSort (f : Nat → Nat) (q : List Nat) : List Nat := q.foldr (stableInsert f) []

/-- The reference's merging as R96 reads it: stable-sort the candidate list, remove its first two elements, append the new
node at the end. -/
def referenceLoop : Nat → Vector Node 511 → List Nat → Nat → Vector Node 511
  | 0, nodes, _, _ => nodes
  | fuel + 1, nodes, q, nxt =>
    match stableSort (fun i => (nodeIn nodes i).freq.toNat) q with
    | a :: b :: rest => referenceLoop fuel (nodeSet nodes nxt (mergedNode nodes a b)) (rest ++ [nxt]) (nxt + 1)
    | _ => nodes

/-- The tree the reference builds (R96), the candidate list starting as the leaves in insertion order. -/
def State.referenceNodes (s : State) : Vector Node 511 :=
  referenceLoop s.k.toNat s.withLeaves (List.range s.k.toNat) s.k.toNat

/-- The node reached from `n` by a string of edges, 0 to LEFT and 1 to RIGHT (R104); none if an edge would leave a leaf. -/
def descend (nodes : Vector Node 511) : NodeIdx → List Bool → Option NodeIdx
  | n, [] => some n
  | n, b :: bs =>
    if (nodeIn nodes n.toNat).leaf then none
    else descend nodes (if b then (nodeIn nodes n.toNat).right else (nodeIn nodes n.toNat).left) bs

end Sys2Proof.Machine
end

