-- ==== Sys2Proof/Safety.lean ====
section
/-! DEFINITION. What holds in a safe run: the invariants the spec states of the block, and the tables of its error rules in the
terms the statements use. -/

namespace Sys2Proof.Machine

open Sys2Proof

/-! ### Invariants -/

/-- The frequency table (R45, R46): at most 256 keys, pairwise distinct, exactly the symbols with a count; the total fits; ORDER is
0 past the keys. -/
abbrev State.TableInv (s : State) : Prop :=
  s.k.toNat ≤ 256 ∧ s.keys.Nodup ∧ (∀ y : Sym, s.freqOf y ≠ 0 ↔ y ∈ s.keys) ∧ s.totalCount ≤ Config.freqMax ∧
    ∀ i < 256, s.k.toNat ≤ i → s.orderAt i = 0

/-- The internal nodes K..NNODE-1 (R47, R48). -/
def State.internals (s : State) : List Nat := (List.range s.nnode).drop s.k.toNat

/-- The children of the internal nodes K..NNODE-1, LEFT and RIGHT of each. -/
def State.children (s : State) : List Nat :=
  s.internals.flatMap fun i => [(s.nodeAt i).left.toNat, (s.nodeAt i).right.toNat]

/-- The tree of phases TREE and CODE (R47, R48): leaves at 0..K-1; internal nodes at K..NNODE-1 with two distinct earlier
children and the sum of their frequencies; every node but the root is a child exactly once; the root's frequency is TOTAL; nothing
past NNODE. -/
abbrev State.TreeShape (s : State) : Prop :=
  (∀ i < s.k.toNat, s.nodeAt i = s.leafNode i) ∧
  (∀ i ∈ s.internals,
    (s.nodeAt i).leaf = false ∧ (s.nodeAt i).sym = 0 ∧
    (s.nodeAt i).left.toNat < i ∧ (s.nodeAt i).right.toNat < i ∧ (s.nodeAt i).left ≠ (s.nodeAt i).right ∧
    (s.nodeAt i).freq.toNat =
      (s.nodeAt (s.nodeAt i).left.toNat).freq.toNat + (s.nodeAt (s.nodeAt i).right.toNat).freq.toNat) ∧
  s.children.Perm (List.range (s.nnode - 1)) ∧
  (s.k ≠ 0 → (s.nodeAt (s.nnode - 1)).freq.toNat = s.totalCount) ∧
  (∀ i < 511, s.nnode ≤ i → s.nodeAt i = Node.zero)

/-- key(i) < key(j) (R93, R8). -/
abbrev State.keyBefore (s : State) (i j : Nat) : Prop :=
  (s.nodeAt i).freq.toNat < (s.nodeAt j).freq.toNat ∨
    ((s.nodeAt i).freq.toNat = (s.nodeAt j).freq.toNat ∧ i < j)

/-- The candidates when node `i` is created: the nodes before `i` that no node created before `i` has as a child (R92). -/
def State.candidates (s : State) (i : Nat) : List Nat :=
  (List.range i).filter fun j =>
    ((List.range i).drop s.k.toNat).all fun p => (s.nodeAt p).left.toNat != j && (s.nodeAt p).right.toNat != j

/-- Node `i` merges the two candidates of least key: LEFT is the least, RIGHT the least of the rest (R95). -/
abbrev State.MergesLeast (s : State) (i : Nat) : Prop :=
  (s.nodeAt i).left.toNat ∈ s.candidates i ∧ (s.nodeAt i).right.toNat ∈ s.candidates i ∧
  (s.nodeAt i).left ≠ (s.nodeAt i).right ∧
  (∀ j ∈ s.candidates i, j ≠ (s.nodeAt i).left.toNat → s.keyBefore (s.nodeAt i).left.toNat j) ∧
  (∀ j ∈ s.candidates i, j ≠ (s.nodeAt i).left.toNat → j ≠ (s.nodeAt i).right.toNat →
    s.keyBefore (s.nodeAt i).right.toNat j)

/-- NODE in every phase: empty in LOAD (U14, R84), a full tree built by R95's merges in TREE and CODE. -/
abbrev State.TreeInv (s : State) : Prop :=
  (s.phase = .load → ∀ i < 511, s.nodeAt i = Node.zero) ∧
  (s.phase ≠ .load → s.TreeShape ∧ ∀ i ∈ s.internals, s.MergesLeast i)

/-- LUT in every phase: empty before GENERATE (R49), what GENERATE writes for the present tree in CODE (R31, R112). -/
abbrev State.CodeInv (s : State) : Prop :=
  (s.phase ≠ .code → s.lut = lutEmpty) ∧ (s.phase = .code → s.lut = s.generatedLut)

/-- The decoder (R50, R122, R123): at NIL and not halted in LOAD; at ROOTPOS or an internal node in TREE and CODE; halted only if
K <= 1. -/
abbrev State.DecoderInv (s : State) : Prop :=
  (s.phase = .load → s.decCur = Config.nil ∧ s.decFell = false) ∧
  (s.phase ≠ .load → s.decCur = s.rootPos ∨ (s.k.toNat ≤ s.decCur.toNat ∧ s.decCur.toNat < s.nnode)) ∧
  (s.decFell = true → s.k.toNat ≤ 1)

/-- The invariant of the block. -/
abbrev State.Inv (s : State) : Prop := s.TableInv ∧ s.TreeInv ∧ s.CodeInv ∧ s.DecoderInv

/-! ### The error rules -/

/-- The phases a command is permitted in (R82's table); DECODE also needs DEC_FELL = 0. -/
def permitted : Instr → State → Bool
  | .nop, _ => true
  | .clear, _ => true
  | .loadFreq _, s => s.phase == .load
  | .readFreq _, _ => true
  | .build, s => s.phase == .load
  | .readNode _, s => s.phase == .tree || s.phase == .code
  | .generate, s => s.phase == .tree || s.phase == .code
  | .readCode _ _, s => s.phase == .code
  | .decReset, s => s.phase == .tree || s.phase == .code
  | .decode _, s => (s.phase == .tree || s.phase == .code) && !s.decFell

/-- The causes of R129 in the check order of R130, each with whether it applies to the command in this state (E_ILLEGAL is a cause
of words, not of commands). -/
def errorCauses (i : Instr) (s : State) : List (ErrCode × Bool) :=
  [(.phase, !permitted i s),
   (.arg, match i with
     | .loadFreq _ => s.argl == 0
     | .readNode idx => decide (s.nnode ≤ idx.toNat)
     | .decode n => n == 0 || decide (32 < n.toNat)
     | .nop | .clear | .readFreq _ | .build | .generate | .readCode _ _ | .decReset => false),
   (.ovf, match i with
     | .loadFreq _ => decide (2 ^ 32 - 1 < s.totalCount + s.argl.toNat)
     | .nop | .clear | .readFreq _ | .build | .readNode _ | .generate | .readCode _ _ | .decReset | .decode _ => false),
   (.noCode, match i with
     | .readCode y _ => !(s.lutOf y).valid
     | .nop | .clear | .loadFreq _ | .readFreq _ | .build | .readNode _ | .generate | .decReset | .decode _ => false)]

/-- The first cause that applies; E_OK if none does (R130). -/
def firstError (i : Instr) (s : State) : ErrCode :=
  match (errorCauses i s).find? (·.2) with
  | some c => c.1
  | none => .ok

/-- The error codes a command can report beside E_OK (R132). -/
def reportableErrors : Instr → List ErrCode
  | .nop => []
  | .clear => []
  | .loadFreq _ => [.phase, .arg, .ovf]
  | .readFreq _ => []
  | .build => [.phase]
  | .readNode _ => [.phase, .arg]
  | .generate => [.phase]
  | .readCode _ _ => [.phase, .noCode]
  | .decReset => [.phase]
  | .decode _ => [.phase, .arg]

/-- The state a command leaves when it raises `e`: nothing but LAST_ERR and BUSY is changed (R128). -/
def State.failed (s : State) (e : ErrCode) : State := { s with lastErr := e, busy := false }

/-- The state with one more input, next in turn. -/
def State.facing (s : State) (x : Input) : State := { s with inputs := x :: s.inputs }

/-- The E_ILLEGAL clause of a command rule: a latched word with this opcode and a 1 among bits [23:lo] completes with E_ILLEGAL and
no other change (R72). -/
def RejectsReservedBits (opcode lo : Nat) : Prop :=
  ∀ s : State, s.busy = true → (opcodeField s.cmdl).toNat = opcode → s.cmdl.extractLsb' lo (24 - lo) ≠ 0 →
    step (s.facing .blockTurn) = .next (s.failed .illegal)

/-- Every chunk of a split stream holds 1 to 32 bits (R17). -/
abbrev ChunksFit (cs : List (List Bool)) : Prop := ∀ c ∈ cs, 1 ≤ c.length ∧ c.length ≤ 32

end Sys2Proof.Machine
end

