-- ==== Sys2Proof/Certificates/Slice0/Obligations.lean ====
section
/-! DEFINITION. The statements about the block, for the provers. Each docstring names the rule it formalises. -/

section

open Sys2Proof Sys2Proof.Machine

/-! ### Reset -/

/-- R143: every state element at its reset value, and what the registers read. -/
def Obligations.ResetStateAndRegisters : Prop :=
  State.reset.arg = 0 ∧ State.reset.cmdl = 0 ∧ State.reset.argl = 0 ∧ State.reset.phase = .load ∧
  State.reset.busy = false ∧ State.reset.ovr = false ∧ State.reset.decFell = false ∧ State.reset.lastErr = .ok ∧
  State.reset.result0 = 0 ∧ State.reset.result1 = 0 ∧ State.reset.k = 0 ∧ State.reset.decCur = 0x1FF ∧
  (∀ y, State.reset.freqOf y = 0) ∧ (∀ i < 256, State.reset.orderAt i = 0) ∧
  (∀ i < 511, State.reset.nodeAt i = { leaf := false, sym := 0, freq := 0, left := 0, right := 0 }) ∧
  (∀ y, State.reset.lutOf y = { valid := false, len := 0, bits := 0 }) ∧ (∀ i < 32, State.reset.outAt i = 0) ∧
  State.reset.readIdle .id = 0x48554631 ∧ State.reset.readIdle .status = 0 ∧ State.reset.readIdle .result0 = 0 ∧
  State.reset.readIdle .result1 = 0 ∧ State.reset.readIdle .decpos = 0x000001FF ∧ State.reset.readIdle .total = 0 ∧
  ∀ j, State.reset.readIdle (.out j) = 0

/-- The reset state meets the invariant. -/
def Obligations.ResetMeetsInvariant : Prop := State.reset.Inv

/-- R142: a platform reset puts every state element at its reset value and abandons a command in progress, at any time, and the
block then accepts a command. The model's own fields (what is still to come, the free-value counter, the last read) stay (log 10). -/
def Obligations.PlatformResetAbandonsCommand : Prop :=
  ∀ s : State, ∃ t, step (s.facing .reset) = .next t ∧
    t = { State.reset with inputs := s.inputs, draws := s.draws, readData := s.readData } ∧ t.busy = false ∧
    ∀ w : Word, step (t.facing (.write (Config.base + 0x04) 32 w)) =
      .next { t with cmdl := w, argl := t.arg, busy := true }

/-! ### The register window -/

/-- R28: a CMD write while BUSY = 0 latches the word and ARG's current value, sets BUSY, and the command executes at the block's turn; a
write while BUSY = 1 is an overrun; a CMD read returns 0 at any time and has no effect. -/
def Obligations.CmdWriteIssuesCommand : Prop :=
  (∀ (s : State) (w : Word), s.busy = false →
    step (s.facing (.write (Config.base + 0x04) 32 w)) = .next { s with cmdl := w, argl := s.arg, busy := true } ∧
    ∀ i, decodeWord w = .command i →
      step (({ s with cmdl := w, argl := s.arg, busy := true } : State).facing .blockTurn) =
        exec i { s with cmdl := w, argl := s.arg, busy := true }) ∧
  (∀ (s : State) (w : Word), s.busy = true →
    step (s.facing (.write (Config.base + 0x04) 32 w)) = .next { s with ovr := true }) ∧
  ∀ s : State, step (s.facing (.read (Config.base + 0x04) 32)) = .next { s with readData := some 0 }

/-- R33: a CMD write while BUSY = 1 is dropped, sets OVR and changes nothing else; a step that clears OVR is a reset or runs CLEAR;
both clear it. -/
def Obligations.CmdWriteWhileBusySetsOverrun : Prop :=
  (∀ (s : State) (w : Word), s.busy = true → step (s.facing (wr .cmd w)) = .next { s with ovr := true }) ∧
  (∀ s t : State, step s = .next t → s.ovr = true → t.ovr = false →
    s.inputs.head? = some .reset ∨
      (s.busy = true ∧ decodeWord s.cmdl = .command .clear ∧ (s.inputs = [] ∨ s.inputs.head? = some .blockTurn))) ∧
  (∀ s : State, ∃ t, exec .clear s = .next t ∧ t.ovr = false) ∧
  (∀ s : State, ∃ t, step (s.facing .reset) = .next t ∧ t.ovr = false) ∧ State.reset.ovr = false

/-- R29: ARG is 0 at reset, written by the host and read back unchanged, BUSY or not; no command writes it; a command has the value
ARG had at its issue, and an ARG write after that does not reach it. -/
def Obligations.ArgIsPlainHostRegister : Prop :=
  State.reset.arg = 0 ∧
  (∀ (s : State) (v : Word), step (s.facing (.write (Config.base + 0x08) 32 v)) = .next { s with arg := v }) ∧
  (∀ s : State, step (s.facing (.read (Config.base + 0x08) 32)) = .next { s with readData := some s.arg }) ∧
  (∀ (i : Instr) (s t : State), exec i s = .next t → t.arg = s.arg) ∧
  (∀ (s : State) (w : Word), s.busy = false → ∃ t, step (s.facing (wr .cmd w)) = .next t ∧ t.argl = s.arg) ∧
  ∀ (i : Instr) (s t : State) (v : Word), exec i s = .next t → exec i { s with arg := v } = .next { t with arg := v }

/-- R55: no read of any register changes any state of the block, and every supported read completes; the only write with an effect
beside ARG's is the one to CMD. -/
def Obligations.HostReadsHaveNoSideEffect : Prop :=
  (∀ (s : State) (r : Reg), ∃ w d, step (s.facing (rd r)) = .next { s with readData := some w, draws := d }) ∧
  (∀ (s t : State) (addr bits : Nat), step (s.facing (.read addr bits)) = .next t →
    t = { s with readData := t.readData, draws := t.draws }) ∧
  (∀ (s : State) (r : Reg) (v : Word), r ≠ .arg → r ≠ .cmd → step (s.facing (wr r v)) = .next s)

/-- R56: reserved offsets and CMD read 0, and writes to reserved or read-only registers are ignored, BUSY or not; the addresses are
BASE plus the offsets of the register table. -/
def Obligations.ReservedAndReadOnlyOffsets : Prop :=
  (∀ (s : State) (off : Nat), 0x40 ≤ off → off ≤ 0xFC → off % 4 = 0 →
    step (s.facing (.read (Config.base + off) 32)) = .next { s with readData := some 0 }) ∧
  (∀ s : State, step (s.facing (.read (Config.base + 0x04) 32)) = .next { s with readData := some 0 }) ∧
  ∀ (s : State) (off : Nat) (v : Word), off ≤ 0xFC → off % 4 = 0 → off ≠ 0x04 → off ≠ 0x08 →
    step (s.facing (.write (Config.base + off) 32 v)) = .next s

/-- R54: an access of the window that is not 32 bits wide, or not at a multiple of 4, is refused; every other one completes. -/
def Obligations.UnsupportedAccessIsRefused : Prop :=
  ∀ (s : State) (off bits : Nat) (v : Word), off < 256 →
    (bits ≠ 32 ∨ off % 4 ≠ 0 →
      step (s.facing (.read (Config.base + off) bits)) = .refused .unsupportedAccess ∧
      step (s.facing (.write (Config.base + off) bits v)) = .refused .unsupportedAccess) ∧
    (bits = 32 → off % 4 = 0 →
      (∃ t, step (s.facing (.read (Config.base + off) bits)) = .next t) ∧
      ∃ t, step (s.facing (.write (Config.base + off) bits v)) = .next t)

/-- R27: ID reads its constant at all times, and writes to it are ignored. -/
def Obligations.IdReadsItsConstant : Prop :=
  ∀ (s : State) (v : Word),
    step (s.facing (.read (Config.base + 0x00) 32)) = .next { s with readData := some 0x48554631 } ∧
    step (s.facing (.write (Config.base + 0x00) 32 v)) = .next s

/-- R34, R35, R37, R39 and the field table of R30, while BUSY = 0: each bit of the STATUS word. -/
def Obligations.StatusFieldsWhileIdle : Prop :=
  ∀ s : State, s.busy = false → ∃ w : Word,
    step (s.facing (.read (Config.base + 0x0C) 32)) = .next { s with readData := some w } ∧
    (w.extractLsb' 0 2).toNat = (match s.phase with | .load => 0 | .tree => 1 | .code => 2) ∧
    w.getLsbD 2 = false ∧ w.getLsbD 3 = s.ovr ∧
    (w.getLsbD 4 = true ↔ (s.phase = .tree ∨ s.phase = .code) ∧ 1 ≤ s.k.toNat) ∧
    (w.getLsbD 5 = true ↔ s.phase = .code) ∧
    w.getLsbD 6 = s.decFell ∧
    (w.getLsbD 7 = true ↔ (s.phase = .tree ∨ s.phase = .code) ∧ s.decCur ≠ s.rootPos) ∧
    (w.extractLsb' 8 3).toNat =
      (match s.lastErr with | .ok => 0 | .illegal => 1 | .phase => 2 | .arg => 3 | .ovf => 4 | .noCode => 5) ∧
    w.extractLsb' 11 5 = 0 ∧ w.extractLsb' 16 9 = s.k ∧ w.extractLsb' 25 7 = 0

/-- R148: what the host gets while BUSY = 1. The value of `Config.unspecified` is free: a new draw at each such read (log 3).
That STATUS's reserved bits are drawn too while BUSY = 1 is the model's choice, R30 and U7 saying that they read 0 (log 5). -/
def Obligations.ReadsAndWritesWhileBusy : Prop :=
  ∀ s : State, s.busy = true →
    step (s.facing (rd .id)) = .next { s with readData := some 0x48554631 } ∧
    step (s.facing (rd .arg)) = .next { s with readData := some s.arg } ∧
    (∃ w : Word, step (s.facing (rd .status)) = .next { s with readData := some w, draws := s.draws + 1 } ∧
      w.getLsbD 2 = true ∧ w.getLsbD 3 = s.ovr ∧
      ∀ b < 32, b ≠ 2 → b ≠ 3 → w.getLsbD b = (Config.unspecified s.draws).getLsbD b) ∧
    (∀ r : Reg, (r = .result0 ∨ r = .result1 ∨ r = .decpos ∨ r = .total ∨ ∃ j, r = .out j) →
      step (s.facing (rd r)) =
        .next { s with readData := some (Config.unspecified s.draws), draws := s.draws + 1 }) ∧
    (∀ v : Word, step (s.facing (wr .arg v)) = .next { s with arg := v } ∧
      ∀ i t, exec i s = .next t → exec i { s with arg := v } = .next { t with arg := v }) ∧
    ∀ v : Word, step (s.facing (wr .cmd v)) = .next { s with ovr := true }

/-- While BUSY = 0 RESULT0 and RESULT1 read their registers at their offsets (R40); R41, R42, R43: DECPOS, TOTAL and the OUT registers
are views of DEC_CUR, FREQ and OUTBUF; DECPOS ignores writes; their reads at reset. -/
def Obligations.DecposTotalAndOutRead : Prop :=
  (∀ s : State, s.busy = false →
    step (s.facing (.read (Config.base + 0x10) 32)) = .next { s with readData := some s.result0 } ∧
    step (s.facing (.read (Config.base + 0x14) 32)) = .next { s with readData := some s.result1 } ∧
    (∃ w : Word, step (s.facing (.read (Config.base + 0x18) 32)) = .next { s with readData := some w } ∧
      w.toNat = s.decCur.toNat) ∧
    (s.TableInv → ∃ w : Word, step (s.facing (.read (Config.base + 0x1C) 32)) = .next { s with readData := some w } ∧
      w.toNat = ((List.range 256).map fun v => (s.freqOf (BitVec.ofNat 8 v)).toNat).sum ∧ w.toNat ≤ 2 ^ 32 - 1) ∧
    ∀ j < 8, ∃ w : Word,
      step (s.facing (.read (Config.base + (0x20 + 4 * j)) 32)) = .next { s with readData := some w } ∧
      ∀ b < 4, w.extractLsb' (8 * b) 8 = s.outAt (4 * j + b)) ∧
  (∀ (s : State) (v : Word), step (s.facing (.write (Config.base + 0x18) 32 v)) = .next s) ∧
  State.reset.readIdle .decpos = 0x000001FF ∧ State.reset.readIdle .total = 0 ∧ ∀ j, State.reset.readIdle (.out j) = 0

/-! ### The step -/

/-- R146: with a command in progress whose word decodes to `i`, the block's turn is `exec i`: with no input pending at once, and
when its turn is the next input with that input consumed. -/
def Obligations.StepRunsDecodedCommand : Prop :=
  ∀ (s : State) (i : Instr), s.busy = true → decodeWord s.cmdl = .command i →
    (s.inputs = [] → step s = exec i s) ∧ step (s.facing .blockTurn) = exec i s

/-- R147 and U12: a command in progress completes in one turn, whatever its word; an idle block stays as it is. -/
def Obligations.CommandInProgressCompletes : Prop :=
  ∀ s : State,
    (s.busy = true → ∃ t, step (s.facing .blockTurn) = .next t ∧ t.busy = false ∧ (s.inputs = [] → step s = .next t)) ∧
    (s.busy = false → step (s.facing .blockTurn) = .next s ∧ (s.inputs = [] → step s = .next s))

/-- R78, R146: the host operations of a command mnemonic, polled `p` times in vain, carry the block from before its issue to its
completion, and the last read is STATUS of the completed command. -/
def Obligations.MnemonicRunsToCompletion : Prop :=
  ∀ (s t : State) (i : Instr) (a : Word) (p : Nat) (rest : List Input), s.busy = false →
    s.inputs = expand i a p ++ rest →
    exec i ({ s with inputs := rest, arg := if usesArg i then a else s.arg }.issue (encode i)) = .next t →
    Host.Core.run Sys2Proof.core (expand i a p).length s =
      .next { t with draws := s.draws + p, readData := some t.statusWord }

/-- R137, R150: an overrun write and an ARG write during a command leave its results, its error and every other effect as they
would have been (CLEAR clears OVR either way). -/
def Obligations.HostWritesDoNotDisturbCommand : Prop :=
  ∀ (i : Instr) (s t : State) (v : Word), exec i s = .next t →
    exec i { s with arg := v } = .next { t with arg := v } ∧
    (i ≠ .clear → exec i { s with ovr := true } = .next { t with ovr := true }) ∧
    (i = .clear → exec i { s with ovr := true } = .next t)

/-! ### Encoding -/

/-- R78: every command's word decodes to it, with every operand at every value. -/
def Obligations.DecodeInvertsEncode : Prop := ∀ i : Instr, decodeWord (encode i) = .command i

/-- A word that decodes to a command is that command's word: no bit of it is ignored. -/
def Obligations.EncodeInvertsDecode : Prop := ∀ (w : Word) (i : Instr), decodeWord w = .command i → encode i = w

/-- R74: the decoder is the opcode map: a word is a command exactly when it selects a row, then the row of its mnemonic and no
other, with the operand fields of the row's format, and illegal exactly when it selects none. -/
def Obligations.DecodingFollowsOpcodeMap : Prop :=
  ∀ w : Word,
    (∀ i, decodeWord w = .command i →
      opcodeMap.filter (·.selects w) = opcodeMap.filter (·.mnemonic == i.mnemonic) ∧
      (∀ y, i = .loadFreq y ∨ i = .readFreq y → y = w.extractLsb' 0 8) ∧
      (∀ idx, i = .readNode idx → idx = w.extractLsb' 0 9) ∧
      (∀ y k, i = .readCode y k → y = w.extractLsb' 0 8 ∧ k = w.extractLsb' 8 3) ∧
      ∀ n, i = .decode n → n = w.extractLsb' 0 6) ∧
    ((∃ why, decodeWord w = .illegal why) ↔ ∀ r ∈ opcodeMap, r.selects w = false)

/-- R72, R75: a reserved opcode, or a 1 among the bits its format reserves, completes with E_ILLEGAL and no other change. -/
def Obligations.IllegalWordReportsIllegal : Prop :=
  ∀ s : State, s.busy = true →
    (0x0A ≤ (s.cmdl.extractLsb' 24 8).toNat ∨
      ∃ f, formatOfOpcode (s.cmdl.extractLsb' 24 8).toNat = some f ∧ s.cmdl &&& f.reservedBits ≠ 0) →
    step (s.facing .blockTurn) = .next { s with lastErr := .illegal, busy := false }

/-- R74: one word of every row, written out from the map. -/
def Obligations.SampleWordsDecode : Prop :=
  decodeWord 0x00000000 = .command .nop ∧ decodeWord 0x01000000 = .command .clear ∧
  decodeWord 0x02000061 = .command (.loadFreq 0x61) ∧ decodeWord 0x030000FF = .command (.readFreq 0xFF) ∧
  decodeWord 0x04000000 = .command .build ∧ decodeWord 0x050001FE = .command (.readNode 0x1FE) ∧
  decodeWord 0x06000000 = .command .generate ∧ decodeWord 0x07000362 = .command (.readCode 0x62 3) ∧
  decodeWord 0x08000000 = .command .decReset ∧ decodeWord 0x09000020 = .command (.decode 32) ∧
  decodeWord 0x0A000000 = .illegal .reservedOpcode ∧ decodeWord 0x09000040 = .illegal .reservedBits

/-! ### Errors and phases -/

/-- R81, R128: every command completes with BUSY = 0, with E_OK if no error applies to it; one that reports an error, an illegal word
among them, has changed nothing but LAST_ERR and BUSY. -/
def Obligations.CommandsEndPrecisely : Prop :=
  (∀ (i : Instr) (s : State), ∃ t, exec i s = .next t ∧ t.busy = false ∧ (firstError i s = .ok → t.lastErr = .ok) ∧
    (t.lastErr ≠ .ok → t = { s with lastErr := t.lastErr, busy := false })) ∧
  ∀ s : State, s.busy = true → ∃ t, step (s.facing .blockTurn) = .next t ∧ t.busy = false ∧
    (t.lastErr ≠ .ok → t = { s with lastErr := t.lastErr, busy := false })

/-- R82: a command outside its permitted phases (DECODE also while halted) reports E_PHASE and does nothing; inside them no command
reports E_PHASE. -/
def Obligations.PermittedPhases : Prop :=
  ∀ (i : Instr) (s : State),
    (permitted i s = false → exec i s = .next (s.failed .phase)) ∧
    (permitted i s = true → ∃ t, exec i s = .next t ∧ t.lastErr ≠ .phase)

/-- R130, R132: LAST_ERR is the first cause that applies in the order E_ILLEGAL, E_PHASE, E_ARG, E_OVF, E_NOCODE, E_OK if none does,
and a command reports only the codes R132 lists. -/
def Obligations.FirstErrorIsReported : Prop :=
  (∀ s : State, s.busy = true → (∃ why, decodeWord s.cmdl = .illegal why) →
    step (s.facing .blockTurn) = .next (s.failed .illegal)) ∧
  ∀ (i : Instr) (s : State),
    (∃ t, exec i s = .next t ∧ t.lastErr = firstError i s) ∧
    (firstError i s ≠ .ok → exec i s = .next (s.failed (firstError i s)) ∧ firstError i s ∈ reportableErrors i)

/-- PHASE changes only by BUILD (LOAD to TREE), GENERATE (TREE or CODE to CODE) and CLEAR (any to LOAD); in TREE and CODE no other
command changes NODE, and in CODE none changes LUT, GENERATE leaving it as it is (R31). -/
def Obligations.PhaseChanges : Prop :=
  ∀ (i : Instr) (s t : State), exec i s = .next t →
    (t.phase ≠ s.phase →
      (i = .build ∧ s.phase = .load ∧ t.phase = .tree) ∨ (i = .generate ∧ s.phase = .tree ∧ t.phase = .code) ∨
      (i = .clear ∧ t.phase = .load)) ∧
    (s.phase ≠ .load → i ≠ .clear → t.node = s.node) ∧
    (s.Inv → s.phase = .code → i ≠ .clear → t.lut = s.lut)

/-- Which commands write which state (R31, R45, R49, R50, R29, R33): the frame of the whole command set. -/
def Obligations.WhichCommandsWriteWhat : Prop :=
  ∀ (i : Instr) (s t : State), exec i s = .next t → i ≠ .clear →
    t.arg = s.arg ∧ t.cmdl = s.cmdl ∧ t.argl = s.argl ∧ t.ovr = s.ovr ∧
    t.inputs = s.inputs ∧ t.draws = s.draws ∧ t.readData = s.readData ∧
    ((∀ y, i ≠ .loadFreq y) ∨ s.phase ≠ .load → t.freq = s.freq ∧ t.order = s.order ∧ t.k = s.k) ∧
    (i ≠ .build ∨ s.phase ≠ .load → t.node = s.node) ∧
    (i ≠ .build → i ≠ .generate → t.lut = s.lut) ∧
    ((∀ n, i ≠ .decode n) → t.outbuf = s.outbuf) ∧
    ((∀ n, i ≠ .decode n) → i ≠ .build → i ≠ .decReset → t.decCur = s.decCur ∧ t.decFell = s.decFell) ∧
    (i = .nop ∨ i = .decReset → t.result0 = s.result0 ∧ t.result1 = s.result1)

/-! ### NOP, CLEAR -/

/-- R83. -/
def Obligations.NopWritesOnlyLastErr : Prop :=
  decodeWord 0x00000000 = .command .nop ∧ RejectsReservedBits 0x00 0 ∧
  ∀ s : State, exec .nop s = .next { s with lastErr := .ok, busy := false }

/-- R84, R144: CLEAR gives the reset state except ARG, in any phase. -/
def Obligations.ClearGivesResetStateButArg : Prop :=
  decodeWord 0x01000000 = .command .clear ∧ RejectsReservedBits 0x01 0 ∧
  ∀ s : State, exec .clear s =
    .next { State.reset with arg := s.arg, inputs := s.inputs, draws := s.draws, readData := s.readData }

/-! ### The frequency table -/

/-- R88. -/
def Obligations.LoadFreqAddsCount : Prop :=
  (∀ y : Sym, decodeWord (0x02000000 ||| y.setWidth 32) = .command (.loadFreq y)) ∧ RejectsReservedBits 0x02 8 ∧
  ∀ (s : State) (y : Sym), s.TableInv →
    (s.phase ≠ .load → exec (.loadFreq y) s = .next (s.failed .phase)) ∧
    (s.phase = .load → s.argl = 0 → exec (.loadFreq y) s = .next (s.failed .arg)) ∧
    (s.phase = .load → s.argl ≠ 0 → 2 ^ 32 - 1 < s.totalCount + s.argl.toNat →
      exec (.loadFreq y) s = .next (s.failed .ovf)) ∧
    (s.phase = .load → s.argl ≠ 0 → s.totalCount + s.argl.toNat ≤ 2 ^ 32 - 1 →
      ∃ t, exec (.loadFreq y) s = .next t ∧
        t = { s with freq := t.freq, order := t.order, k := t.k, result0 := t.result0, result1 := t.result1,
                     lastErr := .ok, busy := false } ∧
        (t.freqOf y).toNat = (s.freqOf y).toNat + s.argl.toNat ∧ (∀ z, z ≠ y → t.freqOf z = s.freqOf z) ∧
        (s.freqOf y = 0 → t.k.toNat = s.k.toNat + 1 ∧ t.keys = s.keys ++ [y] ∧
          ∀ i, i ≠ s.k.toNat → t.orderAt i = s.orderAt i) ∧
        (s.freqOf y ≠ 0 → t.k = s.k ∧ t.order = s.order) ∧
        t.totalCount = s.totalCount + s.argl.toNat ∧
        t.result0 = t.freqOf y ∧ t.result1.toNat < t.k.toNat ∧ t.orderAt t.result1.toNat = y)

/-- R90, with LIDX as R87 defines it. -/
def Obligations.ReadFreqReadsCountAndIndex : Prop :=
  (∀ y : Sym, decodeWord (0x03000000 ||| y.setWidth 32) = .command (.readFreq y)) ∧ RejectsReservedBits 0x03 8 ∧
  ∀ (s : State) (y : Sym), s.TableInv →
    ∃ r1 : Word, exec (.readFreq y) s =
        .next { s with result0 := s.freqOf y, result1 := r1, lastErr := .ok, busy := false } ∧
      (s.freqOf y = 0 → r1 = 0x000001FF) ∧ (s.freqOf y ≠ 0 → r1.toNat < s.k.toNat ∧ s.orderAt r1.toNat = y)

/-- R89, R13: one count per occurrence in input order, or each symbol's whole count in first-occurrence order, leave the same table:
ORDER the first-occurrence order and FREQ the numbers of occurrences. -/
def Obligations.BothWaysOfLoadingAgree : Prop :=
  ∀ (S : List Sym) (s : State), S.length ≤ 2 ^ 32 - 1 → s.TableInv → s.phase = .load → s.k = 0 →
    ∃ t u, performAll (loadPerOccurrence S) s = some t ∧ performAll (loadPerSymbol S) s = some u ∧
      t.freq = u.freq ∧ t.order = u.order ∧ t.k = u.k ∧
      t.keys = firstOccurrences S ∧ ∀ y, (t.freqOf y).toNat = S.count y

/-! ### The Tree Builder -/

/-- BUILD's completion, its results, the leaves, and its frame (R94 without the merges, which are the next statements). -/
def Obligations.BuildCompletes : Prop :=
  decodeWord 0x04000000 = .command .build ∧ RejectsReservedBits 0x04 0 ∧
  ∀ s : State, s.TableInv →
    (s.phase ≠ .load → exec .build s = .next (s.failed .phase)) ∧
    (s.phase = .load → ∃ t, exec .build s = .next t ∧
      t = { s with node := t.node, lut := t.lut, phase := .tree, decCur := t.decCur, decFell := false,
                   result0 := t.result0, result1 := t.result1, lastErr := .ok, busy := false } ∧
      (∀ y, t.lutOf y = { valid := false, len := 0, bits := 0 }) ∧
      (∀ i < s.k.toNat, t.nodeAt i =
        { leaf := true, sym := s.orderAt i, freq := s.freqOf (s.orderAt i), left := 0x1FF, right := 0x1FF }) ∧
      (∀ i < 511, 2 * s.k.toNat - 1 ≤ i → t.nodeAt i = s.nodeAt i) ∧
      t.result0.toNat = 2 * s.k.toNat - 1 ∧
      t.result1.toNat = (if s.k = 0 then 0x1FF else 2 * s.k.toNat - 2) ∧
      t.decCur.toNat = (if 2 ≤ s.k.toNat then 2 * s.k.toNat - 2 else 0x1FF))

/-- R97, R98 on the block's side of BUILD: no key gives no node, one key gives the single leaf as the root. -/
def Obligations.BuildOfAtMostOneKey : Prop :=
  ∀ s : State, s.TableInv → s.phase = .load → (∀ i < 511, s.nodeAt i = Node.zero) → s.k.toNat ≤ 1 →
    ∃ t, exec .build s = .next t ∧ t.phase = .tree ∧ t.decCur = 0x1FF ∧ t.lastErr = .ok ∧
      (s.k.toNat = 0 → t.result0 = 0 ∧ t.result1 = 0x1FF ∧ t.treeValid = false ∧ ∀ i < 511, t.nodeAt i = Node.zero) ∧
      (s.k.toNat = 1 → t.result0 = 1 ∧ t.result1 = 0 ∧ t.treeValid = true ∧ (t.nodeAt 0).leaf = true ∧
        (t.nodeAt 0).sym = s.orderAt 0 ∧ ∀ i < 511, 0 < i → t.nodeAt i = Node.zero)

/-- R94, R95: each internal node BUILD writes has the candidate of least key as LEFT, the least of the rest as RIGHT, and the sum of
their frequencies; the candidates are the nodes created before it and not merged before it (R92). -/
def Obligations.BuildMergesTwoLeastCandidates : Prop :=
  ∀ s t : State, s.TableInv → s.phase = .load → exec .build s = .next t →
    ∀ i, s.k.toNat ≤ i → i < 2 * s.k.toNat - 1 →
      t.MergesLeast i ∧ (t.nodeAt i).leaf = false ∧ (t.nodeAt i).sym = 0 ∧
      (t.nodeAt i).freq = (t.nodeAt (t.nodeAt i).left.toNat).freq + (t.nodeAt (t.nodeAt i).right.toNat).freq

/-- R48, R101: the tree BUILD writes is a full binary tree over one leaf for each key, its root's frequency TOTAL. -/
def Obligations.BuildGivesFullBinaryTree : Prop :=
  ∀ s t : State, s.TableInv → s.phase = .load → (∀ i < 511, s.nodeAt i = Node.zero) → exec .build s = .next t →
    t.TreeShape ∧ ∀ i < 511, (t.nodeAt i).leaf = true ↔ i < s.k.toNat

/-- R96: BUILD gives the tree of the reference's stable sort, front taken first and new nodes appended at the end. -/
def Obligations.BuildMatchesStableSortReference : Prop :=
  ∀ s t : State, s.phase = .load → exec .build s = .next t → t.node = s.referenceNodes

/-- R102. -/
def Obligations.ReadNodeReadsFields : Prop :=
  (∀ idx : NodeIdx, decodeWord (0x05000000 ||| idx.setWidth 32) = .command (.readNode idx)) ∧ RejectsReservedBits 0x05 9 ∧
  ∀ (s : State) (idx : NodeIdx),
    (s.phase = .load → exec (.readNode idx) s = .next (s.failed .phase)) ∧
    (s.phase ≠ .load → 2 * s.k.toNat - 1 ≤ idx.toNat → exec (.readNode idx) s = .next (s.failed .arg)) ∧
    (s.phase ≠ .load → idx.toNat < 2 * s.k.toNat - 1 → ∃ r0 : Word,
      exec (.readNode idx) s =
        .next { s with result0 := r0, result1 := (s.nodeAt idx.toNat).freq, lastErr := .ok, busy := false } ∧
      r0.getLsbD 31 = (s.nodeAt idx.toNat).leaf ∧ r0.extractLsb' 26 5 = 0 ∧
      r0.extractLsb' 18 8 = (s.nodeAt idx.toNat).sym ∧ r0.extractLsb' 9 9 = (s.nodeAt idx.toNat).right ∧
      r0.extractLsb' 0 9 = (s.nodeAt idx.toNat).left)

/-- R100: a symbol of strictly higher frequency never has a strictly longer code. -/
def Obligations.HigherFrequencyNoLongerCode : Prop :=
  ∀ (s : State) (y z : Sym), s.Inv → s.phase = .code → (s.freqOf z).toNat < (s.freqOf y).toNat → s.freqOf z ≠ 0 →
    (s.lutOf y).len.toNat ≤ (s.lutOf z).len.toNat

/-! ### The Code Table Generator -/

/-- GENERATE's completion, its results and its frame (R110; the entries are the next statement). -/
def Obligations.GenerateCompletes : Prop :=
  decodeWord 0x06000000 = .command .generate ∧ RejectsReservedBits 0x06 0 ∧
  ∀ s : State,
    (s.phase = .load → exec .generate s = .next (s.failed .phase)) ∧
    (s.phase ≠ .load → ∃ t, exec .generate s = .next t ∧
      t = { s with lut := t.lut, phase := .code, result0 := t.result0, result1 := t.result1, lastErr := .ok, busy := false } ∧
      (∀ y, (t.lutOf y).len.toNat ≤ t.result0.toNat) ∧ (∃ y, (t.lutOf y).len.toNat = t.result0.toNat) ∧
      t.result1.toNat = s.k.toNat ∧
      (s.k = 0 → ∀ y, t.lutOf y = { valid := false, len := 0, bits := 0 }))

/-- R108 with R104 to R107: after GENERATE a symbol that is no key has no entry, and a key has its code: "0" for a single key, else
the path from the root to its leaf; bits past LEN are 0. -/
def Obligations.GenerateWritesPathCodes : Prop :=
  ∀ s t : State, s.TableInv → s.TreeInv → s.phase ≠ .load → exec .generate s = .next t → ∀ y : Sym,
    (s.freqOf y = 0 → t.lutOf y = { valid := false, len := 0, bits := 0 }) ∧
    (s.freqOf y ≠ 0 → (t.lutOf y).valid = true ∧
      (s.k.toNat = 1 → (t.lutOf y).code = [false]) ∧
      (2 ≤ s.k.toNat → descend s.node (BitVec.ofNat 9 (2 * s.k.toNat - 2)) (t.lutOf y).code = some (s.leafIndex y)) ∧
      ∀ b, (t.lutOf y).len.toNat ≤ b → (t.lutOf y).bits.getLsbD b = false)

/-- R109 (a), (b), (d): every code is non-empty, that of a single key included, and no code begins another symbol's code. -/
def Obligations.CodesArePrefixFree : Prop :=
  ∀ s : State, s.Inv → s.phase = .code →
    (∀ y, (s.lutOf y).valid = true → (s.lutOf y).code ≠ [] ∧ (s.k.toNat = 1 → (s.lutOf y).code = [false])) ∧
    ∀ y z, (s.lutOf y).valid = true → (s.lutOf z).valid = true → y ≠ z → ¬ (s.lutOf y).code <+: (s.lutOf z).code

/-- R109 (c): with two keys or more, 1 <= LEN <= K - 1 and the codes fill the code space: the sum of 2^(-LEN) over the keys is 1. -/
def Obligations.CodesFillTheCodeSpace : Prop :=
  ∀ s : State, s.Inv → s.phase = .code → 2 ≤ s.k.toNat →
    (∀ y ∈ s.keys, 1 ≤ (s.lutOf y).len.toNat ∧ (s.lutOf y).len.toNat ≤ s.k.toNat - 1) ∧
    (s.keys.map fun y => 2 ^ (255 - (s.lutOf y).len.toNat)).sum = 2 ^ 255

/-- R112: GENERATE issued again, after any commands but CLEAR, leaves LUT, RESULT0 and RESULT1 as the first left them. -/
def Obligations.GenerateIsIdempotent : Prop :=
  ∀ (s t u v : State) (between : List (Instr × Word)), s.phase ≠ .load → exec .generate s = .next t →
    (∀ c ∈ between, c.1 ≠ .clear) → performEach between t = some u → exec .generate u = .next v →
    v.lut = t.lut ∧ v.result0 = t.result0 ∧ v.result1 = t.result1 ∧ u.lut = t.lut

/-- R113. -/
def Obligations.ReadCodeReadsOneWord : Prop :=
  (∀ (y : Sym) (w : BitVec 3),
    decodeWord (0x07000000 ||| w.setWidth 32 <<< 8 ||| y.setWidth 32) = .command (.readCode y w)) ∧
  RejectsReservedBits 0x07 11 ∧
  ∀ (s : State) (y : Sym) (w : BitVec 3),
    (s.phase ≠ .code → exec (.readCode y w) s = .next (s.failed .phase)) ∧
    (s.phase = .code → (s.lutOf y).valid = false → exec (.readCode y w) s = .next (s.failed .noCode)) ∧
    (s.phase = .code → (s.lutOf y).valid = true → ∃ r0 r1 : Word,
      exec (.readCode y w) s = .next { s with result0 := r0, result1 := r1, lastErr := .ok, busy := false } ∧
      r0.toNat = (s.lutOf y).len.toNat ∧
      ∀ b < 32, r1.getLsbD b = (if 32 * w.toNat + b < 255 then (s.lutOf y).bits.getLsbD (32 * w.toNat + b) else false))

/-- R22: the encoded length is the sum over the symbols of count times code length. -/
def Obligations.EncodedLengthIsWeightedSum : Prop :=
  ∀ (s : State) (S : List Sym), s.Inv → s.phase = .code → (∀ y, (s.freqOf y).toNat = S.count y) →
    ∃ B, encodeSymbols s.lut S = some B ∧
      B.length = ((List.range 256).map fun v =>
        (s.freqOf (BitVec.ofNat 8 v)).toNat * (s.lutOf (BitVec.ofNat 8 v)).len.toNat).sum

/-! ### The Decoder -/

/-- R119. -/
def Obligations.DecResetReturnsToRoot : Prop :=
  decodeWord 0x08000000 = .command .decReset ∧ RejectsReservedBits 0x08 0 ∧
  ∀ s : State,
    (s.phase = .load → exec .decReset s = .next (s.failed .phase)) ∧
    (s.phase ≠ .load → ∃ c : NodeIdx,
      exec .decReset s = .next { s with decCur := c, decFell := false, lastErr := .ok, busy := false } ∧
      (2 ≤ s.k.toNat → s.k.toNat ≤ 256 → c.toNat = 2 * s.k.toNat - 2) ∧ (s.k.toNat ≤ 1 → c = 0x1FF))

/-- DECODE's errors, completion, result word and frame (R121; the walk itself is the next statements). -/
def Obligations.DecodeCompletes : Prop :=
  (∀ n : BitVec 6, decodeWord (0x09000000 ||| n.setWidth 32) = .command (.decode n)) ∧ RejectsReservedBits 0x09 6 ∧
  ∀ (s : State) (n : BitVec 6),
    (s.phase = .load ∨ s.decFell = true → exec (.decode n) s = .next (s.failed .phase)) ∧
    (s.phase ≠ .load → s.decFell = false → (n = 0 ∨ 32 < n.toNat) → exec (.decode n) s = .next (s.failed .arg)) ∧
    (s.phase ≠ .load → s.decFell = false → 1 ≤ n.toNat → n.toNat ≤ 32 → ∃ t nout used,
      exec (.decode n) s = .next t ∧
      t = { s with outbuf := t.outbuf, decCur := t.decCur, decFell := t.decFell, result0 := t.result0, result1 := 0,
                   lastErr := .ok, busy := false } ∧
      nout ≤ used ∧ 1 ≤ used ∧ used ≤ n.toNat ∧ (t.decFell = false → used = n.toNat) ∧
      (t.result0.extractLsb' 0 6).toNat = nout ∧ (t.result0.extractLsb' 8 6).toNat = used ∧
      t.result0.getLsbD 16 = t.decFell ∧
      t.result0.extractLsb' 6 2 = 0 ∧ t.result0.extractLsb' 14 2 = 0 ∧ t.result0.extractLsb' 17 15 = 0 ∧
      ∀ i < 32, nout ≤ i → t.outAt i = 0)

/-- R116, R117: one bit. With two keys or more the child the bit names is reached: a leaf is emitted and the position is ROOTPOS, an
internal node becomes the position. At the virtual root bit 0 of a one-key tree emits its symbol, and any other bit falls off. -/
def Obligations.DecodeOneBitMoves : Prop :=
  ∀ s : State, s.Inv → s.phase ≠ .load → s.decFell = false → ∃ t, exec (.decode 1) s = .next t ∧ t.lastErr = .ok ∧
    (2 ≤ s.k.toNat →
      let child := if s.argl.getLsbD 0 then (s.nodeAt s.decCur.toNat).right else (s.nodeAt s.decCur.toNat).left
      t.decFell = false ∧
      ((s.nodeAt child.toNat).leaf = true → t.emitted = [(s.nodeAt child.toNat).sym] ∧ t.decCur = s.rootPos) ∧
      ((s.nodeAt child.toNat).leaf = false → t.emitted = [] ∧ t.decCur = child)) ∧
    (s.k.toNat = 1 → s.argl.getLsbD 0 = false →
      t.decFell = false ∧ t.emitted = [(s.nodeAt 0).sym] ∧ t.decCur = 0x1FF) ∧
    (s.k.toNat = 0 ∨ (s.k.toNat = 1 ∧ s.argl.getLsbD 0 = true) →
      t.decFell = true ∧ t.emitted = [] ∧ t.decCur = 0x1FF)

/-- R62: only the first N bits of ARGL count. -/
def Obligations.DecodeIgnoresBitsPastCount : Prop :=
  ∀ (s t : State) (n : BitVec 6) (a : Word), (∀ b < n.toNat, a.getLsbD b = s.argl.getLsbD b) →
    exec (.decode n) s = .next t → exec (.decode n) { s with argl := a } = .next { t with argl := a }

/-- R123: with two keys or more no DECODE falls off, and the position is the root or an internal node. -/
def Obligations.NoFallOffWithTwoKeys : Prop :=
  ∀ (s t : State) (n : BitVec 6), s.Inv → s.phase ≠ .load → 2 ≤ s.k.toNat → exec (.decode n) s = .next t →
    t.decFell = false ∧ (t.lastErr = .ok → t.result0.getLsbD 16 = false) ∧
    s.k.toNat ≤ t.decCur.toNat ∧ t.decCur.toNat < 2 * s.k.toNat - 1

/-- R122: a fall-off sets DEC_FELL and keeps the position; after it, whatever commands but DEC_RESET and CLEAR follow (`between`), the
decoder is still halted where it was, every DECODE reports E_PHASE with no other effect, and DEC_RESET and CLEAR undo the halt. -/
def Obligations.FallOffHaltsTheDecoder : Prop :=
  ∀ (s t : State) (n : BitVec 6), s.Inv → exec (.decode n) s = .next t → t.lastErr = .ok → t.result0.getLsbD 16 = true →
    t.decFell = true ∧ t.decCur = s.decCur ∧
    ∀ (between : List (Instr × Word)) (u : State), (∀ c ∈ between, c.1 ≠ .decReset ∧ c.1 ≠ .clear) →
      performEach between t = some u →
      u.decFell = true ∧ u.decCur = t.decCur ∧ (∀ m, exec (.decode m) u = .next (u.failed .phase)) ∧
      (∃ v, exec .decReset u = .next v ∧ v.lastErr = .ok ∧ v.decFell = false) ∧
      ∃ v, exec .clear u = .next v ∧ v.decFell = false

/-- R120: at the virtual root of a one-key tree each bit 0 emits the symbol and stays, and the first bit 1 falls off, counted as
used. `z` is the number of bits 0 before the first bit 1 of the chunk. -/
def Obligations.SingleSymbolDecoding : Prop :=
  ∀ (s : State) (n : BitVec 6) (z : Nat), s.Inv → s.phase ≠ .load → s.decFell = false → s.k.toNat = 1 →
    1 ≤ n.toNat → n.toNat ≤ 32 → z ≤ n.toNat → (∀ b < z, s.argl.getLsbD b = false) →
    (z = n.toNat ∨ s.argl.getLsbD z = true) →
    ∃ t, exec (.decode n) s = .next t ∧ t.lastErr = .ok ∧ t.emitted = List.replicate z (s.nodeAt 0).sym ∧
      t.decCur = 0x1FF ∧ (t.decFell = true ↔ z < n.toNat) ∧
      (t.result0.extractLsb' 8 6).toNat = (if z < n.toNat then z + 1 else n.toNat)

/-- R126: with no tree the first bit falls off. -/
def Obligations.NoTreeFallsOffAtFirstBit : Prop :=
  ∀ (s : State) (n : BitVec 6), s.Inv → s.phase ≠ .load → s.decFell = false → s.k = 0 → 1 ≤ n.toNat → n.toNat ≤ 32 →
    ∃ t, exec (.decode n) s = .next t ∧ t.lastErr = .ok ∧ t.result0 = 0x00010100 ∧ t.decFell = true ∧ t.emitted = [] ∧
      t.decCur = 0x1FF ∧ ∀ i < 32, t.outAt i = 0

/-- R124: however a stream is split into chunks, the emitted symbols and the final DEC_CUR and DEC_FELL are the same. -/
def Obligations.ChunkingDoesNotChangeTheResult : Prop :=
  ∀ (s : State) (cs ds : List (List Bool)) (r q : List Sym × State), ChunksFit cs → ChunksFit ds →
    cs.flatten = ds.flatten → feed cs s = some r → feed ds s = some q →
    r.1 = q.1 ∧ r.2.decCur = q.2.decCur ∧ r.2.decFell = q.2.decFell

/-- R125: a stream built from codes of the current tree, fed from ROOTPOS in any chunks, emits exactly the symbols it was built from,
never falls off and ends at ROOTPOS. -/
def Obligations.DecoderInvertsTheCodes : Prop :=
  ∀ (s g : State) (S : List Sym) (B : List Bool) (cs : List (List Bool)), s.Inv → s.phase ≠ .load →
    s.decCur = s.rootPos → s.decFell = false → exec .generate s = .next g → encodeSymbols g.lut S = some B →
    ChunksFit cs → cs.flatten = B →
    ∃ t, feed cs s = some (S, t) ∧ t.decCur = s.rootPos ∧ t.decFell = false

/-- R21: the round trip. For every non-empty input, loaded in either way of R13 into an empty table, BUILD, GENERATE and DEC_RESET
succeed, `encode` succeeds, and feeding its result in chunks of 32 gives the input back, with no fall-off and DEC_MID = 0. -/
def Obligations.PipelineRoundTrip : Prop :=
  ∀ (S : List Sym) (s : State) (load : List (Instr × Word)), S ≠ [] → S.length ≤ 2 ^ 32 - 1 →
    s.Inv → s.phase = .load → s.k = 0 → (load = loadPerOccurrence S ∨ load = loadPerSymbol S) →
    ∃ g B t, performAll (load ++ [(.build, 0), (.generate, 0), (.decReset, 0)]) s = some g ∧
      encodeSymbols g.lut S = some B ∧ feed (splitChunks B.length B) g = some (S, t) ∧
      t.decFell = false ∧ t.decMid = false

/-! ### Invariants -/

/-- R46: every step keeps the frequency-table invariants. -/
def Obligations.EveryStepKeepsTheTable : Prop := ∀ s t : State, s.TableInv → step s = .next t → t.TableInv

/-- Every step keeps the whole invariant: table, tree, code table and decoder (R46, R48, R31, R49, R50). -/
def Obligations.EveryStepKeepsTheInvariant : Prop := ∀ s t : State, s.Inv → step s = .next t → t.Inv

/-! ### The end of a run -/

/-- The end of a run (R154, in the terms of log 19): a reset ends it; without one a run that is over has no command in progress; and
the run of one mnemonic ends with its last read of STATUS, not before. -/
def Obligations.RunEndsAtIdleStatusReadOrReset : Prop :=
  (∀ (s : State) (n : Nat), s.inputs.head? = some .reset → s.runOver (n + 1) = true) ∧
  (∀ (s t : State) (n : Nat), (∀ x ∈ s.inputs, x ≠ .reset) → s.runOver n = true →
    Host.Core.run Sys2Proof.core n s = .next t → t.busy = false) ∧
  ∀ (s : State) (i : Instr) (a : Word) (p : Nat) (rest : List Input), s.busy = false →
    s.inputs = expand i a p ++ rest → (∀ x ∈ rest, x.isCmdWrite = false) →
    ∀ n ≤ (expand i a p).length, (s.runOver n = true ↔ n = (expand i a p).length)

end
end

