-- ==== Sys2Proof/Laws/State.lean ====
section
/-! SUPPORT. What each named update of the state does to each field, true by rfl: no later proof unfolds a record update. -/

namespace Sys2Proof.Machine

/-! ### State.withResults: RESULT0 and RESULT1 (R40) -/

@[simp] theorem State.withResults_arg (s : State) (r0 r1 : Word) : (s.withResults r0 r1).arg = s.arg := rfl
@[simp] theorem State.withResults_cmdl (s : State) (r0 r1 : Word) : (s.withResults r0 r1).cmdl = s.cmdl := rfl
@[simp] theorem State.withResults_argl (s : State) (r0 r1 : Word) : (s.withResults r0 r1).argl = s.argl := rfl
@[simp] theorem State.withResults_busy (s : State) (r0 r1 : Word) : (s.withResults r0 r1).busy = s.busy := rfl
@[simp] theorem State.withResults_ovr (s : State) (r0 r1 : Word) : (s.withResults r0 r1).ovr = s.ovr := rfl
@[simp] theorem State.withResults_phase (s : State) (r0 r1 : Word) : (s.withResults r0 r1).phase = s.phase := rfl
@[simp] theorem State.withResults_lastErr (s : State) (r0 r1 : Word) : (s.withResults r0 r1).lastErr = s.lastErr := rfl
@[simp] theorem State.withResults_result0 (s : State) (r0 r1 : Word) : (s.withResults r0 r1).result0 = r0 := rfl
@[simp] theorem State.withResults_result1 (s : State) (r0 r1 : Word) : (s.withResults r0 r1).result1 = r1 := rfl
@[simp] theorem State.withResults_k (s : State) (r0 r1 : Word) : (s.withResults r0 r1).k = s.k := rfl
@[simp] theorem State.withResults_freq (s : State) (r0 r1 : Word) : (s.withResults r0 r1).freq = s.freq := rfl
@[simp] theorem State.withResults_order (s : State) (r0 r1 : Word) : (s.withResults r0 r1).order = s.order := rfl
@[simp] theorem State.withResults_node (s : State) (r0 r1 : Word) : (s.withResults r0 r1).node = s.node := rfl
@[simp] theorem State.withResults_lut (s : State) (r0 r1 : Word) : (s.withResults r0 r1).lut = s.lut := rfl
@[simp] theorem State.withResults_outbuf (s : State) (r0 r1 : Word) : (s.withResults r0 r1).outbuf = s.outbuf := rfl
@[simp] theorem State.withResults_decCur (s : State) (r0 r1 : Word) : (s.withResults r0 r1).decCur = s.decCur := rfl
@[simp] theorem State.withResults_decFell (s : State) (r0 r1 : Word) : (s.withResults r0 r1).decFell = s.decFell := rfl
@[simp] theorem State.withResults_inputs (s : State) (r0 r1 : Word) : (s.withResults r0 r1).inputs = s.inputs := rfl
@[simp] theorem State.withResults_draws (s : State) (r0 r1 : Word) : (s.withResults r0 r1).draws = s.draws := rfl
@[simp] theorem State.withResults_readData (s : State) (r0 r1 : Word) : (s.withResults r0 r1).readData = s.readData := rfl

/-! ### State.issue: the latch (R28) -/

@[simp] theorem State.issue_arg (s : State) (w : Word) : (s.issue w).arg = s.arg := rfl
@[simp] theorem State.issue_cmdl (s : State) (w : Word) : (s.issue w).cmdl = w := rfl
@[simp] theorem State.issue_argl (s : State) (w : Word) : (s.issue w).argl = s.arg := rfl
@[simp] theorem State.issue_busy (s : State) (w : Word) : (s.issue w).busy = true := rfl
@[simp] theorem State.issue_ovr (s : State) (w : Word) : (s.issue w).ovr = s.ovr := rfl
@[simp] theorem State.issue_phase (s : State) (w : Word) : (s.issue w).phase = s.phase := rfl
@[simp] theorem State.issue_lastErr (s : State) (w : Word) : (s.issue w).lastErr = s.lastErr := rfl
@[simp] theorem State.issue_result0 (s : State) (w : Word) : (s.issue w).result0 = s.result0 := rfl
@[simp] theorem State.issue_result1 (s : State) (w : Word) : (s.issue w).result1 = s.result1 := rfl
@[simp] theorem State.issue_k (s : State) (w : Word) : (s.issue w).k = s.k := rfl
@[simp] theorem State.issue_freq (s : State) (w : Word) : (s.issue w).freq = s.freq := rfl
@[simp] theorem State.issue_order (s : State) (w : Word) : (s.issue w).order = s.order := rfl
@[simp] theorem State.issue_node (s : State) (w : Word) : (s.issue w).node = s.node := rfl
@[simp] theorem State.issue_lut (s : State) (w : Word) : (s.issue w).lut = s.lut := rfl
@[simp] theorem State.issue_outbuf (s : State) (w : Word) : (s.issue w).outbuf = s.outbuf := rfl
@[simp] theorem State.issue_decCur (s : State) (w : Word) : (s.issue w).decCur = s.decCur := rfl
@[simp] theorem State.issue_decFell (s : State) (w : Word) : (s.issue w).decFell = s.decFell := rfl
@[simp] theorem State.issue_inputs (s : State) (w : Word) : (s.issue w).inputs = s.inputs := rfl
@[simp] theorem State.issue_draws (s : State) (w : Word) : (s.issue w).draws = s.draws := rfl
@[simp] theorem State.issue_readData (s : State) (w : Word) : (s.issue w).readData = s.readData := rfl

/-! ### State.addCount: one entry of FREQ (R88) -/

@[simp] theorem State.addCount_arg (s : State) (y : Sym) (c : Word) : (s.addCount y c).arg = s.arg := rfl
@[simp] theorem State.addCount_cmdl (s : State) (y : Sym) (c : Word) : (s.addCount y c).cmdl = s.cmdl := rfl
@[simp] theorem State.addCount_argl (s : State) (y : Sym) (c : Word) : (s.addCount y c).argl = s.argl := rfl
@[simp] theorem State.addCount_busy (s : State) (y : Sym) (c : Word) : (s.addCount y c).busy = s.busy := rfl
@[simp] theorem State.addCount_ovr (s : State) (y : Sym) (c : Word) : (s.addCount y c).ovr = s.ovr := rfl
@[simp] theorem State.addCount_phase (s : State) (y : Sym) (c : Word) : (s.addCount y c).phase = s.phase := rfl
@[simp] theorem State.addCount_lastErr (s : State) (y : Sym) (c : Word) : (s.addCount y c).lastErr = s.lastErr := rfl
@[simp] theorem State.addCount_result0 (s : State) (y : Sym) (c : Word) : (s.addCount y c).result0 = s.result0 := rfl
@[simp] theorem State.addCount_result1 (s : State) (y : Sym) (c : Word) : (s.addCount y c).result1 = s.result1 := rfl
@[simp] theorem State.addCount_k (s : State) (y : Sym) (c : Word) : (s.addCount y c).k = s.k := rfl
@[simp] theorem State.addCount_freq (s : State) (y : Sym) (c : Word) : (s.addCount y c).freq = s.freq.set y.toNat (s.freqOf y + c) y.isLt := rfl
@[simp] theorem State.addCount_order (s : State) (y : Sym) (c : Word) : (s.addCount y c).order = s.order := rfl
@[simp] theorem State.addCount_node (s : State) (y : Sym) (c : Word) : (s.addCount y c).node = s.node := rfl
@[simp] theorem State.addCount_lut (s : State) (y : Sym) (c : Word) : (s.addCount y c).lut = s.lut := rfl
@[simp] theorem State.addCount_outbuf (s : State) (y : Sym) (c : Word) : (s.addCount y c).outbuf = s.outbuf := rfl
@[simp] theorem State.addCount_decCur (s : State) (y : Sym) (c : Word) : (s.addCount y c).decCur = s.decCur := rfl
@[simp] theorem State.addCount_decFell (s : State) (y : Sym) (c : Word) : (s.addCount y c).decFell = s.decFell := rfl
@[simp] theorem State.addCount_inputs (s : State) (y : Sym) (c : Word) : (s.addCount y c).inputs = s.inputs := rfl
@[simp] theorem State.addCount_draws (s : State) (y : Sym) (c : Word) : (s.addCount y c).draws = s.draws := rfl
@[simp] theorem State.addCount_readData (s : State) (y : Sym) (c : Word) : (s.addCount y c).readData = s.readData := rfl

/-! ### State.failed: LAST_ERR and BUSY (R128) -/

@[simp] theorem State.failed_arg (s : State) (e : ErrCode) : (s.failed e).arg = s.arg := rfl
@[simp] theorem State.failed_cmdl (s : State) (e : ErrCode) : (s.failed e).cmdl = s.cmdl := rfl
@[simp] theorem State.failed_argl (s : State) (e : ErrCode) : (s.failed e).argl = s.argl := rfl
@[simp] theorem State.failed_busy (s : State) (e : ErrCode) : (s.failed e).busy = false := rfl
@[simp] theorem State.failed_ovr (s : State) (e : ErrCode) : (s.failed e).ovr = s.ovr := rfl
@[simp] theorem State.failed_phase (s : State) (e : ErrCode) : (s.failed e).phase = s.phase := rfl
@[simp] theorem State.failed_lastErr (s : State) (e : ErrCode) : (s.failed e).lastErr = e := rfl
@[simp] theorem State.failed_result0 (s : State) (e : ErrCode) : (s.failed e).result0 = s.result0 := rfl
@[simp] theorem State.failed_result1 (s : State) (e : ErrCode) : (s.failed e).result1 = s.result1 := rfl
@[simp] theorem State.failed_k (s : State) (e : ErrCode) : (s.failed e).k = s.k := rfl
@[simp] theorem State.failed_freq (s : State) (e : ErrCode) : (s.failed e).freq = s.freq := rfl
@[simp] theorem State.failed_order (s : State) (e : ErrCode) : (s.failed e).order = s.order := rfl
@[simp] theorem State.failed_node (s : State) (e : ErrCode) : (s.failed e).node = s.node := rfl
@[simp] theorem State.failed_lut (s : State) (e : ErrCode) : (s.failed e).lut = s.lut := rfl
@[simp] theorem State.failed_outbuf (s : State) (e : ErrCode) : (s.failed e).outbuf = s.outbuf := rfl
@[simp] theorem State.failed_decCur (s : State) (e : ErrCode) : (s.failed e).decCur = s.decCur := rfl
@[simp] theorem State.failed_decFell (s : State) (e : ErrCode) : (s.failed e).decFell = s.decFell := rfl
@[simp] theorem State.failed_inputs (s : State) (e : ErrCode) : (s.failed e).inputs = s.inputs := rfl
@[simp] theorem State.failed_draws (s : State) (e : ErrCode) : (s.failed e).draws = s.draws := rfl
@[simp] theorem State.failed_readData (s : State) (e : ErrCode) : (s.failed e).readData = s.readData := rfl

/-! ### State.facing: one more input (log 1) -/

@[simp] theorem State.facing_arg (s : State) (x : Input) : (s.facing x).arg = s.arg := rfl
@[simp] theorem State.facing_cmdl (s : State) (x : Input) : (s.facing x).cmdl = s.cmdl := rfl
@[simp] theorem State.facing_argl (s : State) (x : Input) : (s.facing x).argl = s.argl := rfl
@[simp] theorem State.facing_busy (s : State) (x : Input) : (s.facing x).busy = s.busy := rfl
@[simp] theorem State.facing_ovr (s : State) (x : Input) : (s.facing x).ovr = s.ovr := rfl
@[simp] theorem State.facing_phase (s : State) (x : Input) : (s.facing x).phase = s.phase := rfl
@[simp] theorem State.facing_lastErr (s : State) (x : Input) : (s.facing x).lastErr = s.lastErr := rfl
@[simp] theorem State.facing_result0 (s : State) (x : Input) : (s.facing x).result0 = s.result0 := rfl
@[simp] theorem State.facing_result1 (s : State) (x : Input) : (s.facing x).result1 = s.result1 := rfl
@[simp] theorem State.facing_k (s : State) (x : Input) : (s.facing x).k = s.k := rfl
@[simp] theorem State.facing_freq (s : State) (x : Input) : (s.facing x).freq = s.freq := rfl
@[simp] theorem State.facing_order (s : State) (x : Input) : (s.facing x).order = s.order := rfl
@[simp] theorem State.facing_node (s : State) (x : Input) : (s.facing x).node = s.node := rfl
@[simp] theorem State.facing_lut (s : State) (x : Input) : (s.facing x).lut = s.lut := rfl
@[simp] theorem State.facing_outbuf (s : State) (x : Input) : (s.facing x).outbuf = s.outbuf := rfl
@[simp] theorem State.facing_decCur (s : State) (x : Input) : (s.facing x).decCur = s.decCur := rfl
@[simp] theorem State.facing_decFell (s : State) (x : Input) : (s.facing x).decFell = s.decFell := rfl
@[simp] theorem State.facing_inputs (s : State) (x : Input) : (s.facing x).inputs = x :: s.inputs := rfl
@[simp] theorem State.facing_draws (s : State) (x : Input) : (s.facing x).draws = s.draws := rfl
@[simp] theorem State.facing_readData (s : State) (x : Input) : (s.facing x).readData = s.readData := rfl

/-! ### State.resetBlock: the reset state (R143) -/

@[simp] theorem State.resetBlock_arg (s : State) : (s.resetBlock).arg = State.reset.arg := rfl
@[simp] theorem State.resetBlock_cmdl (s : State) : (s.resetBlock).cmdl = State.reset.cmdl := rfl
@[simp] theorem State.resetBlock_argl (s : State) : (s.resetBlock).argl = State.reset.argl := rfl
@[simp] theorem State.resetBlock_busy (s : State) : (s.resetBlock).busy = State.reset.busy := rfl
@[simp] theorem State.resetBlock_ovr (s : State) : (s.resetBlock).ovr = State.reset.ovr := rfl
@[simp] theorem State.resetBlock_phase (s : State) : (s.resetBlock).phase = State.reset.phase := rfl
@[simp] theorem State.resetBlock_lastErr (s : State) : (s.resetBlock).lastErr = State.reset.lastErr := rfl
@[simp] theorem State.resetBlock_result0 (s : State) : (s.resetBlock).result0 = State.reset.result0 := rfl
@[simp] theorem State.resetBlock_result1 (s : State) : (s.resetBlock).result1 = State.reset.result1 := rfl
@[simp] theorem State.resetBlock_k (s : State) : (s.resetBlock).k = State.reset.k := rfl
@[simp] theorem State.resetBlock_freq (s : State) : (s.resetBlock).freq = State.reset.freq := rfl
@[simp] theorem State.resetBlock_order (s : State) : (s.resetBlock).order = State.reset.order := rfl
@[simp] theorem State.resetBlock_node (s : State) : (s.resetBlock).node = State.reset.node := rfl
@[simp] theorem State.resetBlock_lut (s : State) : (s.resetBlock).lut = State.reset.lut := rfl
@[simp] theorem State.resetBlock_outbuf (s : State) : (s.resetBlock).outbuf = State.reset.outbuf := rfl
@[simp] theorem State.resetBlock_decCur (s : State) : (s.resetBlock).decCur = State.reset.decCur := rfl
@[simp] theorem State.resetBlock_decFell (s : State) : (s.resetBlock).decFell = State.reset.decFell := rfl
@[simp] theorem State.resetBlock_inputs (s : State) : (s.resetBlock).inputs = s.inputs := rfl
@[simp] theorem State.resetBlock_draws (s : State) : (s.resetBlock).draws = s.draws := rfl
@[simp] theorem State.resetBlock_readData (s : State) : (s.resetBlock).readData = s.readData := rfl

/-! ### State.cleared: the reset state but ARG, before the completion (R84) -/

@[simp] theorem State.cleared_arg (s : State) : (s.cleared).arg = s.arg := rfl
@[simp] theorem State.cleared_cmdl (s : State) : (s.cleared).cmdl = State.reset.cmdl := rfl
@[simp] theorem State.cleared_argl (s : State) : (s.cleared).argl = State.reset.argl := rfl
@[simp] theorem State.cleared_busy (s : State) : (s.cleared).busy = s.busy := rfl
@[simp] theorem State.cleared_ovr (s : State) : (s.cleared).ovr = State.reset.ovr := rfl
@[simp] theorem State.cleared_phase (s : State) : (s.cleared).phase = State.reset.phase := rfl
@[simp] theorem State.cleared_lastErr (s : State) : (s.cleared).lastErr = s.lastErr := rfl
@[simp] theorem State.cleared_result0 (s : State) : (s.cleared).result0 = State.reset.result0 := rfl
@[simp] theorem State.cleared_result1 (s : State) : (s.cleared).result1 = State.reset.result1 := rfl
@[simp] theorem State.cleared_k (s : State) : (s.cleared).k = State.reset.k := rfl
@[simp] theorem State.cleared_freq (s : State) : (s.cleared).freq = State.reset.freq := rfl
@[simp] theorem State.cleared_order (s : State) : (s.cleared).order = State.reset.order := rfl
@[simp] theorem State.cleared_node (s : State) : (s.cleared).node = State.reset.node := rfl
@[simp] theorem State.cleared_lut (s : State) : (s.cleared).lut = State.reset.lut := rfl
@[simp] theorem State.cleared_outbuf (s : State) : (s.cleared).outbuf = State.reset.outbuf := rfl
@[simp] theorem State.cleared_decCur (s : State) : (s.cleared).decCur = State.reset.decCur := rfl
@[simp] theorem State.cleared_decFell (s : State) : (s.cleared).decFell = State.reset.decFell := rfl
@[simp] theorem State.cleared_inputs (s : State) : (s.cleared).inputs = s.inputs := rfl
@[simp] theorem State.cleared_draws (s : State) : (s.cleared).draws = s.draws := rfl
@[simp] theorem State.cleared_readData (s : State) : (s.cleared).readData = s.readData := rfl

end Sys2Proof.Machine
end

