-- ==== Sys2Proof/Laws/Arrays.lean ====
section
/-! SUPPORT. Reading the arrays after writing them: the written entry gives the value written, every other entry is as before. -/

namespace Sys2Proof.Machine

theorem Sym.toNat_lt (y : Sym) : y.toNat < 256 := y.isLt

theorem Sym.ext_toNat {y z : Sym} (h : y.toNat = z.toNat) : y = z := BitVec.eq_of_toNat_eq h

/-! ### NODE -/

theorem nodeIn_of_lt (nodes : Vector Node 511) {i : Nat} (h : i < 511) : nodeIn nodes i = nodes[i] := by
  simp [nodeIn, h]

/-- NIL, and every index past the array, holds no node. -/
theorem nodeIn_of_ge (nodes : Vector Node 511) {i : Nat} (h : 511 ≤ i) : nodeIn nodes i = Node.zero := by
  simp [nodeIn, Nat.not_lt.mpr h]

theorem nodeIn_nodeSet (nodes : Vector Node 511) (i j : Nat) (n : Node) :
    nodeIn (nodeSet nodes i n) j = if i = j ∧ j < 511 then n else nodeIn nodes j := by
  unfold nodeIn nodeSet
  by_cases hj : j < 511
  · by_cases hi : i < 511
    · simp [hi, hj, Vector.getElem_set]
    · have : i ≠ j := by omega
      simp [hi, hj, this]
  · simp [hj]

@[simp] theorem nodeIn_nodeSet_self (nodes : Vector Node 511) {i : Nat} (n : Node) (h : i < 511) :
    nodeIn (nodeSet nodes i n) i = n := by simp [nodeIn_nodeSet, h]

theorem nodeIn_nodeSet_ne (nodes : Vector Node 511) {i j : Nat} (n : Node) (h : i ≠ j) :
    nodeIn (nodeSet nodes i n) j = nodeIn nodes j := by simp [nodeIn_nodeSet, h]

@[simp] theorem nodeIn_replicate_zero (i : Nat) : nodeIn (Vector.replicate 511 Node.zero) i = Node.zero := by
  unfold nodeIn; split <;> simp

/-- Two node arrays that read the same everywhere are the same array. -/
theorem node_ext {a b : Vector Node 511} (h : ∀ i < 511, nodeIn a i = nodeIn b i) : a = b := by
  apply Vector.ext
  intro i hi
  simpa [nodeIn, hi] using h i hi

/-! ### LUT -/

@[simp] theorem lutIn_lutSet (lut : Vector LutEntry 256) (y z : Sym) (e : LutEntry) :
    lutIn (lutSet lut y e) z = if y = z then e else lutIn lut z := by
  unfold lutIn lutSet
  rw [Vector.getElem_set]
  by_cases h : y = z
  · simp [h]
  · simp [h, mt (@Sym.ext_toNat y z) h]

@[simp] theorem lutIn_lutEmpty (y : Sym) : lutIn lutEmpty y = LutEntry.empty := by
  simp [lutIn, lutEmpty]

/-! ### FREQ and ORDER -/

theorem freqOf_addCount (s : State) (y z : Sym) (c : Word) :
    (s.addCount y c).freqOf z = if y = z then s.freqOf y + c else s.freqOf z := by
  unfold State.freqOf State.addCount
  simp only [Vector.getElem_set]
  by_cases h : y = z
  · simp [h, State.freqOf]
  · simp [h, mt (@Sym.ext_toNat y z) h]

@[simp] theorem freqOf_addKey (s : State) (y z : Sym) : (s.addKey y).freqOf z = s.freqOf z := by
  unfold State.addKey; split <;> rfl

theorem freqOf_tableAfterLoad (s : State) (y z : Sym) (c : Word) :
    (s.tableAfterLoad y c).freqOf z = if y = z then s.freqOf y + c else s.freqOf z := by
  simp [State.tableAfterLoad, freqOf_addCount]

theorem orderSet_get (order : Vector Sym 256) (i j : Nat) (y : Sym) (hj : j < 256) :
    (orderSet order i y)[j] = if i = j then y else order[j] := by
  unfold orderSet
  split
  · rw [Vector.getElem_set]
  · have : i ≠ j := by omega
    simp [this]

/-! ### OUTBUF -/

theorem outSet_get (out : Vector Sym 32) (i j : Nat) (y : Sym) (hj : j < 32) :
    (outSet out i y)[j] = if i = j then y else out[j] := by
  unfold outSet
  split
  · rw [Vector.getElem_set]
  · have : i ≠ j := by omega
    simp [this]

end Sys2Proof.Machine
end

