-- ==== Sys2Proof/Laws/CodeTable.lean ====
section
/-! SUPPORT. GENERATE's walk: every entry it leaves is either the one it found or a valid one of a leaf it reached, and on a tree
whose children come before their parents its fuel never runs out. -/

namespace Sys2Proof.Machine

/-- The two cases of one level of the walk (R110). -/
theorem walk_leaf {nodes : Vector Node 511} {n : NodeIdx} (h : (nodeIn nodes n.toNat).leaf = true)
    (fuel len : Nat) (bits : CodeBits) (lut : Vector LutEntry 256) :
    walk nodes (fuel + 1) n len bits lut =
      lutSet lut (nodeIn nodes n.toNat).sym { valid := true, len := BitVec.ofNat 8 len, bits := bits } := by
  simp [walk, h]

theorem walk_internal {nodes : Vector Node 511} {n : NodeIdx} (h : (nodeIn nodes n.toNat).leaf = false)
    (fuel len : Nat) (bits : CodeBits) (lut : Vector LutEntry 256) :
    walk nodes (fuel + 1) n len bits lut =
      walk nodes fuel (nodeIn nodes n.toNat).right (len + 1) (bits ||| (1#255 <<< len))
        (walk nodes fuel (nodeIn nodes n.toNat).left (len + 1) bits lut) := by
  simp [walk, h]

/-- Every entry of the walk's result is the entry before, or a valid one. -/
theorem walk_entry (nodes : Vector Node 511) (fuel : Nat) (n : NodeIdx) (len : Nat) (bits : CodeBits)
    (lut : Vector LutEntry 256) (y : Sym) :
    lutIn (walk nodes fuel n len bits lut) y = lutIn lut y ∨ (lutIn (walk nodes fuel n len bits lut) y).valid = true := by
  induction fuel generalizing n len bits lut with
  | zero => exact .inl rfl
  | succ fuel ih =>
    cases h : (nodeIn nodes n.toNat).leaf with
    | true =>
      rw [walk_leaf h, lutIn_lutSet]
      split
      · exact .inr rfl
      · exact .inl rfl
    | false =>
      rw [walk_internal h]
      rcases ih (nodeIn nodes n.toNat).right (len + 1) (bits ||| (1#255 <<< len))
        (walk nodes fuel (nodeIn nodes n.toNat).left (len + 1) bits lut) with e | e
      · rw [e]; exact ih _ _ _ _
      · exact .inr e

/-- On nodes 0..m whose children have smaller indices than their parents, more fuel than the index changes nothing: the walk from
node n is whole with n + 1 levels. -/
theorem walk_fuel {nodes : Vector Node 511} {m : Nat}
    (hc : ∀ i ≤ m, (nodeIn nodes i).leaf = false →
      (nodeIn nodes i).left.toNat < i ∧ (nodeIn nodes i).right.toNat < i)
    (n : NodeIdx) (hn : n.toNat ≤ m) (len : Nat) (bits : CodeBits) (lut : Vector LutEntry 256)
    {f g : Nat} (hf : n.toNat < f) (hg : n.toNat < g) :
    walk nodes f n len bits lut = walk nodes g n len bits lut := by
  induction f generalizing n len bits lut g with
  | zero => omega
  | succ f ih =>
    cases g with
    | zero => omega
    | succ g =>
      cases h : (nodeIn nodes n.toNat).leaf with
      | true => rw [walk_leaf h, walk_leaf h]
      | false =>
        obtain ⟨hl, hr⟩ := hc _ hn h
        rw [walk_internal h, walk_internal h, ih _ (by omega) _ _ _ (g := g) (by omega) (by omega),
          ih _ (by omega) _ _ _ (g := g) (by omega) (by omega)]

/-- The table GENERATE writes depends on NODE and K alone (R111, R112). -/
theorem generatedLut_congr {s t : State} (hn : t.node = s.node) (hk : t.k = s.k) : t.generatedLut = s.generatedLut := by
  simp only [State.generatedLut, State.nodeAt, State.nnode, hn, hk]

end Sys2Proof.Machine
end

