-- ==== Sys2Proof/Laws/Decoder.lean ====
section
/-! SUPPORT. DECODE's walk: it stops at the first absent node and only there, it splits at any bit, and its counters are bounded. -/

namespace Sys2Proof.Machine

/-- One bit (R116, R117): absent, a leaf, or an internal node. -/
theorem walkBits_cons (s : State) (b : Bool) (bs : List Bool) (a : Walk) :
    (s.move a.cur b = none ∧ s.walkBits (b :: bs) a = { a with used := a.used + 1, fell := true }) ∨
    (∃ n, s.move a.cur b = some n ∧ (s.nodeAt n.toNat).leaf = true ∧
      s.walkBits (b :: bs) a = s.walkBits bs (s.emitSymbol a (s.nodeAt n.toNat).sym)) ∨
    (∃ n, s.move a.cur b = some n ∧ (s.nodeAt n.toNat).leaf = false ∧
      s.walkBits (b :: bs) a = s.walkBits bs { a with cur := n, used := a.used + 1 }) := by
  simp only [State.walkBits]
  cases h : s.move a.cur b with
  | none => exact .inl ⟨rfl, rfl⟩
  | some n =>
    cases hl : (s.nodeAt n.toNat).leaf with
    | true => exact .inr (.inl ⟨n, rfl, hl, by simp [hl]⟩)
    | false => exact .inr (.inr ⟨n, rfl, hl, by simp [hl]⟩)

/-- The walk over two pieces is the walk over the second from where the first ended, unless the first fell off (R118, R124). -/
theorem walkBits_append (s : State) (xs ys : List Bool) (a : Walk) (h : a.fell = false) :
    s.walkBits (xs ++ ys) a = if (s.walkBits xs a).fell then s.walkBits xs a else s.walkBits ys (s.walkBits xs a) := by
  induction xs generalizing a with
  | nil => simp [State.walkBits, h]
  | cons b bs ih =>
    simp only [List.cons_append]
    rcases walkBits_cons s b (bs ++ ys) a with ⟨hm, e⟩ | ⟨n, hm, hl, e⟩ | ⟨n, hm, hl, e⟩
    · rw [e]; simp [State.walkBits, hm]
    · rw [e, ih _ (by exact h)]; simp [State.walkBits, hm, hl]
    · rw [e, ih _ (by exact h)]; simp [State.walkBits, hm, hl]

/-- At most one symbol a bit, and every bit used unless the walk falls off (R121). -/
theorem walkBits_bounds (s : State) (bs : List Bool) (a : Walk) :
    a.used ≤ (s.walkBits bs a).used ∧ (s.walkBits bs a).used ≤ a.used + bs.length ∧
    a.nout ≤ (s.walkBits bs a).nout ∧
    (s.walkBits bs a).nout + a.used ≤ (s.walkBits bs a).used + a.nout ∧
    ((s.walkBits bs a).fell = false → (s.walkBits bs a).used = a.used + bs.length) ∧
    (bs ≠ [] → a.used + 1 ≤ (s.walkBits bs a).used) := by
  induction bs generalizing a with
  | nil => simp [State.walkBits]; omega
  | cons b bs ih =>
    rcases walkBits_cons s b bs a with ⟨_, e⟩ | ⟨n, _, _, e⟩ | ⟨n, _, _, e⟩
    · rw [e]; simp; omega
    · rw [e]
      obtain ⟨h1, h2, h3, h4, h5, _⟩ := ih (s.emitSymbol a (s.nodeAt n.toNat).sym)
      simp only [List.length_cons, State.emitSymbol] at *
      exact ⟨by omega, by omega, by omega, by omega, fun hf => by have := h5 hf; omega, fun _ => by omega⟩
    · rw [e]
      obtain ⟨h1, h2, h3, h4, h5, _⟩ := ih { a with cur := n, used := a.used + 1 }
      simp only [List.length_cons] at *
      exact ⟨by omega, by omega, by omega, by omega, fun hf => by have := h5 hf; omega, fun _ => by omega⟩

@[simp] theorem chunkBits_length (n : Nat) (c : Word) : (chunkBits n c).length = n := by simp [chunkBits]

end Sys2Proof.Machine
end

