-- ==== Sys2Proof/Laws/Invariant.lean ====
section
/-! SUPPORT. Each part of the invariant depends only on the fields it names: an update of any other field keeps it. -/

namespace Sys2Proof.Machine

/-- R46 is about K, ORDER and FREQ. -/
theorem tableInv_congr {s t : State} (hk : t.k = s.k) (ho : t.order = s.order) (hf : t.freq = s.freq) (h : s.TableInv) :
    t.TableInv := by
  simpa only [State.TableInv, State.keys, State.freqOf, State.totalCount, State.orderAt, hk, ho, hf] using h

/-- R48 is about K, ORDER, FREQ and NODE. -/
theorem treeShape_congr {s t : State} (hk : t.k = s.k) (ho : t.order = s.order) (hf : t.freq = s.freq) (hn : t.node = s.node)
    (h : s.TreeShape) : t.TreeShape := by
  simpa only [State.TreeShape, State.children, State.internals, State.nnode, State.leafNode, State.nodeAt, State.freqOf,
    State.totalCount, State.orderAt, hk, ho, hf, hn] using h

/-- R95 is about K and NODE. -/
theorem mergesLeast_congr {s t : State} (hk : t.k = s.k) (hn : t.node = s.node) {i : Nat} (h : s.MergesLeast i) :
    t.MergesLeast i := by
  simpa only [State.MergesLeast, State.candidates, State.keyBefore, State.nodeAt, hk, hn] using h

/-- In TREE and CODE the tree's invariant is about K, ORDER, FREQ and NODE. -/
theorem treeInv_congr {s t : State} (hk : t.k = s.k) (ho : t.order = s.order) (hf : t.freq = s.freq) (hn : t.node = s.node)
    (hs : s.phase ≠ .load) (ht : t.phase ≠ .load) (h : s.TreeInv) : t.TreeInv := by
  refine ⟨fun e => absurd e ht, fun _ => ?_⟩
  obtain ⟨shape, merges⟩ := h.2 hs
  refine ⟨treeShape_congr hk ho hf hn shape, fun i hi => mergesLeast_congr hk hn (merges i ?_)⟩
  simpa only [State.internals, State.nnode, hk] using hi

/-- The invariant is not about the registers ARG, CMDL, ARGL, BUSY, OVR, LAST_ERR, RESULT0, RESULT1, OUTBUF, nor the model's own
fields. -/
theorem inv_congr {s t : State} (hk : t.k = s.k) (ho : t.order = s.order) (hf : t.freq = s.freq) (hn : t.node = s.node)
    (hl : t.lut = s.lut) (hp : t.phase = s.phase) (hc : t.decCur = s.decCur) (hd : t.decFell = s.decFell) (h : s.Inv) :
    t.Inv := by
  obtain ⟨table, tree, code, dec⟩ := h
  refine ⟨tableInv_congr hk ho hf table, ?_, ?_, ?_⟩
  · by_cases e : s.phase = .load
    · refine ⟨fun _ i hi => ?_, fun ht => absurd (hp.trans e) ht⟩
      have := tree.1 e i hi
      simpa only [State.nodeAt, hn] using this
    · exact treeInv_congr hk ho hf hn e (hp ▸ e) tree
  · simpa only [State.CodeInv, hp, hl, generatedLut_congr hn hk] using code
  · simpa only [State.DecoderInv, State.rootPos, State.nnode, hp, hc, hd, hk] using dec

end Sys2Proof.Machine
end

