-- ==== Sys2Proof/Laws/Ops.lean ====
section
/-! SUPPORT. One lemma for each shared operation that ends, issues or runs a command, or serves a host access: everything it can
do. -/

namespace Sys2Proof.Machine

/-- An error is precise (R128). -/
theorem raise_eq (s : State) (e : ErrCode) : s.raise e = .next (s.failed e) := rfl

theorem raise_next {s t : State} {e : ErrCode} (h : s.raise e = .next t) : t = s.failed e := by
  rw [raise_eq] at h; exact (Host.Outcome.next.inj h).symm

/-- A completion writes LAST_ERR and BUSY only (R81). -/
theorem complete_eq (s : State) : s.complete = .next { s with lastErr := .ok, busy := false } := rfl

theorem complete_next {s t : State} (h : s.complete = .next t) : t = { s with lastErr := .ok, busy := false } := by
  rw [complete_eq] at h; exact (Host.Outcome.next.inj h).symm

/-- What a host access can do: fault outside the window, be refused, or have its effect on the register at its offset. -/
theorem hostAccess_cases (addr bits : Nat) (act : Reg → State) :
    (addressInWindow addr = false ∧ hostAccess addr bits act = .fault .outsideWindow) ∨
    (addressInWindow addr = true ∧ accessSupported (addr - Config.base) bits = false ∧
      hostAccess addr bits act = .refused .unsupportedAccess) ∨
    (addressInWindow addr = true ∧ accessSupported (addr - Config.base) bits = true ∧
      hostAccess addr bits act = .next (act (registerAt (addr - Config.base)))) := by
  unfold hostAccess
  cases addressInWindow addr <;> cases accessSupported (addr - Config.base) bits <;> simp

/-- An access at BASE + off, off a multiple of 4 below 256, 32 bits wide, reaches the register at off. -/
theorem hostAccess_base {off : Nat} (act : Reg → State) (h : off < 256) (h4 : off % 4 = 0) :
    hostAccess (Config.base + off) 32 act = .next (act (registerAt off)) := by
  have hw : addressInWindow (Config.base + off) = true := by simp [addressInWindow]; omega
  have hs : accessSupported off 32 = true := by simp [accessSupported, h4]
  simp [hostAccess, hw, hs]

/-- The offset of a register leads back to it. -/
theorem registerAt_offset (r : Reg) : registerAt r.offset = r := by
  cases r with
  | out j => revert j; decide
  | reserved j => revert j; decide
  | _ => rfl

theorem offset_lt (r : Reg) : r.offset < 256 := by
  cases r with
  | out j => have := j.isLt; simp [Reg.offset]; omega
  | reserved j => have := j.isLt; simp [Reg.offset]; omega
  | _ => simp [Reg.offset]

theorem offset_mod_four (r : Reg) : r.offset % 4 = 0 := by
  cases r <;> simp [Reg.offset]

/-- An access at a register's own address reaches it. -/
theorem hostAccess_register (r : Reg) (act : Reg → State) :
    hostAccess (Config.base + r.offset) 32 act = .next (act r) := by
  rw [hostAccess_base act (offset_lt r) (offset_mod_four r), registerAt_offset]

/-! ### The step, by its next input -/

theorem step_idle {s : State} (h : s.inputs = []) : step s = s.blockTurn := by
  unfold step; rw [h]

@[simp] theorem step_blockTurn (s : State) : step (s.facing .blockTurn) = s.blockTurn := rfl

@[simp] theorem step_reset (s : State) : step (s.facing .reset) = .next s.resetBlock := rfl

@[simp] theorem step_read (s : State) (addr bits : Nat) :
    step (s.facing (.read addr bits)) = hostAccess addr bits s.hostRead := rfl

@[simp] theorem step_write (s : State) (addr bits : Nat) (v : Word) :
    step (s.facing (.write addr bits v)) = hostAccess addr bits fun r => s.hostWrite r v := rfl

@[simp] theorem step_rd (s : State) (r : Reg) : step (s.facing (rd r)) = .next (s.hostRead r) := by
  simp [rd, hostAccess_register]

@[simp] theorem step_wr (s : State) (r : Reg) (v : Word) : step (s.facing (wr r v)) = .next (s.hostWrite r v) := by
  simp [wr, hostAccess_register]

/-- The block's turn with a command in progress: the command, or E_ILLEGAL. -/
theorem blockTurn_busy {s : State} (h : s.busy = true) : s.blockTurn = s.runLatched := by
  simp [State.blockTurn, h]

theorem blockTurn_idle {s : State} (h : s.busy = false) : s.blockTurn = .next s := by
  simp [State.blockTurn, h]

/-- Everything one step that answers a next state can have done, seen from the state `u` that is `s` with its next input
consumed. -/
theorem step_next_cases {s t : State} (h : step s = .next t) :
    ∃ rest, (s.inputs = rest ∨ ∃ x, s.inputs = x :: rest) ∧
      let u := { s with inputs := rest }
      (u.busy = false ∧ t = u) ∨
      (u.busy = true ∧ ∃ i, decodeWord u.cmdl = .command i ∧ exec i u = .next t) ∨
      (u.busy = true ∧ (∃ why, decodeWord u.cmdl = .illegal why) ∧ t = u.failed .illegal) ∨
      t = u.resetBlock ∨ (∃ r, t = u.hostRead r) ∨ ∃ r v, t = u.hostWrite r v := by
  have turn : ∀ u : State, u.blockTurn = .next t →
      (u.busy = false ∧ t = u) ∨
      (u.busy = true ∧ ∃ i, decodeWord u.cmdl = .command i ∧ exec i u = .next t) ∨
      (u.busy = true ∧ (∃ why, decodeWord u.cmdl = .illegal why) ∧ t = u.failed .illegal) := by
    intro u hu
    cases hb : u.busy with
    | false => rw [blockTurn_idle hb] at hu; exact .inl ⟨rfl, (Host.Outcome.next.inj hu).symm⟩
    | true =>
      rw [blockTurn_busy hb, State.runLatched] at hu
      cases hd : decodeWord u.cmdl with
      | command i => rw [hd] at hu; exact .inr (.inl ⟨rfl, i, rfl, hu⟩)
      | illegal why => rw [hd] at hu; exact .inr (.inr ⟨rfl, ⟨why, rfl⟩, raise_next hu⟩)
  have acc : ∀ addr bits (act : Reg → State), hostAccess addr bits act = .next t → ∃ r, t = act r := by
    intro addr bits act ha
    rcases hostAccess_cases addr bits act with ⟨_, e⟩ | ⟨_, _, e⟩ | ⟨_, _, e⟩
    · rw [e] at ha; cases ha
    · rw [e] at ha; cases ha
    · rw [e] at ha; exact ⟨_, (Host.Outcome.next.inj ha).symm⟩
  unfold step at h
  split at h
  · next e =>
    refine ⟨[], .inl e, ?_⟩
    have hu : { s with inputs := [] } = s := by rw [← e]
    simp only [hu]
    rcases turn s h with c | c | c
    · exact .inl c
    · exact .inr (.inl c)
    · exact .inr (.inr (.inl c))
  · next rest e =>
    refine ⟨rest, .inr ⟨_, e⟩, ?_⟩
    rcases turn _ h with c | c | c
    · exact .inl c
    · exact .inr (.inl c)
    · exact .inr (.inr (.inl c))
  · next rest e => exact ⟨rest, .inr ⟨_, e⟩, .inr (.inr (.inr (.inl (Host.Outcome.next.inj h).symm)))⟩
  · next addr bits rest e =>
    obtain ⟨r, hr⟩ := acc _ _ _ h
    exact ⟨rest, .inr ⟨_, e⟩, .inr (.inr (.inr (.inr (.inl ⟨r, hr⟩))))⟩
  · next addr bits v rest e =>
    obtain ⟨r, hr⟩ := acc _ _ _ h
    exact ⟨rest, .inr ⟨_, e⟩, .inr (.inr (.inr (.inr (.inr ⟨r, v, hr⟩))))⟩

/-! ### Commands: error or effect -/

/-- What one command that answers a next state has done: an error, precisely, or its effect (R80, R81, R128). -/
theorem exec_next_cases {i : Instr} {s t : State} (h : exec i s = .next t) :
    (∃ e, e ≠ .ok ∧ t = s.failed e) ∨
    ∃ u, t = { u with lastErr := .ok, busy := false } ∧
      match i with
      | .nop => u = s
      | .clear => u = s.cleared
      | .loadFreq y => s.phase = .load ∧ s.argl ≠ 0 ∧ s.totalCount + s.argl.toNat ≤ Config.freqMax ∧
          u = (s.tableAfterLoad y s.argl).withResults ((s.tableAfterLoad y s.argl).freqOf y)
            (((s.tableAfterLoad y s.argl).leafIndex y).setWidth 32)
      | .readFreq y => u = s.withResults (s.freqOf y) ((s.leafIndex y).setWidth 32)
      | .build => s.phase = .load ∧
          u = { s with node := s.builtNodes, lut := lutEmpty, phase := .tree, decCur := s.rootPos, decFell := false,
                       result0 := BitVec.ofNat 32 s.nnode, result1 := s.rootIndex.setWidth 32 }
      | .readNode idx => s.phase ≠ .load ∧ idx.toNat < s.nnode ∧
          u = s.withResults (packNode (s.nodeAt idx.toNat)) (s.nodeAt idx.toNat).freq
      | .generate => s.phase ≠ .load ∧
          u = { s with lut := s.generatedLut, phase := .code, result0 := BitVec.ofNat 32 (maxLen s.generatedLut),
                       result1 := s.k.setWidth 32 }
      | .readCode y w => s.phase = .code ∧ (s.lutOf y).valid = true ∧
          u = s.withResults ((s.lutOf y).len.setWidth 32) (codeWord (s.lutOf y).bits w)
      | .decReset => s.phase ≠ .load ∧ u = { s with decCur := s.rootPos, decFell := false }
      | .decode n => s.phase ≠ .load ∧ s.decFell = false ∧ n ≠ 0 ∧ n.toNat ≤ 32 ∧
          let a := s.walkBits (chunkBits n.toNat s.argl) s.walkStart
          u = { s with outbuf := a.out, decCur := a.cur, decFell := a.fell, result0 := packDecode a.fell a.used a.nout,
                       result1 := 0 } := by
  have err : ∀ {e : ErrCode}, e ≠ .ok → s.raise e = .next t → ∃ e, e ≠ .ok ∧ t = s.failed e :=
    fun he hr => ⟨_, he, raise_next hr⟩
  cases i with
  | nop => exact .inr ⟨s, complete_next h, rfl⟩
  | clear => exact .inr ⟨_, complete_next h, rfl⟩
  | readFreq y => exact .inr ⟨_, complete_next h, rfl⟩
  | loadFreq y =>
    simp only [exec, execLoadFreq] at h
    split at h
    · exact .inl (err (by decide) h)
    · split at h
      · exact .inl (err (by decide) h)
      · split at h
        · exact .inl (err (by decide) h)
        · exact .inr ⟨_, complete_next h, by simp_all⟩
  | build =>
    simp only [exec, execBuild] at h
    split at h
    · exact .inl (err (by decide) h)
    · next hp => exact .inr ⟨_, complete_next h, Classical.not_not.mp hp, rfl⟩
  | readNode idx =>
    simp only [exec, execReadNode] at h
    split at h
    · exact .inl (err (by decide) h)
    · split at h
      · exact .inl (err (by decide) h)
      · exact .inr ⟨_, complete_next h, ‹_›, by omega, rfl⟩
  | generate =>
    simp only [exec, execGenerate] at h
    split at h
    · exact .inl (err (by decide) h)
    · exact .inr ⟨_, complete_next h, ‹_›, rfl⟩
  | readCode y w =>
    simp only [exec, execReadCode] at h
    split at h
    · exact .inl (err (by decide) h)
    · next hp =>
      split at h
      · exact .inl (err (by decide) h)
      · next hv => exact .inr ⟨_, complete_next h, Classical.not_not.mp hp, by simpa using hv, rfl⟩
  | decReset =>
    simp only [exec, execDecReset] at h
    split at h
    · exact .inl (err (by decide) h)
    · exact .inr ⟨_, complete_next h, ‹_›, rfl⟩
  | decode n =>
    simp only [exec, execDecode] at h
    split at h
    · exact .inl (err (by decide) h)
    · next hp =>
      split at h
      · exact .inl (err (by decide) h)
      · next hn =>
        simp only [not_or] at hp hn
        exact .inr ⟨_, complete_next h, hp.1, by simpa using hp.2, hn.1, by omega, rfl⟩

/-! ### The end of a run (R154, log 19) -/

theorem offset_inj {r q : Reg} (h : r.offset = q.offset) : r = q := by
  rw [← registerAt_offset r, h, registerAt_offset]

@[simp] theorem isCmdWrite_wr (r : Reg) (v : Word) : (wr r v).isCmdWrite = decide (r = .cmd) := by
  by_cases h : r = .cmd
  · simp [wr, Input.isCmdWrite, h]
  · simp [wr, Input.isCmdWrite, h, mt (@offset_inj r .cmd) h]

@[simp] theorem isCmdWrite_rd (r : Reg) : (rd r).isCmdWrite = false := rfl

@[simp] theorem isStatusRead_rd (r : Reg) : (rd r).isStatusRead = decide (r = .status) := by
  by_cases h : r = .status
  · simp [rd, Input.isStatusRead, h]
  · simp [rd, Input.isStatusRead, h, mt (@offset_inj r .status) h]

@[simp] theorem isStatusRead_wr (r : Reg) (v : Word) : (wr r v).isStatusRead = false := rfl

theorem endsRun_iff (s : State) :
    s.endsRun = true ↔ ∃ x rest, s.inputs = x :: rest ∧
      (x = .reset ∨ (x.isStatusRead = true ∧ s.busy = false ∧ ∀ y ∈ rest, y.isCmdWrite = false)) := by
  unfold State.endsRun
  split <;> simp_all [and_assoc]

@[simp] theorem runOver_zero (s : State) : s.runOver 0 = false := rfl

theorem runOver_succ {s t : State} (h : step s = .next t) (n : Nat) : s.runOver (n + 1) = (s.endsRun || t.runOver n) := by
  simp only [State.runOver, h]

end Sys2Proof.Machine
end

