-- ==== Sys2Proof/Laws/PerInstr.lean ====
section
/-! SUPPORT. Statements made per instruction, with one lemma for each constructor. -/

/-! ### EncodesWellFormed: the word of a command has a listed opcode and its reserved bits 0 (R71, R72). -/

def Sys2Proof.Laws.EncodesWellFormed.Statement (i : Sys2Proof.Instr) : Prop :=
  Sys2Proof.commandWordWellFormed (Sys2Proof.encode i) = true

theorem Sys2Proof.Laws.EncodesWellFormed.nop : Sys2Proof.Laws.EncodesWellFormed.Statement .nop := rfl

theorem Sys2Proof.Laws.EncodesWellFormed.clear : Sys2Proof.Laws.EncodesWellFormed.Statement .clear := rfl

theorem Sys2Proof.Laws.EncodesWellFormed.loadFreq (y : Sys2Proof.Sym) :
    Sys2Proof.Laws.EncodesWellFormed.Statement (.loadFreq y) := by
  unfold Statement; revert y; decide +kernel

theorem Sys2Proof.Laws.EncodesWellFormed.readFreq (y : Sys2Proof.Sym) :
    Sys2Proof.Laws.EncodesWellFormed.Statement (.readFreq y) := by
  unfold Statement; revert y; decide +kernel

theorem Sys2Proof.Laws.EncodesWellFormed.build : Sys2Proof.Laws.EncodesWellFormed.Statement .build := rfl

theorem Sys2Proof.Laws.EncodesWellFormed.readNode (idx : Sys2Proof.NodeIdx) :
    Sys2Proof.Laws.EncodesWellFormed.Statement (.readNode idx) := by
  unfold Statement; revert idx; decide +kernel

theorem Sys2Proof.Laws.EncodesWellFormed.generate : Sys2Proof.Laws.EncodesWellFormed.Statement .generate := rfl

theorem Sys2Proof.Laws.EncodesWellFormed.readCode (y : Sys2Proof.Sym) (w : BitVec 3) :
    Sys2Proof.Laws.EncodesWellFormed.Statement (.readCode y w) := by
  unfold Statement; revert y w; decide +kernel

theorem Sys2Proof.Laws.EncodesWellFormed.decReset : Sys2Proof.Laws.EncodesWellFormed.Statement .decReset := rfl

theorem Sys2Proof.Laws.EncodesWellFormed.decode (n : BitVec 6) :
    Sys2Proof.Laws.EncodesWellFormed.Statement (.decode n) := by
  unfold Statement; revert n; decide +kernel
end

