-- ==== Sys2Proof/Laws/Table.lean ====
section
/-! SUPPORT. The frequency table: what one LOAD_FREQ does to the keys and the total, that it keeps the invariants of R46, and
that LIDX is the index of its key. -/

namespace Sys2Proof.Machine

/-! ### The total (R42) -/

theorem freqOf_eq_getElem (s : State) (y : Sym) : s.freqOf y = s.freq.toList[y.toNat]'(by simp; exact y.isLt) := by
  simp [State.freqOf]

/-- One entry changed changes the sum by the difference. -/
theorem sum_map_set (l : List Word) (i : Nat) (h : i < l.length) (v : Word) :
    ((l.set i v).map BitVec.toNat).sum + l[i].toNat = (l.map BitVec.toNat).sum + v.toNat := by
  induction l generalizing i with
  | nil => simp at h
  | cons a l ih =>
    cases i with
    | zero => simp; omega
    | succ i => have := ih i (by simpa using h); simp at *; omega

theorem totalCount_addCount (s : State) (y : Sym) (c : Word) :
    (s.addCount y c).totalCount + (s.freqOf y).toNat = s.totalCount + (s.freqOf y + c).toNat := by
  have := sum_map_set s.freq.toList y.toNat (by simp; exact y.isLt) (s.freqOf y + c)
  rw [← freqOf_eq_getElem] at this
  simp only [State.totalCount, State.addCount, Vector.toList_set]
  exact this

/-- No count exceeds the total. -/
theorem freqOf_le_totalCount (s : State) (y : Sym) : (s.freqOf y).toNat ≤ s.totalCount := by
  have : (s.freqOf y).toNat ∈ s.freq.toList.map BitVec.toNat := by
    rw [freqOf_eq_getElem]
    exact List.mem_map_of_mem (List.getElem_mem _)
  exact List.le_sum_of_mem this

@[simp] theorem totalCount_addKey (s : State) (y : Sym) : (s.addKey y).totalCount = s.totalCount := by
  unfold State.addKey; split <;> rfl

/-- While the total fits, a count never wraps (R88, R99). -/
theorem toNat_freqOf_add (s : State) (y : Sym) (c : Word) (h : s.totalCount + c.toNat ≤ Config.freqMax) :
    (s.freqOf y + c).toNat = (s.freqOf y).toNat + c.toNat := by
  have := freqOf_le_totalCount s y
  rw [BitVec.toNat_add, Nat.mod_eq_of_lt]
  simp only [Config.freqMax] at h
  omega

/-- TOTAL grows by the count (R88, R42). -/
theorem totalCount_tableAfterLoad (s : State) (y : Sym) (c : Word) (h : s.totalCount + c.toNat ≤ Config.freqMax) :
    (s.tableAfterLoad y c).totalCount = s.totalCount + c.toNat := by
  have h1 := totalCount_addCount (s.addKey y) y c
  have h2 := toNat_freqOf_add s y c h
  simp only [freqOf_addKey, totalCount_addKey] at h1
  simp only [State.tableAfterLoad]
  omega

/-! ### The keys (R45) -/

theorem keys_length (s : State) (h : s.k.toNat ≤ 256) : s.keys.length = s.k.toNat := by
  simp [State.keys, h]

theorem keys_getElem (s : State) {i : Nat} (h : i < s.keys.length) : s.keys[i] = s.orderAt i := by
  have h' : i < 256 := by simp [State.keys] at h; omega
  simp [State.keys, State.orderAt, h']

/-- With pairwise distinct keys and a symbol that is none of them there is room for one more (R88 (d)). -/
theorem k_lt_of_not_mem {s : State} (hk : s.k.toNat ≤ 256) (hn : s.keys.Nodup) {y : Sym} (hy : y ∉ s.keys) :
    s.k.toNat < 256 := by
  have h : (y :: s.keys).Nodup := List.nodup_cons.mpr ⟨hy, hn⟩
  have := h.length_le_card
  have card : Fintype.card Sym = 256 := by rw [Fintype.card_congr BitVec.equivFin.toEquiv, Fintype.card_fin]; norm_num
  rw [card, List.length_cons, keys_length s hk] at this
  omega

/-- The first load of a symbol appends it to the keys (R88). -/
theorem keys_addKey {s : State} {y : Sym} (h : s.freqOf y = 0) (hk : s.k.toNat < 256) :
    (s.addKey y).keys = s.keys ++ [y] := by
  have hk' : (s.k + 1).toNat = s.k.toNat + 1 := by
    rw [BitVec.toNat_add, Nat.mod_eq_of_lt] <;> simp; omega
  have e : s.addKey y = { s with order := s.order.set s.k.toNat y hk, k := s.k + 1 } := by
    simp only [State.addKey, if_pos h, orderSet, dif_pos hk]
  rw [e]
  simp only [State.keys, hk', Vector.toList_set]
  rw [List.take_add_one, List.take_set_of_le (Nat.le_refl _)]
  simp [hk]

/-- A load of a symbol already present moves no key (R88 (a)). -/
theorem addKey_present {s : State} {y : Sym} (h : s.freqOf y ≠ 0) : s.addKey y = s := if_neg h

@[simp] theorem keys_addCount (s : State) (y : Sym) (c : Word) : (s.addCount y c).keys = s.keys := rfl

/-- LIDX of a key is its index in ORDER (R87). -/
theorem leafIndex_spec {s : State} (hk : s.k.toNat ≤ 256) {y : Sym} (hf : s.freqOf y ≠ 0) (hy : y ∈ s.keys) :
    (s.leafIndex y).toNat < s.k.toNat ∧ s.orderAt (s.leafIndex y).toNat = y := by
  have hlt : s.keys.idxOf y < s.keys.length := List.idxOf_lt_length_of_mem hy
  have hlen := keys_length s hk
  have hnat : (s.leafIndex y).toNat = s.keys.idxOf y := by
    simp only [State.leafIndex, hf, if_false, BitVec.toNat_ofNat]
    exact Nat.mod_eq_of_lt (by omega)
  rw [hnat]
  exact ⟨by omega, by rw [← keys_getElem s hlt]; exact List.getElem_idxOf hlt⟩

/-- LIDX of a symbol that is no key is NIL (R87). -/
theorem leafIndex_absent {s : State} {y : Sym} (h : s.freqOf y = 0) : s.leafIndex y = Config.nil := by
  simp [State.leafIndex, h]

@[simp] theorem freqOf_reset (y : Sym) : State.reset.freqOf y = 0 := by
  simp [State.freqOf, State.reset]

@[simp] theorem keys_reset : State.reset.keys = [] := by
  simp [State.keys, State.reset]

@[simp] theorem totalCount_reset : State.reset.totalCount = 0 := by
  decide +kernel

/-- The empty table meets R46. -/
theorem tableInv_reset : State.reset.TableInv := by
  refine ⟨by decide, by simp, fun y => by simp, by simp, fun i hi _ => ?_⟩
  simp [State.orderAt, hi, State.reset]

/-- Every operation on the table keeps R46: one LOAD_FREQ that raises no error. -/
theorem tableInv_tableAfterLoad {s : State} {y : Sym} {c : Word} (hs : s.TableInv) (hc : c ≠ 0)
    (ht : s.totalCount + c.toNat ≤ Config.freqMax) : (s.tableAfterLoad y c).TableInv := by
  obtain ⟨hk, hn, hf, _, hz⟩ := hs
  have hc0 : c.toNat ≠ 0 := fun e => hc (BitVec.eq_of_toNat_eq (by simpa using e))
  have hpos : s.freqOf y + c ≠ 0 := by
    intro e
    have := toNat_freqOf_add s y c ht
    rw [e] at this; simp at this; omega
  have htot := totalCount_tableAfterLoad s y c ht
  by_cases h0 : s.freqOf y = 0
  · have hy : y ∉ s.keys := fun hm => (hf y).mpr hm h0
    have hlt := k_lt_of_not_mem hk hn hy
    have hk' : (s.tableAfterLoad y c).k.toNat = s.k.toNat + 1 := by
      simp only [State.tableAfterLoad, State.addCount, State.addKey, h0, if_true]
      rw [BitVec.toNat_add, Nat.mod_eq_of_lt] <;> simp; omega
    have hkeys : (s.tableAfterLoad y c).keys = s.keys ++ [y] := by
      rw [State.tableAfterLoad, keys_addCount, keys_addKey h0 hlt]
    refine ⟨by omega, ?_, fun z => ?_, by omega, fun i hi hik => ?_⟩
    · rw [hkeys]
      exact List.nodup_append.mpr ⟨hn, by simp, by simp; intro a ha e; exact hy (e ▸ ha)⟩
    · rw [hkeys, freqOf_tableAfterLoad]
      split
      · next e => subst e; simpa using hpos
      · next e => rw [hf z]; simp [Ne.symm e]
    · rw [hk'] at hik
      have : (s.tableAfterLoad y c).orderAt i = s.orderAt i := by
        simp only [State.orderAt, dif_pos hi, State.tableAfterLoad, State.addCount, State.addKey, h0, if_true]
        rw [orderSet_get, if_neg (by omega)]
      rw [this]; exact hz i hi (by omega)
  · have hkey : s.addKey y = s := addKey_present h0
    have hkeys : (s.tableAfterLoad y c).keys = s.keys := by rw [State.tableAfterLoad, keys_addCount, hkey]
    have hk' : (s.tableAfterLoad y c).k = s.k := by rw [State.tableAfterLoad, hkey]; rfl
    have ho : ∀ i, (s.tableAfterLoad y c).orderAt i = s.orderAt i := by
      intro i; rw [State.tableAfterLoad, hkey]; rfl
    refine ⟨by rw [hk']; exact hk, by rw [hkeys]; exact hn, fun z => ?_, by omega, fun i hi hik => ?_⟩
    · rw [hkeys, freqOf_tableAfterLoad]
      split
      · next e => subst e; exact ⟨fun _ => (hf y).mp h0, fun _ => hpos⟩
      · exact hf z
    · rw [ho]; exact hz i hi (by rw [hk'] at hik; exact hik)

end Sys2Proof.Machine
end

