-- ==== Sys2Proof/Laws/Tree.lean ====
section
/-! SUPPORT. The Tree Builder: the key order is a strict total order on indices, popping the queue takes its least key and nothing
else, the leaves are where R94 puts them, and a merge loop writes only the new nodes. -/

namespace Sys2Proof.Machine

/-! ### The key order (R93) -/

theorem keyLt_iff (nodes : Vector Node 511) (i j : Nat) :
    keyLt nodes i j = true ↔ (nodeIn nodes i).freq.toNat < (nodeIn nodes j).freq.toNat ∨
      ((nodeIn nodes i).freq.toNat = (nodeIn nodes j).freq.toNat ∧ i < j) := by
  simp [keyLt, BitVec.ult, BitVec.toNat_inj]

theorem keyLt_irrefl (nodes : Vector Node 511) (i : Nat) : keyLt nodes i i = false := by
  rw [Bool.eq_false_iff, ne_eq, keyLt_iff]; omega

theorem keyLt_trans {nodes : Vector Node 511} {i j l : Nat} (h : keyLt nodes i j = true) (h' : keyLt nodes j l = true) :
    keyLt nodes i l = true := by
  rw [keyLt_iff] at *; omega

/-- Keys are distinct (R95): of two different indices one has the smaller key. -/
theorem keyLt_total {nodes : Vector Node 511} {i j : Nat} (h : i ≠ j) : keyLt nodes i j = true ∨ keyLt nodes j i = true := by
  rw [keyLt_iff, keyLt_iff]; omega

theorem not_keyLt {nodes : Vector Node 511} {i j : Nat} (h : keyLt nodes i j = false) : i = j ∨ keyLt nodes j i = true := by
  by_cases e : i = j
  · exact .inl e
  · exact .inr ((keyLt_total e).resolve_left (by simp [h]))

/-! ### The least key of a queue (R95) -/

theorem leastKey_mem (nodes : Vector Node 511) (i : Nat) (q : List Nat) : leastKey nodes i q ∈ i :: q := by
  induction q generalizing i with
  | nil => simp [leastKey]
  | cons j q ih =>
    simp only [leastKey]
    split
    · have := ih j; simp at *; tauto
    · have := ih i; simp at *; tauto

theorem leastKey_le (nodes : Vector Node 511) (i : Nat) (q : List Nat) :
    ∀ j ∈ i :: q, j = leastKey nodes i q ∨ keyLt nodes (leastKey nodes i q) j = true := by
  induction q generalizing i with
  | nil => simp [leastKey]
  | cons l q ih =>
    intro j hj
    simp only [leastKey]
    split
    · next hl =>
      rcases List.mem_cons.mp hj with rfl | hj
      · rcases ih l l (List.mem_cons_self) with e | e
        · exact .inr (e ▸ hl)
        · exact .inr (keyLt_trans e hl)
      · exact ih l j hj
    · next hl =>
      rcases List.mem_cons.mp hj with rfl | hj
      · exact ih j j List.mem_cons_self
      · rcases List.mem_cons.mp hj with rfl | hj
        · rcases not_keyLt (by simpa using hl) with e | e
          · exact e ▸ ih i i List.mem_cons_self
          · rcases ih i i List.mem_cons_self with f | f
            · exact .inr (f ▸ e)
            · exact .inr (keyLt_trans f e)
        · exact ih i j (List.mem_cons_of_mem _ hj)

/-- Popping fails only on the empty queue. -/
theorem popLeast_eq_none {nodes : Vector Node 511} {q : List Nat} : popLeast nodes q = none ↔ q = [] := by
  cases q <;> simp [popLeast]

/-- Popping takes one candidate out and leaves the others. -/
theorem popLeast_perm {nodes : Vector Node 511} {q q' : List Nat} {a : Nat} (h : popLeast nodes q = some (a, q')) :
    q.Perm (a :: q') := by
  cases q with
  | nil => simp [popLeast] at h
  | cons i q =>
    simp only [popLeast, Option.some.injEq, Prod.mk.injEq] at h
    obtain ⟨rfl, rfl⟩ := h
    exact List.perm_cons_erase (leastKey_mem nodes i q)

/-- What is taken out has the least key. -/
theorem popLeast_least {nodes : Vector Node 511} {q q' : List Nat} {a : Nat} (h : popLeast nodes q = some (a, q')) :
    ∀ j ∈ q, j = a ∨ keyLt nodes a j = true := by
  cases q with
  | nil => simp [popLeast] at h
  | cons i q =>
    simp only [popLeast, Option.some.injEq, Prod.mk.injEq] at h
    obtain ⟨rfl, rfl⟩ := h
    exact leastKey_le nodes i q

theorem popLeast_length {nodes : Vector Node 511} {q q' : List Nat} {a : Nat} (h : popLeast nodes q = some (a, q')) :
    q.length = q'.length + 1 := by
  simpa using (popLeast_perm h).length_eq

/-! ### The merge loop (R94) -/

/-- One turn of the loop: with two candidates or more it merges the two it pops, else it is done. -/
theorem mergeLoop_succ (fuel : Nat) (nodes : Vector Node 511) (q : List Nat) (nxt : Nat) :
    (q.length < 2 ∧ mergeLoop (fuel + 1) nodes q nxt = nodes) ∨
    ∃ a q1 b q2, popLeast nodes q = some (a, q1) ∧ popLeast nodes q1 = some (b, q2) ∧
      mergeLoop (fuel + 1) nodes q nxt =
        mergeLoop fuel (nodeSet nodes nxt (mergedNode nodes a b)) (q2 ++ [nxt]) (nxt + 1) := by
  simp only [mergeLoop]
  cases h1 : popLeast nodes q with
  | none => exact .inl ⟨by simp [popLeast_eq_none.mp h1], rfl⟩
  | some p =>
    obtain ⟨a, q1⟩ := p
    cases h2 : popLeast nodes q1 with
    | none =>
      have := popLeast_length h1
      exact .inl ⟨by rw [this, popLeast_eq_none.mp h2]; simp, by simp [h2]⟩
    | some p2 =>
      obtain ⟨b, q2⟩ := p2
      exact .inr ⟨a, q1, b, q2, rfl, h2, by simp [h2]⟩

/-- The loop leaves every node before the next index as it is. -/
theorem mergeLoop_below (fuel : Nat) (nodes : Vector Node 511) (q : List Nat) (nxt i : Nat) (h : i < nxt) :
    nodeIn (mergeLoop fuel nodes q nxt) i = nodeIn nodes i := by
  induction fuel generalizing nodes q nxt with
  | zero => rfl
  | succ fuel ih =>
    rcases mergeLoop_succ fuel nodes q nxt with ⟨_, e⟩ | ⟨a, q1, b, q2, _, _, e⟩
    · rw [e]
    · rw [e, ih _ _ _ (by omega), nodeIn_nodeSet_ne _ _ (by omega)]

/-- With |q| candidates it makes at most |q| - 1 merges: every node from there on is as it was. -/
theorem mergeLoop_above (fuel : Nat) (nodes : Vector Node 511) (q : List Nat) (nxt i : Nat)
    (h : nxt + (q.length - 1) ≤ i) : nodeIn (mergeLoop fuel nodes q nxt) i = nodeIn nodes i := by
  induction fuel generalizing nodes q nxt with
  | zero => rfl
  | succ fuel ih =>
    rcases mergeLoop_succ fuel nodes q nxt with ⟨_, e⟩ | ⟨a, q1, b, q2, h1, h2, e⟩
    · rw [e]
    · have l1 := popLeast_length h1
      have l2 := popLeast_length h2
      rw [e, ih _ _ _ (by simp; omega), nodeIn_nodeSet_ne _ _ (by omega)]

/-! ### The leaves (R94) -/

/-- Writing f(0), ..., f(n-1) at 0..n-1 and nothing else. -/
theorem nodeIn_foldl_range (f : Nat → Node) (nodes : Vector Node 511) (n i : Nat) :
    nodeIn ((List.range n).foldl (fun ns i => nodeSet ns i (f i)) nodes) i =
      if i < n ∧ i < 511 then f i else nodeIn nodes i := by
  induction n with
  | zero => simp
  | succ n ih =>
    rw [List.range_succ, List.foldl_append, List.foldl_cons, List.foldl_nil, nodeIn_nodeSet, ih]
    by_cases e : n = i
    · subst e; by_cases h : n < 511 <;> simp [h]
    · by_cases h : i < n
      · simp [e, h, Nat.lt_succ_of_lt h]
      · have : ¬ i < n + 1 := by omega
        simp [e, h, this]

theorem withLeaves_get (s : State) (i : Nat) :
    nodeIn s.withLeaves i = if i < s.k.toNat ∧ i < 511 then s.leafNode i else s.nodeAt i :=
  nodeIn_foldl_range s.leafNode s.node s.k.toNat i

/-- After BUILD the leaves stand at 0..K-1 (R94). -/
theorem builtNodes_leaf (s : State) {i : Nat} (h : i < s.k.toNat) (h' : i < 511) :
    nodeIn s.builtNodes i = s.leafNode i := by
  rw [State.builtNodes, mergeLoop_below _ _ _ _ _ h, withLeaves_get, if_pos ⟨h, h'⟩]

/-- BUILD writes no node from 2K - 1 on (U14). -/
theorem builtNodes_above (s : State) {i : Nat} (h : 2 * s.k.toNat - 1 ≤ i) (h' : s.k.toNat ≤ i) :
    nodeIn s.builtNodes i = s.nodeAt i := by
  rw [State.builtNodes, mergeLoop_above _ _ _ _ _ (by simp; omega), withLeaves_get, if_neg (by omega)]

end Sys2Proof.Machine
end

