-- ==== Sys2Proof/Tests/Slice0.lean ====
section
/-! SUPPORT. The model's own tests: the checks of WellFormed refuse ill-formed terms, one word of every row decodes to its command,
one step of every command on a small state gives what the spec's vectors give (95_test_vectors.md), and every statement with
hypotheses has a state that meets them. -/

namespace Sys2Proof.Tests

set_option Elab.async false

open Sys2Proof Sys2Proof.Machine

/-! ### WellFormed: an ill-formed term for each check -/

theorem test_opcode_0A_is_not_listed : opcodeListed 0x0A000000 = false := by decide
theorem test_nop_reserved_bit_0 : reservedBitsClear 0x00000001 = false := by decide
theorem test_load_freq_reserved_bit_8 : reservedBitsClear 0x02000161 = false := by decide
theorem test_read_node_reserved_bit_9 : reservedBitsClear 0x05000200 = false := by decide
theorem test_read_code_reserved_bit_11 : reservedBitsClear 0x07000861 = false := by decide
theorem test_decode_reserved_bit_6 : reservedBitsClear 0x09000040 = false := by decide
theorem test_ill_formed_word : commandWordWellFormed 0xFF000000 = false := by decide
theorem test_address_past_the_window : addressInWindow (Config.base + 256) = false := by simp [addressInWindow]
theorem test_half_word_access : accessSupported 0x08 16 = false := by decide
theorem test_misaligned_access : accessSupported 0x09 32 = false := by decide

/-! ### Decoding: the bits of each row of R74, operands at values the vectors use -/

theorem test_decode_nop : decodeWord 0b00000000_000000000000000000000000#32 = .command .nop := by decide
theorem test_decode_clear : decodeWord 0b00000001_000000000000000000000000#32 = .command .clear := by decide
theorem test_decode_load_freq : decodeWord 0b00000010_0000000000000000_01100001#32 = .command (.loadFreq 0x61) := by decide
theorem test_decode_read_freq : decodeWord 0b00000011_0000000000000000_01100010#32 = .command (.readFreq 0x62) := by decide
theorem test_decode_build : decodeWord 0b00000100_000000000000000000000000#32 = .command .build := by decide
theorem test_decode_read_node : decodeWord 0b00000101_000000000000000_111111110#32 = .command (.readNode 0x1FE) := by decide
theorem test_decode_generate : decodeWord 0b00000110_000000000000000000000000#32 = .command .generate := by decide
theorem test_decode_read_code : decodeWord 0b00000111_0000000000000_101_01100011#32 = .command (.readCode 0x63 5) := by decide
theorem test_decode_dec_reset : decodeWord 0b00001000_000000000000000000000000#32 = .command .decReset := by decide
theorem test_decode_decode : decodeWord 0b00001001_000000000000000000_100001#32 = .command (.decode 33) := by decide
theorem test_table_word : decodeTableWord 32 0x07000063 = some (.readCode 0x63 0) := by decide
theorem test_table_word_illegal : decodeTableWord 32 0x07000863 = none := by decide

/-! ### Small states: the table, the tree and the code table of "aaabbc" (W1, V3-3, V4-3), and a table of one symbol (V3-2) -/

/-- a:3 alone. -/
def aTable : State := State.reset.tableAfterLoad 0x61 3

def abTable : State := aTable.tableAfterLoad 0x62 2

/-- a:3, b:2, c:1 loaded in that order. -/
def abcTable : State := abTable.tableAfterLoad 0x63 1

def leafOf (y : Sym) (f : Word) : Node := { leaf := true, sym := y, freq := f, left := 0x1FF, right := 0x1FF }

def innerOf (l r : NodeIdx) (f : Word) : Node := { leaf := false, sym := 0, freq := f, left := l, right := r }

/-- V3-3: 0 a 3; 1 b 2; 2 c 1; 3: (2, 1) 3; 4: (0, 3) 6. -/
def abcNodes : Vector Node 511 :=
  nodeSet (nodeSet (nodeSet (nodeSet (nodeSet State.reset.node 0 (leafOf 0x61 3)) 1 (leafOf 0x62 2)) 2 (leafOf 0x63 1))
    3 (innerOf 2 1 3)) 4 (innerOf 0 3 6)

def abcTree : State := { abcTable with node := abcNodes, phase := .tree, decCur := 4 }

/-- V4-3: a "0", b "11", c "10". -/
def abcLut : Vector LutEntry 256 :=
  lutSet (lutSet (lutSet lutEmpty 0x61 { valid := true, len := 1, bits := 0 }) 0x62 { valid := true, len := 2, bits := 3 })
    0x63 { valid := true, len := 2, bits := 1 }

/-- The code table of the tree; `test_generate` compares it with V4-3. -/
def abcCode : State := { abcTree with lut := abcTree.generatedLut, phase := .code }

def aTree : State := { aTable with node := nodeSet State.reset.node 0 (leafOf 0x61 3), phase := .tree }

/-- BUILD on the empty table (V3-1). -/
def noTree : State := { State.reset with phase := .tree }

/-- The answer is a next state with these properties. -/
def nextWith (o : Answer) (p : State → Bool) : Bool :=
  match o with
  | .next t => p t
  | .fault _ => false
  | .refused _ => false

/-! ### One step of each command -/

/-- V1-4. -/
theorem test_nop : nextWith (exec .nop { abcTree with lastErr := .illegal }) (fun t => t.statusWord == 0x00030011) := by
  decide +kernel

/-- V1-5. -/
theorem test_clear : nextWith (exec .clear { abcCode with arg := 6, ovr := true })
    (fun t => t.statusWord == 0 && t.totalCount == 0 && t.decCur == 0x1FF && t.arg == 6 && t.ovr == false &&
      (t.lutOf 0x62).valid == false && (t.nodeAt 4).freq == 0) := by
  decide +kernel

/-- V2-2: a second load of 'a' adds to its count. -/
theorem test_load_freq_present : nextWith (exec (.loadFreq 0x61) { aTable with argl := 2 })
    (fun t => t.freqOf 0x61 == 5 && t.k == 1 && t.result0 == 5 && t.result1 == 0) := by
  decide +kernel

/-- P4: 5 + 0xFFFFFFFB = 2^32 overflows. -/
theorem test_load_freq_overflow : nextWith (exec (.loadFreq 0x62) { aTable with argl := 0xFFFFFFFD })
    (fun t => t.lastErr == .ovf && t.k == 1 && t.freqOf 0x62 == 0) := by
  decide +kernel

/-- The third key of V2-11. -/
theorem test_read_freq_present : nextWith (exec (.readFreq 0x63) abcTable) (fun t => t.result0 == 1 && t.result1 == 2) := by
  decide +kernel

/-- V2-8. -/
theorem test_read_freq_absent : nextWith (exec (.readFreq 0x64) abcTable)
    (fun t => t.result0 == 0 && t.result1 == 0x1FF && t.lastErr == .ok) := by
  decide +kernel

/-- V3-3. -/
theorem test_build : nextWith (exec .build abcTable)
    (fun t => t.nodeAt 3 == innerOf 2 1 3 && t.nodeAt 4 == innerOf 0 3 6 && t.result0 == 5 && t.result1 == 4 &&
      t.statusWord == 0x00030011 && t.decCur == 4) := by
  decide +kernel

/-- V3-1. -/
theorem test_build_empty : nextWith (exec .build State.reset)
    (fun t => t.statusWord == 0x00000001 && t.result0 == 0 && t.result1 == 0x1FF && t.decCur == 0x1FF) := by
  decide +kernel

/-- READ_NODE 0 and READ_NODE 4 of V3. -/
theorem test_read_node : nextWith (exec (.readNode 0) abcTree) (fun t => t.result0 == 0x8187FFFF && t.result1 == 3) ∧
    nextWith (exec (.readNode 4) abcTree) (fun t => t.result0 == 0x00000600 && t.result1 == 6) := by
  decide +kernel

theorem test_read_node_past_the_tree : nextWith (exec (.readNode 5) abcTree) (fun t => t.lastErr == .arg) := by
  decide +kernel

/-- V4-3. -/
theorem test_generate : nextWith (exec .generate abcTree)
    (fun t => [0x61, 0x62, 0x63, 0x64].all (fun y => t.lutOf y == lutIn abcLut y) && t.result0 == 2 && t.result1 == 3 && t.statusWord == 0x00030032 && t.decCur == 4) := by
  decide +kernel

/-- V4-2: the single symbol's code is "0". -/
theorem test_generate_single : nextWith (exec .generate aTree)
    (fun t => (t.lutOf 0x61).code == [false] && t.result0 == 1 && t.result1 == 1) := by
  decide +kernel

theorem test_read_code : nextWith (exec (.readCode 0x63 0) abcCode) (fun t => t.result0 == 2 && t.result1 == 1) := by
  decide +kernel

theorem test_read_code_absent : nextWith (exec (.readCode 0x64 0) abcCode) (fun t => t.lastErr == .noCode) := by
  decide +kernel

/-- V5-4. -/
theorem test_dec_reset : nextWith (exec .decReset { abcTree with decCur := 3 })
    (fun t => t.decCur == 4 && t.decMid == false) := by
  decide +kernel

/-- V5-1. -/
theorem test_decode : nextWith (exec (.decode 9) { abcTree with argl := 0x000000F8 })
    (fun t => t.result0 == 0x00000906 && t.outWord 0 == 0x62616161 && t.outWord 1 == 0x00006362 && t.decCur == 4) := by
  decide +kernel

/-- V5-6: a fall-off. -/
theorem test_decode_falls_off : nextWith (exec (.decode 2) { aTree with argl := 2 })
    (fun t => t.result0 == 0x00010201 && t.outWord 0 == 0x61 && t.decFell && t.lastErr == .ok) := by
  decide +kernel

/-! ### The step and the window -/

/-- The next step after a fetch runs the word: P4's illegal BUILD. -/
theorem test_step_illegal_word : nextWith (step (State.reset.withFetchWord 32 0x04000001))
    (fun t => t.statusWord == 0x00000100) := by
  decide +kernel

theorem test_step_runs_word : nextWith (step (({ State.reset with arg := 3 } : State).withFetchWord 32 0x02000061))
    (fun t => t.statusWord == 0x00010000 && t.result0 == 3 && t.totalCount == 3) := by
  decide +kernel

theorem test_write_cmd_issues : step (({ State.reset with arg := 7 } : State).facing (wr .cmd 0x02000061)) =
    .next { State.reset with arg := 7, cmdl := 0x02000061, argl := 7, busy := true } := by
  rw [step_wr]; rfl

theorem test_write_cmd_overrun : step (({ State.reset with busy := true } : State).facing (wr .cmd 0x01000000)) =
    .next { State.reset with busy := true, ovr := true } := by
  rw [step_wr]; rfl

theorem test_read_id : step (({ State.reset with busy := true } : State).facing (rd .id)) =
    .next { State.reset with busy := true, readData := some 0x48554631 } := by
  rw [step_rd]; rfl

theorem test_out_register : ({ abcTree with outbuf := outSet (outSet outEmpty 4 0x62) 5 0x63 } : State).readIdle (.out 1) =
    0x00006362 := by
  decide +kernel

/-- STATUS of P3 in the middle of a code. -/
theorem test_status_dec_mid : ({ abcCode with decCur := 3 } : State).readIdle .status = 0x000300B2 := by
  decide +kernel

/-- RESULT0 and RESULT1 at their offsets (section 2 of 10_state.md). -/
theorem test_read_results : Reg.result0.offset = 0x10 ∧ Reg.result1.offset = 0x14 ∧
    ({ State.reset with result0 := 1, result1 := 2 } : State).readIdle .result0 = 1 ∧
    ({ State.reset with result0 := 1, result1 := 2 } : State).readIdle .result1 = 2 := by decide

/-! ### The host reference functions: "aaabbc" (W1) -/

theorem test_analyze : analyze [0x61, 0x61, 0x61, 0x62, 0x62, 0x63] = [(0x61, 3), (0x62, 2), (0x63, 1)] := by
  decide +kernel

theorem test_encode : encodeSymbols abcLut [0x61, 0x61, 0x61, 0x62, 0x62, 0x63] =
    some [false, false, false, true, true, true, true, true, false] := by
  decide +kernel

theorem test_encode_absent : encodeSymbols abcLut [0x61, 0x64] = none := by decide +kernel

/-- R79: ceil(33 / 32) = 2 chunks, n = 32 and n = 1. -/
theorem test_split_chunks : (splitChunks 33 (List.replicate 33 true)).map List.length = [32, 1] := by decide

theorem test_pack_bits : packBits [false, false, false, true, true, true, true, true, false] = 0x000000F8 := by decide +kernel

/-! ### The small states meet the invariant -/

theorem aTable_total : aTable.totalCount = 3 := by
  have h : State.reset.totalCount + (3 : Word).toNat ≤ Config.freqMax := by rw [totalCount_reset]; decide
  rw [aTable, totalCount_tableAfterLoad _ _ _ h, totalCount_reset]; rfl

theorem aTable_tableInv : aTable.TableInv :=
  tableInv_tableAfterLoad tableInv_reset (by decide) (by rw [totalCount_reset]; decide)

theorem abTable_total : abTable.totalCount = 5 := by
  have h : aTable.totalCount + (2 : Word).toNat ≤ Config.freqMax := by rw [aTable_total]; decide
  rw [abTable, totalCount_tableAfterLoad _ _ _ h, aTable_total]; rfl

theorem abTable_tableInv : abTable.TableInv :=
  tableInv_tableAfterLoad aTable_tableInv (by decide) (by rw [aTable_total]; decide)

theorem abcTable_total : abcTable.totalCount = 6 := by
  have h : abTable.totalCount + (1 : Word).toNat ≤ Config.freqMax := by rw [abTable_total]; decide
  rw [abcTable, totalCount_tableAfterLoad _ _ _ h, abTable_total]; rfl

theorem abcTable_tableInv : abcTable.TableInv :=
  tableInv_tableAfterLoad abTable_tableInv (by decide) (by rw [abTable_total]; decide)

theorem loaded_node (s : State) (y : Sym) (c : Word) (i : Nat) : (s.tableAfterLoad y c).nodeAt i = s.nodeAt i := by
  simp only [State.nodeAt, State.tableAfterLoad, State.addCount, State.addKey]; split <;> rfl

theorem loaded_lut (s : State) (y : Sym) (c : Word) : (s.tableAfterLoad y c).lut = s.lut := by
  simp only [State.tableAfterLoad, State.addCount, State.addKey]; split <;> rfl

theorem abcTable_lut : abcTable.lut = lutEmpty := by simp only [abcTable, abTable, aTable, loaded_lut]; rfl

theorem aTable_lut : aTable.lut = lutEmpty := by simp only [aTable, loaded_lut]; rfl

theorem reset_node (i : Nat) : State.reset.nodeAt i = Node.zero := nodeIn_replicate_zero i

theorem abcTree_shape : abcTree.TreeShape := by
  refine ⟨by decide +kernel, by decide +kernel, by decide +kernel, fun _ => ?_, fun i _ h => ?_⟩
  · exact (show (abcTree.nodeAt 4).freq.toNat = 6 by decide +kernel).trans abcTable_total.symm
  · have h5 : 5 ≤ i := Nat.le_trans (by decide +kernel) h
    show nodeIn abcNodes i = Node.zero
    simp only [abcNodes, nodeIn_nodeSet]
    rw [if_neg (by omega), if_neg (by omega), if_neg (by omega), if_neg (by omega), if_neg (by omega)]
    exact reset_node i

theorem aTree_shape : aTree.TreeShape := by
  refine ⟨by decide +kernel, by decide +kernel, by decide +kernel, fun _ => ?_, fun i _ h => ?_⟩
  · exact (show (aTree.nodeAt 0).freq.toNat = 3 by decide +kernel).trans aTable_total.symm
  · have h1 : 1 ≤ i := Nat.le_trans (by decide +kernel) h
    show nodeIn (nodeSet State.reset.node 0 (leafOf 0x61 3)) i = Node.zero
    rw [nodeIn_nodeSet_ne _ _ (by omega)]
    exact reset_node i

theorem abcTable_inv : abcTable.Inv :=
  ⟨abcTable_tableInv, ⟨fun _ i _ => by simp only [abcTable, abTable, aTable, loaded_node, reset_node], by decide +kernel⟩,
    ⟨fun _ => abcTable_lut, by decide +kernel⟩, by decide +kernel⟩

theorem abcTree_inv : abcTree.Inv :=
  ⟨abcTable_tableInv, ⟨fun h => absurd h (by decide), fun _ => ⟨abcTree_shape, by decide +kernel⟩⟩,
    ⟨fun _ => abcTable_lut, fun h => absurd h (by decide)⟩, by decide +kernel⟩

theorem abcCode_codeInv : abcCode.CodeInv := by
  refine ⟨fun h => absurd rfl h, fun _ => ?_⟩
  rw [generatedLut_congr (s := abcTree) (t := abcCode) (by simp only [abcCode]) (by simp only [abcCode])]
  simp only [abcCode]

theorem abcCode_inv : abcCode.Inv := by
  have hk : abcCode.k = abcTree.k := by simp only [abcCode]
  have ho : abcCode.order = abcTree.order := by simp only [abcCode]
  have hf : abcCode.freq = abcTree.freq := by simp only [abcCode]
  have hn : abcCode.node = abcTree.node := by simp only [abcCode]
  exact ⟨tableInv_congr hk ho hf abcTree_inv.1, treeInv_congr hk ho hf hn (by decide) (by decide) abcTree_inv.2.1,
    abcCode_codeInv, by decide +kernel⟩

theorem aTable_inv : aTable.Inv :=
  ⟨aTable_tableInv, ⟨fun _ i _ => by simp only [aTable, loaded_node, reset_node], by decide +kernel⟩,
    ⟨fun _ => aTable_lut, by decide +kernel⟩, by decide +kernel⟩

theorem aTree_inv : aTree.Inv :=
  ⟨aTable_tableInv, ⟨fun h => absurd h (by decide), fun _ => ⟨aTree_shape, by decide +kernel⟩⟩,
    ⟨fun _ => aTable_lut, fun h => absurd h (by decide)⟩, by decide +kernel⟩

/-- GENERATE on the tree of one symbol. -/
def aCode : State := { aTree with lut := aTree.generatedLut, phase := .code }

theorem aCode_freq (y : Sym) : aCode.freqOf y = if (0x61 : Sym) = y then 3 else 0 := by
  show (State.reset.tableAfterLoad 0x61 3).freqOf y = _
  rw [freqOf_tableAfterLoad, freqOf_reset, freqOf_reset]; rfl

theorem aCode_inv : aCode.Inv := by
  have hk : aCode.k = aTree.k := by simp only [aCode]
  have ho : aCode.order = aTree.order := by simp only [aCode]
  have hf : aCode.freq = aTree.freq := by simp only [aCode]
  have hn : aCode.node = aTree.node := by simp only [aCode]
  refine ⟨tableInv_congr hk ho hf aTree_inv.1, treeInv_congr hk ho hf hn (by decide) (by decide) aTree_inv.2.1,
    ⟨fun h => absurd rfl h, fun _ => ?_⟩, by decide +kernel⟩
  rw [generatedLut_congr hn hk]
  simp only [aCode]

theorem noTree_inv : noTree.Inv :=
  ⟨tableInv_reset, ⟨fun h => absurd h (by decide), fun _ => ⟨⟨by decide +kernel, by decide +kernel, by decide +kernel, by decide +kernel,
    fun i _ _ => reset_node i⟩, by decide +kernel⟩⟩, ⟨fun _ => rfl, fun h => absurd h (by decide)⟩, by decide +kernel⟩

/-! ### Witnesses: a state and operands that meet all hypotheses of each statement, for each clause -/

theorem next_of {o : Answer} {p : State → Bool} (h : nextWith o p = true) : ∃ t, o = .next t ∧ p t = true := by
  cases o with
  | next t => exact ⟨t, rfl, h⟩
  | fault _ => simp [nextWith] at h
  | refused _ => simp [nextWith] at h

/-- A command just issued in a state. -/
def running (w : Word) (s : State) : State := { s with cmdl := w, busy := true }

/-- A state with this latched operand. -/
def withArgl (a : Word) (s : State) : State := { s with argl := a }

theorem inv_running (w : Word) {s : State} (h : s.Inv) : (running w s).Inv := inv_congr rfl rfl rfl rfl rfl rfl rfl rfl h

theorem inv_withArgl (a : Word) {s : State} (h : s.Inv) : (withArgl a s).Inv := inv_congr rfl rfl rfl rfl rfl rfl rfl rfl h

theorem tableInv_running (w : Word) {s : State} (h : s.TableInv) : (running w s).TableInv := tableInv_congr rfl rfl rfl h

theorem tableInv_withArgl (a : Word) {s : State} (h : s.TableInv) : (withArgl a s).TableInv := tableInv_congr rfl rfl rfl h

theorem totalCount_withArgl (a : Word) (s : State) : (withArgl a s).totalCount = s.totalCount := rfl

theorem witness_CmdWriteIssuesCommand :
    (State.reset.busy = false ∧ decodeWord 0x02000061 = .command (.loadFreq 0x61)) ∧ (running 0 State.reset).busy = true := by
  decide

theorem witness_CmdWriteWhileBusySetsOverrun :
    (running 0 State.reset).busy = true ∧
    ∃ s t : State, step s = .next t ∧ s.ovr = true ∧ t.ovr = false :=
  ⟨rfl, running 0x01000000 { State.reset with ovr := true }, _, rfl, rfl, rfl⟩

theorem witness_ArgIsPlainHostRegister : (∃ t, exec .nop State.reset = .next t) ∧ State.reset.busy = false := ⟨⟨_, rfl⟩, rfl⟩

theorem witness_HostReadsHaveNoSideEffect :
    (∃ t, step (State.reset.facing (.read (Config.base + Reg.status.offset) 32)) = .next t) ∧
    Reg.id ≠ .arg ∧ Reg.reserved 47 ≠ .cmd := ⟨⟨_, step_rd State.reset .status⟩, by decide, by decide⟩

theorem witness_ReservedAndReadOnlyOffsets :
    (0x40 ≤ 0x40 ∧ 0x40 % 4 = 0) ∧ (0x40 ≤ 0xFC ∧ 0xFC ≤ 0xFC ∧ 0xFC % 4 = 0) ∧
    (0x00 ≠ 0x04 ∧ 0x00 % 4 = 0) ∧ (0x0C ≠ 0x08 ∧ 0x0C % 4 = 0) := by decide

theorem witness_UnsupportedAccessIsRefused :
    (0 < 256 ∧ (8 ≠ 32 ∨ 0 % 4 ≠ 0)) ∧ (255 < 256 ∧ (32 ≠ 32 ∨ 255 % 4 ≠ 0)) ∧ (252 < 256 ∧ 252 % 4 = 0) := by decide

theorem witness_StatusFieldsWhileIdle : abcCode.busy = false ∧ abcCode.phase = .code ∧ 1 ≤ abcCode.k.toNat := by decide +kernel

theorem witness_ReadsAndWritesWhileBusy : (running 0 abcTree).busy = true := rfl

theorem witness_DecposTotalAndOutRead : abcTable.busy = false ∧ abcTable.TableInv ∧ 7 < 8 ∧ 3 < 4 :=
  ⟨by decide +kernel, abcTable_tableInv, by decide, by decide⟩

theorem witness_StepRunsDecodedCommand :
    (running 0x02000061 State.reset).busy = true ∧
    decodeWord (running 0x02000061 State.reset).cmdl = .command (.loadFreq 0x61) ∧
    (running 0x02000061 State.reset).inputs = [] := by decide

theorem witness_CommandInProgressCompletes :
    ((running 0xFF000000 State.reset).busy = true ∧ (running 0xFF000000 State.reset).inputs = []) ∧
    State.reset.busy = false := by decide

theorem witness_MnemonicRunsToCompletion :
    ∃ s t : State, s.busy = false ∧ s.inputs = expand .nop 0 1 ++ [] ∧
      exec .nop ({ s with inputs := [], arg := if usesArg .nop then 0 else s.arg }.issue (encode .nop)) = .next t :=
  ⟨{ State.reset with inputs := expand .nop 0 1 }, _, rfl, by simp, rfl⟩

/-- A state with these inputs pending. -/
def facingAll (xs : List Input) (s : State) : State := { s with inputs := xs }

/-- A NOP polled once in vain; a reset with a command in progress. -/
theorem witness_RunEndsAtIdleStatusReadOrReset :
    (facingAll (expand .nop 0 1 ++ []) State.reset).busy = false ∧
    (facingAll [.reset, .blockTurn] (running 0 State.reset)).inputs.head? = some .reset ∧
    ∃ s t : State, (∀ x ∈ s.inputs, x ≠ .reset) ∧ s.runOver 1 = true ∧
      Host.Core.run Sys2Proof.core 1 s = .next t :=
  ⟨rfl, rfl, facingAll [rd .status] State.reset, { State.reset with readData := some 0 },
    by simp [facingAll, rd], by simp [facingAll, State.runOver, State.endsRun, Input.isStatusRead, rd, State.reset],
    by
      have h : step (facingAll [rd .status] State.reset) = .next { State.reset with readData := some 0 } :=
        step_rd State.reset .status
      simp only [Host.Core.run, Sys2Proof.core, h]⟩

theorem witness_HostWritesDoNotDisturbCommand :
    (∃ t, exec (.readFreq 0) State.reset = .next t ∧ Instr.readFreq 0 ≠ .clear) ∧ ∃ t, exec .clear State.reset = .next t :=
  ⟨⟨_, rfl, by decide⟩, _, rfl⟩

theorem witness_EncodeInvertsDecode : decodeWord 0x07000362 = .command (.readCode 0x62 3) := by decide

theorem witness_DecodingFollowsOpcodeMap :
    decodeWord 0x09000020 = .command (.decode 32) ∧ decodeWord 0x0A000000 = .illegal .reservedOpcode := by decide

theorem witness_IllegalWordReportsIllegal :
    ((running 0x0A000000 State.reset).busy = true ∧ 0x0A ≤ ((running 0x0A000000 State.reset).cmdl.extractLsb' 24 8).toNat) ∧
    ∃ f, formatOfOpcode ((running 0x09000040 State.reset).cmdl.extractLsb' 24 8).toNat = some f ∧
      (running 0x09000040 State.reset).cmdl &&& f.reservedBits ≠ 0 := ⟨by decide, .fn, by decide, by decide⟩

/-- RejectsReservedBits, for the ten opcodes: the lowest reserved bit of each format set. -/
theorem witness_RejectsReservedBits :
    ∀ p ∈ [(0x00, 0), (0x01, 0), (0x02, 8), (0x03, 8), (0x04, 0), (0x05, 9), (0x06, 0), (0x07, 11), (0x08, 0), (0x09, 6)],
      let s := running (BitVec.ofNat 32 (p.1 * 2 ^ 24 + 2 ^ p.2)) State.reset
      s.busy = true ∧ (opcodeField s.cmdl).toNat = p.1 ∧ s.cmdl.extractLsb' p.2 (24 - p.2) ≠ 0 := by decide +kernel

theorem witness_CommandsEndPrecisely : nextWith (exec .generate State.reset) (fun t => t.lastErr != .ok) := by decide +kernel

theorem witness_PermittedPhases : permitted .build abcTree = false ∧ permitted .build State.reset = true := by decide +kernel

theorem witness_FirstErrorIsReported :
    firstError (.loadFreq 0x61) abcTree = .phase ∧ firstError (.decode 0) abcTree = .arg ∧
    firstError (.loadFreq 0x62) (withArgl 0xFFFFFFFD aTable) = .ovf ∧
    firstError (.readCode 0x64 0) abcCode = .noCode := by decide +kernel

theorem witness_PhaseChanges :
    nextWith (exec .build abcTable) (fun t => t.phase != abcTable.phase) ∧
    nextWith (exec .generate abcTree) (fun t => t.phase != abcTree.phase) ∧
    nextWith (exec .clear abcTree) (fun t => t.phase != abcTree.phase) := by decide +kernel

/-- For the clauses of PhaseChanges on NODE and LUT: GENERATE again in CODE. -/
theorem witness_PhaseChanges_generate_again :
    abcCode.Inv ∧ abcCode.phase = .code ∧ nextWith (exec .generate abcCode) (fun _ => true) :=
  ⟨abcCode_inv, by decide +kernel, by decide +kernel⟩

theorem witness_WhichCommandsWriteWhat :
    (∃ t, exec .nop State.reset = .next t) ∧ (∀ y, Instr.nop ≠ .loadFreq y) ∧ (∀ n, Instr.nop ≠ .decode n) ∧
    Instr.nop ≠ .clear ∧ Instr.nop ≠ .build ∧ Instr.nop ≠ .generate ∧ Instr.nop ≠ .decReset :=
  ⟨⟨_, rfl⟩, by simp, by simp, by decide, by decide, by decide, by decide⟩

/-- The clauses of LOAD_FREQ at their boundaries: a total of exactly 2^32 - 1 is taken, exactly 2^32 is not; a new and a present
symbol. -/
theorem witness_LoadFreqAddsCount :
    (abcTree.TableInv ∧ abcTree.phase ≠ .load) ∧ (aTable.TableInv ∧ aTable.phase = .load ∧ aTable.argl = 0) ∧
    ((withArgl 0xFFFFFFFD aTable).TableInv ∧ (withArgl 0xFFFFFFFD aTable).phase = .load ∧
      (withArgl 0xFFFFFFFD aTable).argl ≠ 0 ∧
      2 ^ 32 - 1 < (withArgl 0xFFFFFFFD aTable).totalCount + (withArgl 0xFFFFFFFD aTable).argl.toNat) ∧
    ((withArgl 0xFFFFFFFC aTable).TableInv ∧ (withArgl 0xFFFFFFFC aTable).phase = .load ∧
      (withArgl 0xFFFFFFFC aTable).argl ≠ 0 ∧
      (withArgl 0xFFFFFFFC aTable).totalCount + (withArgl 0xFFFFFFFC aTable).argl.toNat ≤ 2 ^ 32 - 1 ∧
      (withArgl 0xFFFFFFFC aTable).freqOf 0x61 ≠ 0 ∧ (withArgl 0xFFFFFFFC aTable).freqOf 0x62 = 0) :=
  ⟨⟨abcTree_inv.1, by decide +kernel⟩, ⟨aTable_tableInv, by decide +kernel, by decide +kernel⟩,
    ⟨tableInv_withArgl _ aTable_tableInv, by decide +kernel, by decide +kernel,
      by rw [totalCount_withArgl, aTable_total]; decide⟩,
    tableInv_withArgl _ aTable_tableInv, by decide +kernel, by decide +kernel,
    by rw [totalCount_withArgl, aTable_total]; decide, by decide +kernel, by decide +kernel⟩

theorem witness_ReadFreqReadsCountAndIndex :
    abcTable.TableInv ∧ abcTable.freqOf 0x63 ≠ 0 ∧ abcTable.freqOf 0x64 = 0 :=
  ⟨abcTable_tableInv, by decide +kernel, by decide +kernel⟩

theorem witness_BothWaysOfLoadingAgree :
    ([0x61, 0x62, 0x61] : List Sym).length ≤ 2 ^ 32 - 1 ∧ State.reset.TableInv ∧ State.reset.phase = .load ∧ State.reset.k = 0 :=
  ⟨by decide, tableInv_reset, rfl, rfl⟩

theorem witness_BuildCompletes :
    (abcTable.TableInv ∧ abcTable.phase = .load) ∧ (State.reset.TableInv ∧ State.reset.phase = .load ∧ State.reset.k = 0) ∧
    (abcTree.TableInv ∧ abcTree.phase ≠ .load) :=
  ⟨⟨abcTable_tableInv, by decide +kernel⟩, ⟨tableInv_reset, rfl, rfl⟩, abcTree_inv.1, by decide⟩

theorem witness_BuildOfAtMostOneKey :
    (State.reset.TableInv ∧ State.reset.phase = .load ∧ (∀ i < 511, State.reset.nodeAt i = Node.zero) ∧
      State.reset.k.toNat = 0) ∧
    (aTable.TableInv ∧ aTable.phase = .load ∧ (∀ i < 511, aTable.nodeAt i = Node.zero) ∧ aTable.k.toNat = 1) :=
  ⟨⟨tableInv_reset, rfl, fun i _ => reset_node i, rfl⟩, aTable_tableInv, by decide +kernel,
    aTable_inv.2.1.1 (by decide +kernel), by decide +kernel⟩

/-- For BuildMergesTwoLeastCandidates, BuildGivesFullBinaryTree and BuildMatchesStableSortReference: BUILD on three keys, whose internal
nodes are 3 and 4. -/
theorem witness_BuildStatements :
    abcTable.TableInv ∧ abcTable.phase = .load ∧ (∀ i < 511, abcTable.nodeAt i = Node.zero) ∧
    (∃ t, exec .build abcTable = .next t) ∧ abcTable.k.toNat ≤ 3 ∧ 4 < 2 * abcTable.k.toNat - 1 :=
  ⟨abcTable_tableInv, by decide +kernel, abcTable_inv.2.1.1 (by decide +kernel),
    (next_of test_build).imp fun _ h => h.1, by decide +kernel, by decide +kernel⟩

theorem witness_ReadNodeReadsFields :
    abcTable.phase = .load ∧ (abcTree.phase ≠ .load ∧ 2 * abcTree.k.toNat - 1 ≤ (5 : NodeIdx).toNat) ∧
    (abcTree.phase ≠ .load ∧ (4 : NodeIdx).toNat < 2 * abcTree.k.toNat - 1) := by decide +kernel

theorem witness_HigherFrequencyNoLongerCode :
    abcCode.Inv ∧ abcCode.phase = .code ∧ (abcCode.freqOf 0x63).toNat < (abcCode.freqOf 0x61).toNat ∧
    abcCode.freqOf 0x63 ≠ 0 := ⟨abcCode_inv, by decide, by decide +kernel, by decide +kernel⟩

theorem witness_GenerateCompletes :
    abcTable.phase = .load ∧ abcTree.phase ≠ .load ∧ (noTree.phase ≠ .load ∧ noTree.k = 0) := by decide +kernel

theorem witness_GenerateWritesPathCodes :
    (abcTree.TableInv ∧ abcTree.TreeInv ∧ abcTree.phase ≠ .load ∧ (∃ t, exec .generate abcTree = .next t) ∧
      abcTree.freqOf 0x61 ≠ 0 ∧ abcTree.freqOf 0x64 = 0 ∧ 2 ≤ abcTree.k.toNat) ∧
    (aTree.TableInv ∧ aTree.TreeInv ∧ aTree.phase ≠ .load ∧ (∃ t, exec .generate aTree = .next t) ∧
      aTree.freqOf 0x61 ≠ 0 ∧ aTree.k.toNat = 1) :=
  ⟨⟨abcTree_inv.1, abcTree_inv.2.1, by decide, (next_of test_generate).imp fun _ h => h.1, by decide +kernel,
    by decide +kernel, by decide +kernel⟩, aTree_inv.1, aTree_inv.2.1, by decide,
    (next_of test_generate_single).imp fun _ h => h.1, by decide +kernel, by decide +kernel⟩

/-- For the one-key clauses of CodesArePrefixFree. -/
theorem witness_CodesOfOneKey : aCode.Inv ∧ aCode.phase = .code ∧ (aCode.lutOf 0x61).valid = true ∧ aCode.k.toNat = 1 :=
  ⟨aCode_inv, by decide +kernel, by decide +kernel, by decide +kernel⟩

/-- For CodesArePrefixFree and CodesFillTheCodeSpace. -/
theorem witness_CodeTableStatements :
    abcCode.Inv ∧ abcCode.phase = .code ∧ (abcCode.lutOf 0x61).valid = true ∧ (abcCode.lutOf 0x62).valid = true ∧
    (0x61 : Sym) ≠ 0x62 ∧ 2 ≤ abcCode.k.toNat :=
  ⟨abcCode_inv, by decide, by decide +kernel, by decide +kernel, by decide, by decide +kernel⟩

/-- GENERATE, NOP, GENERATE after BUILD on the empty table. -/
theorem witness_GenerateIsIdempotent :
    ∃ t u v, noTree.phase ≠ .load ∧ exec .generate noTree = .next t ∧ (∀ c ∈ [(Instr.nop, (0 : Word))], c.1 ≠ .clear) ∧
      performEach [(Instr.nop, 0)] t = some u ∧ exec .generate u = .next v := by
  obtain ⟨t, ht, hp⟩ := next_of (p := fun t => nextWith (exec .nop (({ t with arg := 0 } : State).issue (encode .nop)))
    fun u => nextWith (exec .generate u) fun _ => true) (o := exec .generate noTree) (by decide +kernel)
  obtain ⟨u, hu, hq⟩ := next_of hp
  obtain ⟨v, hv, -⟩ := next_of hq
  exact ⟨t, u, v, by decide +kernel, ht, by decide, by simp only [performEach, perform, hu], hv⟩

theorem witness_ReadCodeReadsOneWord :
    abcTree.phase ≠ .code ∧ (abcCode.phase = .code ∧ (abcCode.lutOf 0x64).valid = false) ∧
    (abcCode.phase = .code ∧ (abcCode.lutOf 0x63).valid = true) ∧ 31 < 32 := by decide +kernel

theorem witness_EncodedLengthIsWeightedSum :
    aCode.Inv ∧ aCode.phase = .code ∧ ∀ y, (aCode.freqOf y).toNat = [0x61, 0x61, 0x61].count y := by
  refine ⟨aCode_inv, by decide +kernel, fun y => ?_⟩
  rw [aCode_freq]
  by_cases h : (0x61 : Sym) = y
  · subst h; decide
  · have h' : ¬ (97#8 = y) := h
    rw [if_neg h]
    simp [h']

theorem witness_DecResetReturnsToRoot :
    abcTable.phase = .load ∧ (abcTree.phase ≠ .load ∧ 2 ≤ abcTree.k.toNat ∧ abcTree.k.toNat ≤ 256) ∧
    (aTree.phase ≠ .load ∧ aTree.k.toNat ≤ 1) := by decide +kernel

theorem witness_DecodeCompletes :
    abcTable.phase = .load ∧ (abcTree.phase ≠ .load ∧ abcTree.decFell = false) ∧
    ((0 : BitVec 6) = 0 ∧ 32 < (33 : BitVec 6).toNat) ∧
    (1 ≤ (1 : BitVec 6).toNat ∧ (32 : BitVec 6).toNat ≤ 32) := by decide +kernel

theorem witness_DecodeOneBitMoves :
    (abcTree.Inv ∧ abcTree.phase ≠ .load ∧ abcTree.decFell = false ∧ 2 ≤ abcTree.k.toNat ∧
      (abcTree.nodeAt (abcTree.nodeAt abcTree.decCur.toNat).left.toNat).leaf = true ∧
      (abcTree.nodeAt (abcTree.nodeAt abcTree.decCur.toNat).right.toNat).leaf = false) ∧
    (aTree.Inv ∧ aTree.phase ≠ .load ∧ aTree.decFell = false ∧ aTree.k.toNat = 1 ∧ aTree.argl.getLsbD 0 = false) ∧
    (noTree.Inv ∧ noTree.phase ≠ .load ∧ noTree.decFell = false ∧ noTree.k.toNat = 0) :=
  ⟨⟨abcTree_inv, by decide, by decide +kernel, by decide +kernel, by decide +kernel, by decide +kernel⟩,
    ⟨aTree_inv, by decide, by decide +kernel, by decide +kernel, by decide +kernel⟩, noTree_inv, by decide, by decide, by decide⟩

/-- The bit 1 at the virtual root of a one-key tree. -/
theorem witness_DecodeFallsOff :
    (withArgl 1 aTree).Inv ∧ (withArgl 1 aTree).phase ≠ .load ∧ (withArgl 1 aTree).decFell = false ∧
    (withArgl 1 aTree).k.toNat = 1 ∧ (withArgl 1 aTree).argl.getLsbD 0 = true :=
  ⟨inv_withArgl _ aTree_inv, by decide +kernel, by decide +kernel, by decide +kernel, by decide +kernel⟩

theorem witness_DecodeIgnoresBitsPastCount :
    (∀ b < (3 : BitVec 6).toNat, (0xFFFFFFF8 : Word).getLsbD b = abcTree.argl.getLsbD b) ∧
    nextWith (exec (.decode 3) abcTree) (fun _ => true) := by decide +kernel

theorem witness_NoFallOffWithTwoKeys :
    abcTree.Inv ∧ abcTree.phase ≠ .load ∧ 2 ≤ abcTree.k.toNat ∧
    nextWith (exec (.decode 9) abcTree) (fun t => t.lastErr == .ok) :=
  ⟨abcTree_inv, by decide, by decide +kernel, by decide +kernel⟩

/-- After the fall-off a second DECODE and a NOP follow. -/
theorem witness_FallOffHaltsTheDecoder :
    (withArgl 2 aTree).Inv ∧
    (∀ c ∈ [(Instr.decode 1, (0 : Word)), (Instr.nop, 0)], c.1 ≠ .decReset ∧ c.1 ≠ .clear) ∧
    nextWith (exec (.decode 2) (withArgl 2 aTree)) (fun t => t.lastErr == .ok && t.result0.getLsbD 16 &&
      (performEach [(.decode 1, 0), (.nop, 0)] t).isSome) :=
  ⟨inv_withArgl _ aTree_inv, by decide, by decide +kernel⟩

/-- Both ends of z: no bit 1 among 32, and (`witness_DecodeFallsOff`) a bit 1 first of all. -/
theorem witness_SingleSymbolDecoding :
    aTree.Inv ∧ aTree.phase ≠ .load ∧ aTree.decFell = false ∧ aTree.k.toNat = 1 ∧ (32 : BitVec 6).toNat ≤ 32 ∧
      ∀ b < 32, aTree.argl.getLsbD b = false :=
  ⟨aTree_inv, by decide +kernel, by decide +kernel, by decide +kernel, by decide, by decide +kernel⟩

theorem witness_NoTreeFallsOffAtFirstBit :
    noTree.Inv ∧ noTree.phase ≠ .load ∧ noTree.decFell = false ∧ noTree.k = 0 ∧ 1 ≤ (32 : BitVec 6).toNat ∧
    (32 : BitVec 6).toNat ≤ 32 := ⟨noTree_inv, by decide, by decide, by decide, by decide, by decide⟩

/-- "a", "c" of the tree in one chunk and in two. -/
theorem witness_ChunkingDoesNotChangeTheResult :
    ChunksFit [[false, true, false]] ∧ ChunksFit [[false, true], [false]] ∧
    [[false, true, false]].flatten = [[false, true], [false]].flatten ∧
    (feed [[false, true, false]] abcTree).isSome ∧ (feed [[false, true], [false]] abcTree).isSome := by decide +kernel

theorem witness_DecoderInvertsTheCodes :
    abcTree.Inv ∧ abcTree.phase ≠ .load ∧ abcTree.decCur = abcTree.rootPos ∧ abcTree.decFell = false ∧
    nextWith (exec .generate abcTree) (fun g => encodeSymbols g.lut [0x61, 0x63] == some [false, true, false]) ∧
    ChunksFit [[false], [true, false]] ∧ [[false], [true, false]].flatten = [false, true, false] :=
  ⟨abcTree_inv, by decide, by decide +kernel, by decide +kernel, by decide +kernel, by decide, by decide⟩

theorem reset_inv : State.reset.TreeInv ∧ State.reset.CodeInv ∧ State.reset.DecoderInv :=
  ⟨⟨fun _ i _ => reset_node i, fun h => absurd rfl h⟩, ⟨fun _ => rfl, fun h => absurd h (by decide)⟩, by decide⟩

theorem witness_PipelineRoundTrip :
    ([0x61, 0x62, 0x61] : List Sym) ≠ [] ∧ ([0x61, 0x62, 0x61] : List Sym).length ≤ 2 ^ 32 - 1 ∧ State.reset.Inv ∧
    State.reset.phase = .load ∧ State.reset.k = 0 :=
  ⟨by decide, by decide, ⟨tableInv_reset, reset_inv⟩, rfl, rfl⟩

theorem witness_EveryStepKeepsTheTable :
    (running 0x02000061 (withArgl 2 aTable)).TableInv ∧
    nextWith (step (running 0x02000061 (withArgl 2 aTable))) (fun t => t.freqOf 0x61 == 5) :=
  ⟨tableInv_running _ (tableInv_withArgl _ aTable_tableInv), by decide +kernel⟩

theorem witness_EveryStepKeepsTheInvariant :
    (running 0x04000000 abcTable).Inv ∧
    nextWith (step (running 0x04000000 abcTable)) (fun t => t.phase == .tree && t.nodeAt 4 == innerOf 0 3 6) :=
  ⟨inv_running _ abcTable_inv, by decide +kernel⟩

end Sys2Proof.Tests
end

namespace Sys2Proof.Machine

open Sys2Proof

/-! ### Sums over the symbols -/

/-- A sum over the values below 2^w is a sum over the words of width w. -/
theorem sum_range_bitVec (w : Nat) (f : BitVec w → Nat) :
    ((List.range (2 ^ w)).map fun v => f (BitVec.ofNat w v)).sum = ∑ y : BitVec w, f y := by
  rw [← List.sum_toFinset _ List.nodup_range, List.toFinset_range, Finset.sum_range]
  exact Fintype.sum_equiv BitVec.equivFin.symm.toEquiv _ _ fun v =>
    congrArg f (BitVec.eq_of_toNat_eq (Nat.mod_eq_of_lt v.isLt))

/-- A sum over the symbol values 0..255 is a sum over the symbols. -/
theorem sum_range_sym (f : Sym → Nat) : ((List.range 256).map fun v => f (BitVec.ofNat 8 v)).sum = ∑ y : Sym, f y :=
  sum_range_bitVec 8 f

/-- A sum along a sequence of symbols counts every symbol as often as it occurs. -/
theorem sum_map_eq_sum_count (S : List Sym) (f : Sym → Nat) : (S.map f).sum = ∑ y : Sym, S.count y * f y := by
  rw [Finset.sum_list_map_count]
  exact Finset.sum_subset (Finset.subset_univ _) fun y _ hy => by
    rw [List.count_eq_zero_of_not_mem (by simpa using hy), zero_smul]

/-- TOTAL is the sum of the counts (R42). -/
theorem totalCount_eq_sum (s : State) : s.totalCount = ∑ y : Sym, (s.freqOf y).toNat := by
  rw [← sum_range_sym, State.totalCount]
  congr 1
  refine List.ext_getElem (by simp) fun v hv _ => ?_
  have hv' : v < 256 := by simpa using hv
  simp [State.freqOf, Nat.mod_eq_of_lt hv']

/-- Only the keys have a count, so TOTAL is the sum of theirs (R42, R46). -/
theorem totalCount_eq_sum_keys {s : State} (h : s.TableInv) :
    s.totalCount = (s.keys.map fun y => (s.freqOf y).toNat).sum := by
  obtain ⟨_, hnodup, hfreq, _, _⟩ := h
  rw [totalCount_eq_sum, ← List.sum_toFinset _ hnodup]
  refine (Finset.sum_subset (Finset.subset_univ _) fun y _ hy => ?_).symm
  have : s.freqOf y = 0 := by simpa using mt (hfreq y).mp (by simpa using hy)
  simp [this]

theorem keys_eq_map_orderAt {s : State} (h : s.k.toNat ≤ 256) : s.keys = (List.range s.k.toNat).map s.orderAt := by
  have hlen := keys_length s h
  refine List.ext_getElem (by simpa using hlen) fun i hi _ => ?_
  simp [keys_getElem s hi]

/-- An empty table counts nothing (R42). -/
theorem totalCount_of_no_key {s : State} (h : s.TableInv) (hk : s.k = 0) : s.totalCount = 0 := by
  rw [totalCount_eq_sum_keys h, State.keys, hk]; rfl

theorem freqOf_of_no_key {s : State} (h : s.TableInv) (hk : s.k = 0) (y : Sym) : s.freqOf y = 0 := by
  obtain ⟨_, _, hfreq, _, _⟩ := h
  have := hfreq y
  simpa [State.keys, hk] using this

/-- LIDX of a symbol with a count is the index of its key (R46, R87). -/
theorem leafIndex_of_counted {s : State} (h : s.TableInv) {y : Sym} (hy : s.freqOf y ≠ 0) :
    (s.leafIndex y).toNat < s.k.toNat ∧ s.orderAt (s.leafIndex y).toNat = y := by
  obtain ⟨hk, _, hfreq, _, _⟩ := h
  exact leafIndex_spec hk hy ((hfreq y).mp hy)

/-- When FREQ counts an input, every symbol of it has a count. -/
theorem freqOf_ne_zero_of_mem {s : State} {S : List Sym} (h : ∀ y, (s.freqOf y).toNat = S.count y) {y : Sym} (hy : y ∈ S) :
    s.freqOf y ≠ 0 := fun e => by
  have hzero := h y
  rw [e] at hzero
  exact List.count_eq_zero.mp hzero.symm hy

/-! ### Commands performed one after the other (R78, R149) -/

/-- The state in which a command performed with this ARG value runs (R28, R78). -/
def State.issued (s : State) (i : Instr) (a : Word) : State := { s with arg := a }.issue (encode i)

section
variable (s : State) (i : Instr) (a : Word)

@[simp] theorem State.issued_argl : (s.issued i a).argl = a := rfl
@[simp] theorem State.issued_phase : (s.issued i a).phase = s.phase := rfl
@[simp] theorem State.issued_k : (s.issued i a).k = s.k := rfl
@[simp] theorem State.issued_freq : (s.issued i a).freq = s.freq := rfl
@[simp] theorem State.issued_order : (s.issued i a).order = s.order := rfl
@[simp] theorem State.issued_node : (s.issued i a).node = s.node := rfl
@[simp] theorem State.issued_lut : (s.issued i a).lut = s.lut := rfl
@[simp] theorem State.issued_decCur : (s.issued i a).decCur = s.decCur := rfl
@[simp] theorem State.issued_decFell : (s.issued i a).decFell = s.decFell := rfl
@[simp] theorem State.issued_freqOf (y : Sym) : (s.issued i a).freqOf y = s.freqOf y := rfl
@[simp] theorem State.issued_totalCount : (s.issued i a).totalCount = s.totalCount := rfl
@[simp] theorem State.issued_rootPos : (s.issued i a).rootPos = s.rootPos := rfl

end

/-- A command performed runs in the state the host's two writes leave. -/
theorem performOk_of_exec {s t : State} {i : Instr} {a : Word} (h : exec i (s.issued i a) = .next t) (ht : t.lastErr = .ok) :
    performOk i a s = some t := by
  have hp : perform i a s = .next t := h
  simp [performOk, hp, ht]

theorem performAll_cons {s t : State} {i : Instr} {a : Word} (h : performOk i a s = some t) (rest : List (Instr × Word)) :
    performAll ((i, a) :: rest) s = performAll rest t := by
  rw [performAll, h]; rfl

theorem performAll_append (xs ys : List (Instr × Word)) (s : State) :
    performAll (xs ++ ys) s = (performAll xs s).bind (performAll ys) := by
  induction xs generalizing s with
  | nil => rfl
  | cons c xs ih =>
    rw [List.cons_append]
    cases h : performOk c.1 c.2 s with
    | none => rw [performAll, performAll, h]; rfl
    | some t => rw [performAll_cons h, performAll_cons h, ih]

/-! ### Loading the table (R13, R88) -/

/-- LOAD_FREQ commands for symbols with their counts, in order. -/
def loadCommands (L : List (Sym × Word)) : List (Instr × Word) := L.map fun p => (.loadFreq p.1, p.2)

/-- What a list of loads adds to the count of `y`. -/
def loadedCount (L : List (Sym × Word)) (y : Sym) : Nat := (L.map fun p => if p.1 = y then p.2.toNat else 0).sum

/-- What a list of loads adds to TOTAL. -/
def loadedTotal (L : List (Sym × Word)) : Nat := (L.map fun p => p.2.toNat).sum

theorem tableAfterLoad_freq (s : State) (y : Sym) (c : Word) :
    (s.tableAfterLoad y c).freq = s.freq.set y.toNat (s.freqOf y + c) y.isLt := by
  unfold State.tableAfterLoad State.addKey; split <;> rfl

theorem tableAfterLoad_order (s : State) (y : Sym) (c : Word) :
    (s.tableAfterLoad y c).order = if s.freqOf y = 0 then orderSet s.order s.k.toNat y else s.order := by
  unfold State.tableAfterLoad State.addKey; split <;> rfl

theorem tableAfterLoad_k (s : State) (y : Sym) (c : Word) :
    (s.tableAfterLoad y c).k = if s.freqOf y = 0 then s.k + 1 else s.k := by
  unfold State.tableAfterLoad State.addKey; split <;> rfl

@[simp] theorem tableAfterLoad_node (s : State) (y : Sym) (c : Word) : (s.tableAfterLoad y c).node = s.node := by
  unfold State.tableAfterLoad State.addKey; split <;> rfl

@[simp] theorem tableAfterLoad_phase (s : State) (y : Sym) (c : Word) : (s.tableAfterLoad y c).phase = s.phase := by
  unfold State.tableAfterLoad State.addKey; split <;> rfl

/-- A load's table is a function of the table before it. -/
theorem tableAfterLoad_congr {s u : State} (hf : u.freq = s.freq) (ho : u.order = s.order) (hk : u.k = s.k) (y : Sym)
    (c : Word) :
    (u.tableAfterLoad y c).freq = (s.tableAfterLoad y c).freq ∧
    (u.tableAfterLoad y c).order = (s.tableAfterLoad y c).order ∧
    (u.tableAfterLoad y c).k = (s.tableAfterLoad y c).k := by
  have h : u.freqOf y = s.freqOf y := by simp only [State.freqOf, hf]
  simp only [tableAfterLoad_freq, tableAfterLoad_order, tableAfterLoad_k, h, hf, ho, hk, and_self]

/-- LOAD_FREQ past its checks (R88). -/
theorem exec_loadFreq_of_checks {s : State} {y : Sym} (hp : s.phase = .load) (hc : s.argl ≠ 0)
    (ht : s.totalCount + s.argl.toNat ≤ Config.freqMax) :
    exec (.loadFreq y) s = ((s.tableAfterLoad y s.argl).withResults ((s.tableAfterLoad y s.argl).freqOf y)
      (((s.tableAfterLoad y s.argl).leafIndex y).setWidth 32)).complete := by
  rw [exec, execLoadFreq, if_neg (fun h => h hp), if_neg hc, if_neg (Nat.not_lt.mpr ht)]

/-- A LOAD_FREQ that passes its checks is the load of the table; NODE and PHASE stay (R88). -/
theorem performOk_loadFreq {s : State} {y : Sym} {c : Word} (hp : s.phase = .load) (hc : c ≠ 0)
    (ht : s.totalCount + c.toNat ≤ Config.freqMax) :
    ∃ t, performOk (.loadFreq y) c s = some t ∧ t.freq = (s.tableAfterLoad y c).freq ∧
      t.order = (s.tableAfterLoad y c).order ∧ t.k = (s.tableAfterLoad y c).k ∧ t.phase = .load ∧ t.node = s.node := by
  have he := exec_loadFreq_of_checks (s := s.issued (.loadFreq y) c) (y := y) hp hc ht
  obtain ⟨hfreq, horder, hk⟩ := tableAfterLoad_congr (s := s) (u := s.issued (.loadFreq y) c) rfl rfl rfl y c
  exact ⟨_, performOk_of_exec he rfl, hfreq, horder, hk, by simpa using hp, by simp⟩

/-- Loads of positive counts whose total fits all succeed, keep R46, leave NODE and PHASE, and add every count (R88). -/
theorem performAll_loadCommands {s : State} {L : List (Sym × Word)} (hs : s.TableInv) (hp : s.phase = .load)
    (hc : ∀ p ∈ L, p.2 ≠ 0) (ht : s.totalCount + loadedTotal L ≤ Config.freqMax) :
    ∃ t, performAll (loadCommands L) s = some t ∧ t.TableInv ∧ t.phase = .load ∧ t.node = s.node ∧
      ∀ y, (t.freqOf y).toNat = (s.freqOf y).toNat + loadedCount L y := by
  induction L generalizing s with
  | nil => exact ⟨s, rfl, hs, hp, rfl, fun y => by simp [loadedCount]⟩
  | cons p L ih =>
    obtain ⟨y, c⟩ := p
    have hc0 : c ≠ 0 := hc (y, c) List.mem_cons_self
    have htot : s.totalCount + c.toNat + loadedTotal L ≤ Config.freqMax := by
      simpa [loadedTotal, Nat.add_assoc] using ht
    have htc : s.totalCount + c.toNat ≤ Config.freqMax := by omega
    obtain ⟨u, hu, hfreq, horder, hk, hphase, hnode⟩ := performOk_loadFreq (y := y) hp hc0 htc
    have huTotal : u.totalCount = s.totalCount + c.toNat := by
      rw [← totalCount_tableAfterLoad s y c htc, State.totalCount, State.totalCount, hfreq]
    have huFreq (z : Sym) : (u.freqOf z).toNat = (s.freqOf z).toNat + if y = z then c.toNat else 0 := by
      have : u.freqOf z = (s.tableAfterLoad y c).freqOf z := by rw [State.freqOf, State.freqOf]; simp only [hfreq]
      rw [this, freqOf_tableAfterLoad]
      split
      · next e => subst e; exact toNat_freqOf_add s y c htc
      · rfl
    obtain ⟨t, hrun, htable, htphase, htnode, htFreq⟩ :=
      ih (tableInv_congr hk horder hfreq (tableInv_tableAfterLoad hs hc0 htc)) hphase
        (fun p hp => hc p (List.mem_cons_of_mem _ hp)) (by omega)
    refine ⟨t, ?_, htable, htphase, htnode.trans hnode, fun z => ?_⟩
    · rw [loadCommands, List.map_cons, performAll_cons hu]; exact hrun
    · rw [htFreq, huFreq]; simp [loadedCount, Nat.add_assoc]

/-! ### The two ways of loading an input (R11 to R13) -/

theorem firstOccurrences_nodup (S : List Sym) : (firstOccurrences S).Nodup := by
  induction S with
  | nil => exact List.nodup_nil
  | cons y S ih => exact List.nodup_cons.mpr ⟨by simp, ih.filter _⟩

theorem mem_firstOccurrences {S : List Sym} {y : Sym} : y ∈ firstOccurrences S ↔ y ∈ S := by
  induction S with
  | nil => rfl
  | cons z S ih => by_cases h : y = z <;> simp [firstOccurrences, h, ih]

/-- Way (a) loads the symbols one at a time. -/
theorem loadPerOccurrence_eq (S : List Sym) : loadPerOccurrence S = loadCommands (S.map fun y => (y, 1)) := by
  simp [loadPerOccurrence, loadCommands]

/-- Way (b) loads each symbol's whole count. -/
theorem loadPerSymbol_eq (S : List Sym) :
    loadPerSymbol S = loadCommands ((firstOccurrences S).map fun y => (y, BitVec.ofNat 32 (S.count y))) := by
  simp [loadPerSymbol, loadCommands, analyze]

/-- The loads of an input: positive counts that add up to the number of occurrences of every symbol, and in all to the length. -/
def LoadsInput (L : List (Sym × Word)) (S : List Sym) : Prop :=
  (∀ p ∈ L, p.2 ≠ 0) ∧ loadedTotal L = S.length ∧ ∀ y, loadedCount L y = S.count y

theorem loadsInput_perOccurrence (S : List Sym) : LoadsInput (S.map fun y => (y, 1)) S := by
  refine ⟨by simp, ?_, fun y => ?_⟩
  · simp [loadedTotal, Function.comp_def]
  · induction S with
    | nil => rfl
    | cons z S ih =>
      simp only [loadedCount, List.map_cons, List.sum_cons, List.count_cons] at ih ⊢
      rw [ih]; simp [Nat.add_comm]

theorem loadsInput_perSymbol {S : List Sym} (hS : S.length ≤ Config.freqMax) :
    LoadsInput ((firstOccurrences S).map fun y => (y, BitVec.ofNat 32 (S.count y))) S := by
  have hcount (y : Sym) : (BitVec.ofNat 32 (S.count y)).toNat = S.count y := by
    have := List.count_le_length (a := y) (l := S)
    simp only [Config.freqMax] at hS
    exact Nat.mod_eq_of_lt (by omega)
  refine ⟨?_, ?_, fun y => ?_⟩
  · simp only [List.mem_map, forall_exists_index, and_imp]
    rintro _ y hy rfl h0
    have : S.count y = 0 := by rw [← hcount y]; exact congrArg BitVec.toNat h0
    exact List.count_eq_zero.mp this (mem_firstOccurrences.mp hy)
  · have hset : (firstOccurrences S).toFinset = S.toFinset := by ext y; simp [mem_firstOccurrences]
    rw [loadedTotal, List.map_map, ← List.sum_toFinset_count_eq_length S, ← hset,
      List.sum_toFinset _ (firstOccurrences_nodup S)]
    simp only [Function.comp_def, hcount]
  · simp only [loadedCount, List.map_map, Function.comp_def, hcount]
    rw [← List.sum_toFinset _ (firstOccurrences_nodup S), Finset.sum_ite_eq']
    by_cases hy : y ∈ S
    · simp [mem_firstOccurrences, hy]
    · simp [mem_firstOccurrences, hy, List.count_eq_zero_of_not_mem]

/-- Either way of R13 loads an input into an empty table: every symbol's count is its number of occurrences. -/
theorem performAll_load {S : List Sym} {s : State} {load : List (Instr × Word)} (hS : S.length ≤ Config.freqMax)
    (hs : s.TableInv) (hp : s.phase = .load) (hk : s.k = 0)
    (hload : load = loadPerOccurrence S ∨ load = loadPerSymbol S) :
    ∃ t, performAll load s = some t ∧ t.TableInv ∧ t.phase = .load ∧ t.node = s.node ∧
      ∀ y, (t.freqOf y).toNat = S.count y := by
  have hL : ∃ L, load = loadCommands L ∧ LoadsInput L S := by
    rcases hload with rfl | rfl
    · exact ⟨_, loadPerOccurrence_eq S, loadsInput_perOccurrence S⟩
    · exact ⟨_, loadPerSymbol_eq S, loadsInput_perSymbol hS⟩
  obtain ⟨L, rfl, hpos, htotal, hcount⟩ := hL
  obtain ⟨t, hrun, htable, hphase, hnode, hfreq⟩ := performAll_loadCommands hs hp hpos
    (by rw [totalCount_of_no_key hs hk, htotal]; omega)
  exact ⟨t, hrun, htable, hphase, hnode, fun y => by rw [hfreq, hcount, freqOf_of_no_key hs hk]; simp⟩

/-! ### BUILD gives a tree (R48, R94) -/

/-- The internal nodes k..n-1. -/
def internalsIn (k n : Nat) : List Nat := (List.range n).drop k

/-- The children of the nodes k..n-1, LEFT and RIGHT of each. -/
def childrenIn (nodes : Vector Node 511) (k n : Nat) : List Nat :=
  (internalsIn k n).flatMap fun i => [(nodeIn nodes i).left.toNat, (nodeIn nodes i).right.toNat]

theorem internals_eq (s : State) : s.internals = internalsIn s.k.toNat s.nnode := rfl

theorem children_eq (s : State) : s.children = childrenIn s.node s.k.toNat s.nnode := rfl

@[simp] theorem mem_internalsIn {k n i : Nat} : i ∈ internalsIn k n ↔ k ≤ i ∧ i < n := by
  simp only [internalsIn, List.mem_drop_iff_getElem, List.length_range, List.getElem_range]
  exact ⟨fun ⟨j, hj, e⟩ => by omega, fun ⟨hk, hn⟩ => ⟨i - k, by omega, by omega⟩⟩

theorem internalsIn_self (k : Nat) : internalsIn k k = [] := by simp [internalsIn]

theorem internalsIn_succ {k n : Nat} (h : k ≤ n) : internalsIn k (n + 1) = internalsIn k n ++ [n] := by
  rw [internalsIn, List.range_succ, List.drop_append_of_le_length (by simpa using h)]; rfl

theorem childrenIn_self (nodes : Vector Node 511) (k : Nat) : childrenIn nodes k k = [] := by
  rw [childrenIn, internalsIn_self]; rfl

theorem childrenIn_succ (nodes : Vector Node 511) {k n : Nat} (h : k ≤ n) :
    childrenIn nodes k (n + 1) = childrenIn nodes k n ++ [(nodeIn nodes n).left.toNat, (nodeIn nodes n).right.toNat] := by
  simp [childrenIn, internalsIn_succ h]

theorem mem_childrenIn {nodes : Vector Node 511} {k n j : Nat} :
    j ∈ childrenIn nodes k n ↔
      ∃ i, k ≤ i ∧ i < n ∧ (j = (nodeIn nodes i).left.toNat ∨ j = (nodeIn nodes i).right.toNat) := by
  simp [childrenIn, and_assoc]

theorem childrenIn_congr {a b : Vector Node 511} {k n : Nat} (h : ∀ i < n, nodeIn a i = nodeIn b i) :
    childrenIn a k n = childrenIn b k n :=
  List.flatMap_congr fun i hi => by rw [h i (mem_internalsIn.mp hi).2]

/-- An internal node of a tree (R47, R48): two distinct earlier children and the sum of their frequencies. -/
def IsInternal (nodes : Vector Node 511) (i : Nat) : Prop :=
  (nodeIn nodes i).leaf = false ∧ (nodeIn nodes i).sym = 0 ∧
  (nodeIn nodes i).left.toNat < i ∧ (nodeIn nodes i).right.toNat < i ∧ (nodeIn nodes i).left ≠ (nodeIn nodes i).right ∧
  (nodeIn nodes i).freq.toNat =
    (nodeIn nodes (nodeIn nodes i).left.toNat).freq.toNat + (nodeIn nodes (nodeIn nodes i).right.toNat).freq.toNat

theorem isInternal_congr {a b : Vector Node 511} {i : Nat} (h : ∀ j ≤ i, nodeIn a j = nodeIn b j) (hb : IsInternal b i) :
    IsInternal a i := by
  obtain ⟨hleaf, hsym, hl, hr, hne, hfreq⟩ := hb
  rw [IsInternal, h i le_rfl, h _ hl.le, h _ hr.le]
  exact ⟨hleaf, hsym, hl, hr, hne, hfreq⟩

/-- What BUILD's loop keeps (R92, R94): the leaves at 0..K-1, finished internal nodes from there up to `nxt`, and every node so far
either in the queue or a child of one finished node, with the queue's frequencies adding up to TOTAL. -/
structure MergeInv (s : State) (nodes : Vector Node 511) (q : List Nat) (nxt : Nat) : Prop where
  leaves : ∀ i < s.k.toNat, nodeIn nodes i = s.leafNode i
  le_nxt : s.k.toNat ≤ nxt
  count : nxt + q.length = 2 * s.k.toNat
  internal : ∀ i, s.k.toNat ≤ i → i < nxt → IsInternal nodes i
  perm : (childrenIn nodes s.k.toNat nxt ++ q).Perm (List.range nxt)
  total : (q.map fun j => (nodeIn nodes j).freq.toNat).sum = s.totalCount
  past : ∀ i, nxt ≤ i → nodeIn nodes i = Node.zero

theorem MergeInv.lt_nxt {s : State} {nodes : Vector Node 511} {q : List Nat} {nxt j : Nat} (h : MergeInv s nodes q nxt)
    (hj : j ∈ q) : j < nxt :=
  List.mem_range.mp (h.perm.mem_iff.mp (List.mem_append_right _ hj))

/-- The leaves, with every key in the queue, start the loop (R94). -/
theorem mergeInv_withLeaves {s : State} (hs : s.TableInv) (hz : ∀ i < 511, s.nodeAt i = Node.zero) :
    MergeInv s s.withLeaves (List.range s.k.toNat) s.k.toNat := by
  have hk : s.k.toNat ≤ 256 := hs.1
  have hleaf : ∀ i < s.k.toNat, nodeIn s.withLeaves i = s.leafNode i := fun i hi => by
    rw [withLeaves_get, if_pos ⟨hi, by omega⟩]
  refine ⟨hleaf, le_rfl, by simp; omega, fun i _ _ => by omega, by simp [childrenIn_self], ?_, fun i hi => ?_⟩
  · rw [totalCount_eq_sum_keys hs, keys_eq_map_orderAt hk, List.map_map]
    congr 1
    exact List.map_congr_left fun i hi => by rw [hleaf i (List.mem_range.mp hi)]; rfl
  · rw [withLeaves_get, if_neg (by omega)]
    by_cases h : i < 511
    · exact hz i h
    · exact nodeIn_of_ge _ (by omega)

/-- The merged node is an internal node, its frequency exact while the sum fits (R94, R99). -/
theorem isInternal_mergedNode {nodes : Vector Node 511} {a b nxt : Nat} (ha : a < nxt) (hb : b < nxt) (hab : a ≠ b)
    (hnxt : nxt < 511) (hf : (nodeIn nodes a).freq.toNat + (nodeIn nodes b).freq.toNat ≤ Config.freqMax) :
    IsInternal (nodeSet nodes nxt (mergedNode nodes a b)) nxt := by
  have ha' : a % 2 ^ 9 = a := Nat.mod_eq_of_lt (by omega)
  have hb' : b % 2 ^ 9 = b := Nat.mod_eq_of_lt (by omega)
  rw [IsInternal, nodeIn_nodeSet_self _ _ hnxt]
  simp only [mergedNode, BitVec.toNat_ofNat, ha', hb', nodeIn_nodeSet_ne _ _ ha.ne', nodeIn_nodeSet_ne _ _ hb.ne']
  refine ⟨trivial, trivial, ha, hb, fun e => hab ?_, ?_⟩
  · have := congrArg BitVec.toNat e
    rwa [BitVec.toNat_ofNat, BitVec.toNat_ofNat, ha', hb'] at this
  · rw [BitVec.toNat_add, Nat.mod_eq_of_lt]
    simp only [Config.freqMax] at hf
    omega

/-- One merge keeps the loop's invariant (R94). -/
theorem MergeInv.merge {s : State} {nodes : Vector Node 511} {q q1 q2 : List Nat} {nxt a b : Nat} (hs : s.TableInv)
    (h : MergeInv s nodes q nxt) (ha : popLeast nodes q = some (a, q1)) (hb : popLeast nodes q1 = some (b, q2)) :
    MergeInv s (nodeSet nodes nxt (mergedNode nodes a b)) (q2 ++ [nxt]) (nxt + 1) := by
  obtain ⟨hk, -, -, htotal, -⟩ := hs
  have hq : q.Perm (a :: b :: q2) := (popLeast_perm ha).trans ((popLeast_perm hb).cons a)
  have hlen : q.length = q2.length + 2 := hq.length_eq
  have hcount := h.count
  have hle := h.le_nxt
  have hnxt : nxt < 511 := by omega
  have haN : a < nxt := h.lt_nxt (hq.mem_iff.mpr (by simp))
  have hbN : b < nxt := h.lt_nxt (hq.mem_iff.mpr (by simp))
  have hab : a ≠ b := by
    have hnodup := hq.nodup_iff.mp (List.nodup_append.mp (h.perm.nodup_iff.mpr List.nodup_range)).2.1
    exact fun e => (List.nodup_cons.mp hnodup).1 (by simp [e])
  have hsum : (nodeIn nodes a).freq.toNat + ((nodeIn nodes b).freq.toNat + (q2.map fun j => (nodeIn nodes j).freq.toNat).sum)
      = s.totalCount := by
    rw [← h.total, (hq.map _).sum_eq]; simp
  have hnew := isInternal_mergedNode (nodes := nodes) haN hbN hab hnxt (by omega)
  have hsame : ∀ i < nxt, nodeIn (nodeSet nodes nxt (mergedNode nodes a b)) i = nodeIn nodes i := fun i hi =>
    nodeIn_nodeSet_ne _ _ hi.ne'
  refine ⟨fun i hi => ?_, by omega, by simp; omega, fun i hik hin => ?_, ?_, ?_, fun i hi => ?_⟩
  · rw [hsame i (by omega), h.leaves i hi]
  · rcases Nat.lt_succ_iff_lt_or_eq.mp hin with hlt | rfl
    · exact isInternal_congr (fun j hj => hsame j (by omega)) (h.internal i hik hlt)
    · exact hnew
  · have hchildren : childrenIn (nodeSet nodes nxt (mergedNode nodes a b)) s.k.toNat (nxt + 1) =
        childrenIn nodes s.k.toNat nxt ++ [a, b] := by
      rw [childrenIn_succ _ hle, childrenIn_congr hsame, nodeIn_nodeSet_self _ _ hnxt]
      simp only [mergedNode, BitVec.toNat_ofNat]
      rw [Nat.mod_eq_of_lt (by omega), Nat.mod_eq_of_lt (by omega)]
    rw [hchildren, List.range_succ, ← List.append_assoc, List.append_assoc _ [a, b]]
    exact (((hq.symm.append_left _).trans h.perm).append_right _)
  · have hq2 : ∀ j ∈ q2, nodeIn (nodeSet nodes nxt (mergedNode nodes a b)) j = nodeIn nodes j := fun j hj =>
      hsame j (h.lt_nxt (hq.mem_iff.mpr (by simp [hj])))
    have hfreq : (nodeIn (nodeSet nodes nxt (mergedNode nodes a b)) nxt).freq.toNat =
        (nodeIn nodes a).freq.toNat + (nodeIn nodes b).freq.toNat := by
      rw [nodeIn_nodeSet_self _ _ hnxt]
      simp only [Config.freqMax] at htotal
      simp only [mergedNode, BitVec.toNat_add]
      exact Nat.mod_eq_of_lt (by omega)
    rw [List.map_append, List.sum_append, List.map_congr_left fun j hj => by rw [hq2 j hj]]
    simp only [List.map_cons, List.map_nil, List.sum_cons, List.sum_nil, hfreq]
    omega
  · rw [nodeIn_nodeSet_ne _ _ (by omega), h.past i (by omega)]

/-- The loop keeps its invariant to the end, where at most one candidate is left (R94). -/
theorem mergeLoop_mergeInv {s : State} (hs : s.TableInv) {fuel : Nat} {nodes : Vector Node 511} {q : List Nat} {nxt : Nat}
    (h : MergeInv s nodes q nxt) (hfuel : q.length ≤ fuel + 1) :
    ∃ q' nxt', q'.length ≤ 1 ∧ MergeInv s (mergeLoop fuel nodes q nxt) q' nxt' := by
  induction fuel generalizing nodes q nxt with
  | zero => exact ⟨q, nxt, hfuel, h⟩
  | succ fuel ih =>
    rcases mergeLoop_succ fuel nodes q nxt with ⟨hq, e⟩ | ⟨a, q1, b, q2, ha, hb, e⟩
    · exact ⟨q, nxt, by omega, by rw [e]; exact h⟩
    · have hq1 := popLeast_length ha
      have hq2 := popLeast_length hb
      rw [e]
      exact ih (h.merge hs ha hb) (by simp; omega)

/-- The node made last is in the queue: a finished node's children come before it. -/
theorem MergeInv.last_mem {s : State} {nodes : Vector Node 511} {q : List Nat} {nxt : Nat} (h : MergeInv s nodes q nxt)
    (hnxt : 0 < nxt) : nxt - 1 ∈ q := by
  have hmem : nxt - 1 ∈ childrenIn nodes s.k.toNat nxt ++ q := h.perm.mem_iff.mpr (by simp; omega)
  refine (List.mem_append.mp hmem).resolve_left fun hc => ?_
  obtain ⟨i, hki, hi, hchild⟩ := mem_childrenIn.mp hc
  obtain ⟨-, -, hl, hr, -, -⟩ := h.internal i hki hi
  omega

/-- At the end of the loop NNODE nodes are made, and the root alone is in the queue; with no key nothing is. -/
theorem MergeInv.final {s : State} {nodes : Vector Node 511} {q : List Nat} {nxt : Nat} (h : MergeInv s nodes q nxt)
    (hq : q.length ≤ 1) : s.nnode = nxt ∧ (s.k = 0 ∧ nxt = 0 ∨ s.k ≠ 0 ∧ 0 < nxt ∧ q = [nxt - 1]) := by
  have hcount := h.count
  have hle := h.le_nxt
  have hk0 : s.k = 0 ↔ s.k.toNat = 0 := ⟨fun e => by simp [e], fun e => BitVec.eq_of_toNat_eq (by simpa using e)⟩
  rcases Nat.eq_zero_or_pos nxt with hnxt | hnxt
  · have hk : s.k = 0 := hk0.mpr (by omega)
    exact ⟨by rw [State.nnode, if_pos hk, hnxt], .inl ⟨hk, hnxt⟩⟩
  · have hlast := h.last_mem hnxt
    have hlen : q.length = 1 := le_antisymm hq (List.length_pos_of_mem hlast)
    have hk : s.k ≠ 0 := fun e => by have := hk0.mp e; omega
    obtain ⟨r, rfl⟩ := List.length_eq_one_iff.mp hlen
    exact ⟨by rw [State.nnode, if_neg hk]; omega, .inr ⟨hk, hnxt, by rw [List.mem_singleton.mp hlast]⟩⟩

/-- BUILD writes a full binary tree over one leaf for each key (R48, R101): TREE and CODE hold it with this table. -/
theorem treeShape_of_builtNodes {s t : State} (hs : s.TableInv) (hz : ∀ i < 511, s.nodeAt i = Node.zero)
    (hk : t.k = s.k) (ho : t.order = s.order) (hf : t.freq = s.freq) (hn : t.node = s.builtNodes) : t.TreeShape := by
  refine treeShape_congr (s := { s with node := s.builtNodes }) hk ho hf hn ?_
  obtain ⟨q, nxt, hq, h⟩ := mergeLoop_mergeInv hs (mergeInv_withLeaves hs hz) (fuel := s.k.toNat) (by simp)
  rw [← State.builtNodes] at h
  obtain ⟨hnnode, hend⟩ := h.final hq
  have hinternal : ∀ i ∈ internalsIn s.k.toNat s.nnode, IsInternal s.builtNodes i := fun i hi => by
    rw [mem_internalsIn, hnnode] at hi
    exact h.internal i hi.1 hi.2
  have hchildren : (childrenIn s.builtNodes s.k.toNat s.nnode).Perm (List.range (s.nnode - 1)) := by
    rw [hnnode]
    rcases hend with ⟨hk0, rfl⟩ | ⟨-, hpos, rfl⟩
    · simp [childrenIn, internalsIn]
    · have hsplit : List.range nxt = List.range (nxt - 1) ++ [nxt - 1] := by
        rw [← List.range_succ, Nat.succ_eq_add_one, Nat.sub_add_cancel hpos]
      exact (List.perm_append_right_iff _).mp (hsplit ▸ h.perm)
  have hroot : s.k ≠ 0 → (nodeIn s.builtNodes (s.nnode - 1)).freq.toNat = s.totalCount := fun hk0 => by
    obtain ⟨h0, -⟩ | ⟨-, -, rfl⟩ := hend
    · exact absurd h0 hk0
    · have := h.total
      rw [hnnode]
      simpa using this
  exact ⟨h.leaves, hinternal, hchildren, hroot, fun i _ hi => h.past i (hnnode ▸ hi)⟩

/-! ### Paths of the tree (R104) -/

/-- The child an edge leads to, 0 to LEFT and 1 to RIGHT (R104). -/
def childOf (nodes : Vector Node 511) (n : NodeIdx) (b : Bool) : NodeIdx :=
  if b then (nodeIn nodes n.toNat).right else (nodeIn nodes n.toNat).left

theorem descend_internal {nodes : Vector Node 511} {n : NodeIdx} (h : (nodeIn nodes n.toNat).leaf = false) (b : Bool)
    (p : List Bool) : descend nodes n (b :: p) = descend nodes (childOf nodes n b) p := by
  simp [descend, childOf, h]

theorem descend_leaf {nodes : Vector Node 511} {n : NodeIdx} (h : (nodeIn nodes n.toNat).leaf = true) (b : Bool)
    (p : List Bool) : descend nodes n (b :: p) = none := by
  simp [descend, h]

theorem descend_append (nodes : Vector Node 511) (n : NodeIdx) (p q : List Bool) :
    descend nodes n (p ++ q) = (descend nodes n p).bind fun m => descend nodes m q := by
  induction p generalizing n with
  | nil => rfl
  | cons b p ih =>
    cases h : (nodeIn nodes n.toNat).leaf with
    | true => rw [List.cons_append, descend_leaf h, descend_leaf h]; rfl
    | false => rw [List.cons_append, descend_internal h, descend_internal h, ih]

/-- The edges `p` lead from `n` to a leaf of the symbol `y`. -/
def LeafPath (nodes : Vector Node 511) (n : NodeIdx) (p : List Bool) (y : Sym) : Prop :=
  ∃ l, descend nodes n p = some l ∧ (nodeIn nodes l.toNat).leaf = true ∧ (nodeIn nodes l.toNat).sym = y

theorem leafPath_leaf {nodes : Vector Node 511} {n : NodeIdx} (h : (nodeIn nodes n.toNat).leaf = true) {p : List Bool}
    {y : Sym} : LeafPath nodes n p y ↔ p = [] ∧ (nodeIn nodes n.toNat).sym = y := by
  cases p with
  | nil => simp [LeafPath, descend, h]
  | cons b p => simp [LeafPath, descend_leaf h]

theorem leafPath_nil_internal {nodes : Vector Node 511} {n : NodeIdx} (h : (nodeIn nodes n.toNat).leaf = false) {y : Sym} :
    ¬ LeafPath nodes n [] y := by
  simp [LeafPath, descend, h]

theorem leafPath_cons {nodes : Vector Node 511} {n : NodeIdx} (h : (nodeIn nodes n.toNat).leaf = false) {b : Bool}
    {p : List Bool} {y : Sym} : LeafPath nodes n (b :: p) y ↔ LeafPath nodes (childOf nodes n b) p y := by
  rw [LeafPath, descend_internal h]; rfl

/-- A path with an edge leaves an internal node. -/
theorem LeafPath.internal_of_cons {nodes : Vector Node 511} {n : NodeIdx} {b : Bool} {p : List Bool} {y : Sym}
    (h : LeafPath nodes n (b :: p) y) : (nodeIn nodes n.toNat).leaf = false := by
  cases hl : (nodeIn nodes n.toNat).leaf with
  | true => exact absurd ((leafPath_leaf hl).mp h).1 (List.cons_ne_nil _ _)
  | false => rfl

/-! ### The entries GENERATE writes (R105, R108, R110) -/

/-- The bits of a path that starts at depth `len`: bit len + i is its i-th edge (R105). -/
def pathBits : Nat → List Bool → CodeBits
  | _, [] => 0
  | len, b :: p => (if b then 1#255 <<< len else 0) ||| pathBits (len + 1) p

theorem getLsbD_pathBits (len : Nat) (p : List Bool) (i : Nat) :
    (pathBits len p).getLsbD i = (decide (i < 255) && decide (len ≤ i) && p.getD (i - len) false) := by
  induction p generalizing len with
  | nil => simp [pathBits]
  | cons b p ih =>
    simp only [pathBits, BitVec.getLsbD_or, ih]
    rcases Nat.lt_trichotomy i len with h | rfl | h
    · cases b <;> simp [h, Nat.not_le.mpr h, show ¬ len + 1 ≤ i by omega]
    · cases b <;> simp
    · obtain ⟨d, rfl⟩ : ∃ d, i = len + 1 + d := ⟨i - (len + 1), by omega⟩
      cases b <;> simp [show len ≤ len + 1 + d by omega, show len + 1 + d - len = d + 1 by omega]

/-- The entry of a symbol whose path from depth `len` is `p`, after edges that left `bits` (R110). -/
def pathEntry (len : Nat) (bits : CodeBits) (p : List Bool) : LutEntry where
  valid := true
  len := BitVec.ofNat 8 (len + p.length)
  bits := bits ||| pathBits len p

theorem pathEntry_cons (len : Nat) (bits : CodeBits) (b : Bool) (p : List Bool) :
    pathEntry len bits (b :: p) = pathEntry (len + 1) (bits ||| if b then 1#255 <<< len else 0) p := by
  simp only [pathEntry, pathBits, List.length_cons, BitVec.or_assoc, Nat.add_assoc, Nat.add_comm 1]

/-- The code an entry holds is the path it was written for, up to the 255 bits of an entry (R9, R49). -/
theorem code_pathEntry {p : List Bool} (h : p.length ≤ 255) : (pathEntry 0 0 p).code = p := by
  have hlen : (BitVec.ofNat 8 p.length).toNat = p.length := Nat.mod_eq_of_lt (by omega)
  refine List.ext_getElem (by simp [LutEntry.code, pathEntry, hlen]) fun i _ hi => ?_
  have hbit : (pathBits 0 p).getLsbD i = p[i] := by
    rw [getLsbD_pathBits, Nat.sub_zero, List.getD_eq_getElem _ _ hi]
    simp [show i < 255 by omega]
  simpa [LutEntry.code, pathEntry] using hbit

/-- The walk writes the entry of every symbol with a leaf below `n` for a path to it, and leaves every other entry (R110). -/
theorem walk_spec {nodes : Vector Node 511} {m : Nat}
    (hc : ∀ i ≤ m, (nodeIn nodes i).leaf = false →
      (nodeIn nodes i).left.toNat < i ∧ (nodeIn nodes i).right.toNat < i)
    {fuel : Nat} {n : NodeIdx} (hn : n.toNat ≤ m) (hf : n.toNat < fuel) (len : Nat) (bits : CodeBits)
    (lut : Vector LutEntry 256) (y : Sym) :
    (∃ p, LeafPath nodes n p y ∧ lutIn (walk nodes fuel n len bits lut) y = pathEntry len bits p) ∨
    ((∀ p, ¬ LeafPath nodes n p y) ∧ lutIn (walk nodes fuel n len bits lut) y = lutIn lut y) := by
  induction fuel generalizing n len bits lut with
  | zero => omega
  | succ fuel ih =>
    cases hl : (nodeIn nodes n.toNat).leaf with
    | true =>
      rw [walk_leaf hl, lutIn_lutSet]
      by_cases hy : (nodeIn nodes n.toNat).sym = y
      · exact .inl ⟨[], (leafPath_leaf hl).mpr ⟨rfl, hy⟩, by simp [hy, pathEntry, pathBits]⟩
      · exact .inr ⟨fun p hp => hy ((leafPath_leaf hl).mp hp).2, if_neg hy⟩
    | false =>
      obtain ⟨hleft, hright⟩ := hc _ hn hl
      rw [walk_internal hl]
      rcases ih (n := (nodeIn nodes n.toNat).right) (by omega) (by omega) (len + 1) (bits ||| (1#255 <<< len))
        (walk nodes fuel (nodeIn nodes n.toNat).left (len + 1) bits lut) with ⟨p, hp, e⟩ | ⟨hr, e⟩
      · exact .inl ⟨true :: p, (leafPath_cons hl).mpr hp, by rw [e, pathEntry_cons]; rfl⟩
      · rw [e]
        rcases ih (n := (nodeIn nodes n.toNat).left) (by omega) (by omega) (len + 1) bits lut with ⟨p, hp, e⟩ | ⟨hl', e⟩
        · exact .inl ⟨false :: p, (leafPath_cons hl).mpr hp, by rw [e, pathEntry_cons]; simp⟩
        · refine .inr ⟨fun p hp => ?_, e⟩
          match p with
          | [] => exact leafPath_nil_internal hl hp
          | false :: p => exact hl' p ((leafPath_cons hl).mp hp)
          | true :: p => exact hr p ((leafPath_cons hl).mp hp)

/-! ### The paths of a full tree (R48) -/

section
variable {s : State}

theorem nnode_le (hk : s.k.toNat ≤ 256) : s.nnode ≤ 511 := by
  unfold State.nnode; split <;> omega

theorem nnode_eq (h : 1 ≤ s.k.toNat) : s.nnode = 2 * s.k.toNat - 1 :=
  if_neg fun e => by simp [e] at h

theorem treeShape_leaf (h : s.TreeShape) {i : Nat} (hi : i < s.k.toNat) : nodeIn s.node i = s.leafNode i := by
  obtain ⟨leaves, -⟩ := h
  exact leaves i hi

theorem treeShape_internal (h : s.TreeShape) {i : Nat} (hk : s.k.toNat ≤ i) (hi : i < s.nnode) : IsInternal s.node i := by
  obtain ⟨-, internals, -⟩ := h
  exact internals i (mem_internalsIn.mpr ⟨hk, hi⟩)

/-- Every node but the root is a child of an internal node. -/
theorem treeShape_parent (h : s.TreeShape) {i : Nat} (hi : i < s.nnode - 1) :
    ∃ j, s.k.toNat ≤ j ∧ j < s.nnode ∧ (i = (nodeIn s.node j).left.toNat ∨ i = (nodeIn s.node j).right.toNat) := by
  obtain ⟨-, -, children, -⟩ := h
  exact mem_childrenIn.mp (children.mem_iff.mpr (List.mem_range.mpr hi))

/-- A node that is no leaf is one of the internal nodes, its children before it. -/
theorem treeShape_children_lt (h : s.TreeShape) {i : Nat} (hi : i < s.nnode) (hl : (nodeIn s.node i).leaf = false) :
    s.k.toNat ≤ i ∧ (nodeIn s.node i).left.toNat < i ∧ (nodeIn s.node i).right.toNat < i := by
  have hk : s.k.toNat ≤ i := Nat.le_of_not_lt fun hlt => by
    rw [treeShape_leaf h hlt] at hl; exact Bool.noConfusion hl
  obtain ⟨-, -, hleft, hright, -, -⟩ := treeShape_internal h hk hi
  exact ⟨hk, hleft, hright⟩

theorem childOf_lt (h : s.TreeShape) {n : NodeIdx} (hn : n.toNat < s.nnode) (hl : (nodeIn s.node n.toNat).leaf = false)
    (b : Bool) : (childOf s.node n b).toNat < n.toNat := by
  obtain ⟨-, hleft, hright⟩ := treeShape_children_lt h hn hl
  cases b
  · exact hleft
  · exact hright

/-- Every edge goes to a smaller index and only the last ends among the leaves: a path has at most K - 1 edges (R107). -/
theorem LeafPath.length_le (h : s.TreeShape) {n : NodeIdx} {p : List Bool} {y : Sym} (hn : n.toNat < s.nnode)
    (hp : LeafPath s.node n p y) : p = [] ∨ p.length + s.k.toNat ≤ n.toNat + 1 := by
  induction p generalizing n with
  | nil => exact .inl rfl
  | cons b p ih =>
    have hl := hp.internal_of_cons
    have hchild := childOf_lt h hn hl b
    obtain ⟨hk, -, -⟩ := treeShape_children_lt h hn hl
    rcases ih (by omega) ((leafPath_cons hl).mp hp) with rfl | hle
    · exact .inr (by simp; omega)
    · exact .inr (by simp; omega)

/-- Every node is reached from the root: each but the root is a child (R48). -/
theorem exists_descend (h : s.TreeShape) (hk : s.k.toNat ≤ 256) {i : Nat} (hi : i < s.nnode) :
    ∃ p, descend s.node (BitVec.ofNat 9 (s.nnode - 1)) p = some (BitVec.ofNat 9 i) := by
  have hnnode := nnode_le hk
  induction hd : s.nnode - 1 - i using Nat.strong_induction_on generalizing i with
  | _ d ih =>
    subst hd
    by_cases hroot : i = s.nnode - 1
    · exact ⟨[], by rw [hroot]; rfl⟩
    · obtain ⟨j, hkj, hj, hchild⟩ := treeShape_parent h (i := i) (by omega)
      obtain ⟨hleaf, -, hleft, hright, -, -⟩ := treeShape_internal h hkj hj
      obtain ⟨p, hp⟩ := ih (s.nnode - 1 - j) (by omega) hj rfl
      have hjNat : (BitVec.ofNat 9 j).toNat = j := Nat.mod_eq_of_lt (by omega)
      have hstep (b : Bool) : descend s.node (BitVec.ofNat 9 (s.nnode - 1)) (p ++ [b]) =
          some (childOf s.node (BitVec.ofNat 9 j) b) := by
        rw [descend_append, hp, Option.bind_some, descend_internal (by rw [hjNat]; exact hleaf)]; rfl
      rcases hchild with rfl | rfl
      · exact ⟨p ++ [false], by rw [hstep]; simp [childOf, hjNat]⟩
      · exact ⟨p ++ [true], by rw [hstep]; simp [childOf, hjNat]⟩

/-- With two keys or more every key has a leaf below the root (R48). -/
theorem exists_leafPath (ht : s.TableInv) (h : s.TreeShape) {y : Sym} (hy : s.freqOf y ≠ 0) :
    ∃ p, LeafPath s.node (BitVec.ofNat 9 (s.nnode - 1)) p y := by
  obtain ⟨hlt, horder⟩ := leafIndex_of_counted ht hy
  obtain ⟨hk, -⟩ := ht
  have hnnode := nnode_eq (s := s) (by omega)
  obtain ⟨p, hp⟩ := exists_descend h hk (i := (s.leafIndex y).toNat) (by omega)
  refine ⟨p, s.leafIndex y, by simpa using hp, ?_⟩
  rw [treeShape_leaf h hlt]
  exact ⟨rfl, horder⟩

/-- With two keys or more GENERATE writes for every key the entry of a path of 1 to K - 1 edges from the root to its leaf
(R105, R107, R108). -/
theorem generatedLut_of_key (ht : s.TableInv) (h : s.TreeShape) (hk2 : 2 ≤ s.k.toNat) {y : Sym} (hy : s.freqOf y ≠ 0) :
    ∃ p, LeafPath s.node s.rootPos p y ∧ p ≠ [] ∧ p.length ≤ s.k.toNat - 1 ∧
      lutIn s.generatedLut y = pathEntry 0 0 p := by
  have hk : s.k.toNat ≤ 256 := ht.1
  have hnnode := nnode_eq (s := s) (by omega)
  have hroot : s.rootPos = BitVec.ofNat 9 (s.nnode - 1) := by rw [State.rootPos, if_pos hk2, hnnode]; rfl
  have hrootNat : s.rootPos.toNat = 2 * s.k.toNat - 2 := by
    rw [State.rootPos, if_pos hk2]; exact Nat.mod_eq_of_lt (by omega)
  have hlut : s.generatedLut = walk s.node s.nnode s.rootPos 0 0 lutEmpty := by
    rw [State.generatedLut, if_neg (by omega), if_neg (by omega), State.rootPos, if_pos hk2]
  obtain ⟨p0, hp0⟩ := exists_leafPath ht h hy
  rcases walk_spec (m := s.nnode - 1) (fuel := s.nnode) (n := s.rootPos)
      (fun i hi hl => (treeShape_children_lt h (by omega) hl).2) (by omega) (by omega) 0 0 lutEmpty y with
    ⟨p, hp, e⟩ | ⟨hno, -⟩
  · have hne : p ≠ [] := by
      rintro rfl
      refine leafPath_nil_internal ?_ hp
      exact (treeShape_internal h (i := s.rootPos.toNat) (by omega) (by omega)).1
    have hlen := (hp.length_le h (by omega)).resolve_left hne
    exact ⟨p, hp, hne, by omega, hlut ▸ e⟩
  · exact absurd (hroot ▸ hp0) (hno p0)

end

/-! ### Decoding a stream as a function of the position (R116 to R118) -/

/-- The symbols a stream of bits emits from a position, and the position it ends at; none if it falls off (R116, R117). -/
def State.decodeFrom (s : State) : NodeIdx → List Bool → Option (List Sym × NodeIdx)
  | cur, [] => some ([], cur)
  | cur, b :: bs =>
    (s.move cur b).bind fun n =>
      if (s.nodeAt n.toNat).leaf then
        (s.decodeFrom s.rootPos bs).map fun r => ((s.nodeAt n.toNat).sym :: r.1, r.2)
      else s.decodeFrom n bs

theorem decodeFrom_of_none {s : State} {cur : NodeIdx} {b : Bool} (h : s.move cur b = none) (bs : List Bool) :
    s.decodeFrom cur (b :: bs) = none := by
  simp [State.decodeFrom, h]

theorem decodeFrom_of_leaf {s : State} {cur n : NodeIdx} {b : Bool} (h : s.move cur b = some n)
    (hl : (s.nodeAt n.toNat).leaf = true) (bs : List Bool) :
    s.decodeFrom cur (b :: bs) = (s.decodeFrom s.rootPos bs).map fun r => ((s.nodeAt n.toNat).sym :: r.1, r.2) := by
  simp [State.decodeFrom, h, hl]

theorem decodeFrom_of_internal {s : State} {cur n : NodeIdx} {b : Bool} (h : s.move cur b = some n)
    (hl : (s.nodeAt n.toNat).leaf = false) (bs : List Bool) : s.decodeFrom cur (b :: bs) = s.decodeFrom n bs := by
  simp [State.decodeFrom, h, hl]

/-- Decoding is a function of NODE and K alone. -/
theorem decodeFrom_congr {s t : State} (hn : t.node = s.node) (hk : t.k = s.k) (cur : NodeIdx) (bs : List Bool) :
    t.decodeFrom cur bs = s.decodeFrom cur bs := by
  have hnode (i : Nat) : t.nodeAt i = s.nodeAt i := by rw [State.nodeAt, State.nodeAt, hn]
  have hroot : t.rootPos = s.rootPos := by simp only [State.rootPos, hk]
  have hmove (cur : NodeIdx) (b : Bool) : t.move cur b = s.move cur b := by simp only [State.move, hk, hnode]
  induction bs generalizing cur with
  | nil => rfl
  | cons b bs ih => simp only [State.decodeFrom, hmove, hnode, hroot, ih]

/-- A stream in two pieces is decoded piece by piece (R118, R124). -/
theorem decodeFrom_append (s : State) (cur : NodeIdx) (xs ys : List Bool) :
    s.decodeFrom cur (xs ++ ys) =
      (s.decodeFrom cur xs).bind fun r => (s.decodeFrom r.2 ys).map fun q => (r.1 ++ q.1, q.2) := by
  induction xs generalizing cur with
  | nil => simp [State.decodeFrom]
  | cons b bs ih =>
    rw [List.cons_append]
    cases hm : s.move cur b with
    | none => rw [decodeFrom_of_none hm, decodeFrom_of_none hm]; rfl
    | some n =>
      cases hl : (s.nodeAt n.toNat).leaf with
      | true =>
        rw [decodeFrom_of_leaf hm hl, decodeFrom_of_leaf hm hl, ih]
        cases s.decodeFrom s.rootPos bs <;> simp [Function.comp_def]
      | false => rw [decodeFrom_of_internal hm hl, decodeFrom_of_internal hm hl, ih]

/-! ### DECODE emits what the stream decodes to (R121) -/

/-- The symbol emitted stands behind those emitted before it. -/
theorem take_outSet {out : Vector Sym 32} {n : Nat} (y : Sym) (h : n < 32) :
    (outSet out n y).toList.take (n + 1) = out.toList.take n ++ [y] := by
  rw [outSet, dif_pos h, Vector.toList_set, List.take_add_one, List.take_set_of_le le_rfl]
  simp [h]

/-- DECODE's loop on bits that do not fall off, with room for their symbols in OUTBUF. -/
theorem walkBits_of_decodeFrom {s : State} {bs : List Bool} {a : Walk} {ys : List Sym} {c : NodeIdx}
    (h : s.decodeFrom a.cur bs = some (ys, c)) (hroom : a.nout + bs.length ≤ 32) (hf : a.fell = false) :
    (s.walkBits bs a).fell = false ∧ (s.walkBits bs a).cur = c ∧
      (s.walkBits bs a).out.toList.take (s.walkBits bs a).nout = a.out.toList.take a.nout ++ ys := by
  induction bs generalizing a ys with
  | nil =>
    obtain ⟨rfl, rfl⟩ : [] = ys ∧ a.cur = c := by simpa [State.decodeFrom] using h
    exact ⟨hf, rfl, (List.append_nil _).symm⟩
  | cons b bs ih =>
    rw [List.length_cons] at hroom
    rcases walkBits_cons s b bs a with ⟨hm, -⟩ | ⟨n, hm, hl, e⟩ | ⟨n, hm, hl, e⟩
    · rw [decodeFrom_of_none hm] at h; cases h
    · rw [decodeFrom_of_leaf hm hl] at h
      obtain ⟨⟨zs, d⟩, hrest, hr⟩ := Option.map_eq_some_iff.mp h
      obtain ⟨rfl, rfl⟩ := Prod.mk.inj hr
      obtain ⟨hfell, hcur, hout⟩ := ih (a := s.emitSymbol a (s.nodeAt n.toNat).sym) hrest (by
        simp only [State.emitSymbol]; omega) hf
      rw [e]
      refine ⟨hfell, hcur, hout.trans ?_⟩
      simp only [State.emitSymbol]
      rw [take_outSet _ (by omega), List.append_assoc]; rfl
    · rw [decodeFrom_of_internal hm hl] at h
      rw [e]
      exact ih (a := { a with cur := n, used := a.used + 1 }) h (by simp only; omega) hf

/-- The first bits of a packed chunk are the chunk (R17, R62). -/
theorem getLsbD_packBits (bs : List Bool) (i : Nat) : (packBits bs).getLsbD i = (decide (i < 32) && bs.getD i false) := by
  induction bs generalizing i with
  | nil => simp [packBits]
  | cons b bs ih =>
    rw [packBits, BitVec.getLsbD_or, BitVec.getLsbD_shiftLeft]
    cases i with
    | zero => cases b <;> simp
    | succ i =>
      rw [ih, Nat.add_sub_cancel]
      by_cases hi : i + 1 < 32
      · cases b <;> simp [hi, show i < 32 by omega]
      · cases b <;> simp [hi]

theorem chunkBits_packBits {bs : List Bool} (h : bs.length ≤ 32) : chunkBits bs.length (packBits bs) = bs := by
  refine List.ext_getElem (by simp) fun i _ hi => ?_
  have hbit : (packBits bs).getLsbD i = bs[i] := by
    rw [getLsbD_packBits, List.getD_eq_getElem _ _ hi]
    simp [show i < 32 by omega]
  simpa [chunkBits] using hbit

theorem extractLsb'_packDecode (fell : Bool) (used nout : Nat) :
    (packDecode fell used nout).extractLsb' 0 6 = BitVec.ofNat 6 nout :=
  BitVec.extractLsb'_append_eq_right

/-- What a DECODE whose loop ended in `a` has written before its completion (R121). -/
def State.decoded (s : State) (a : Walk) : State :=
  { s with outbuf := a.out, decCur := a.cur, decFell := a.fell }.withResults (packDecode a.fell a.used a.nout) 0

/-- DECODE past its checks (R121). -/
theorem exec_decode_of_checks {s : State} {n : BitVec 6} (hp : s.phase ≠ .load) (hf : s.decFell = false) (hn : n ≠ 0)
    (hn' : n.toNat ≤ 32) :
    exec (.decode n) s = (s.decoded (s.walkBits (chunkBits n.toNat s.argl) s.walkStart)).complete := by
  rw [exec, execDecode, if_neg (by simp [hp, hf]), if_neg (not_or.mpr ⟨hn, by omega⟩)]; rfl

/-- A DECODE of a chunk that does not fall off emits what the chunk decodes to; NODE, K and PHASE stay (R118, R121). -/
theorem performOk_decode {s : State} {c : List Bool} {ys : List Sym} {cur : NodeIdx} (hp : s.phase ≠ .load)
    (hf : s.decFell = false) (hc : 1 ≤ c.length) (hc' : c.length ≤ 32) (h : s.decodeFrom s.decCur c = some (ys, cur)) :
    ∃ t, performOk (.decode (BitVec.ofNat 6 c.length)) (packBits c) s = some t ∧ t.emitted = ys ∧ t.decCur = cur ∧
      t.decFell = false ∧ t.phase = s.phase ∧ t.k = s.k ∧ t.node = s.node := by
  let u := s.issued (.decode (BitVec.ofNat 6 c.length)) (packBits c)
  have hlen : (BitVec.ofNat 6 c.length).toNat = c.length := Nat.mod_eq_of_lt (by omega)
  have hne : BitVec.ofNat 6 c.length ≠ 0 := fun e => by rw [e] at hlen; simp at hlen; omega
  have he := exec_decode_of_checks (s := u) (n := BitVec.ofNat 6 c.length) hp hf hne (by omega)
  have hbits : chunkBits (BitVec.ofNat 6 c.length).toNat u.argl = c := by
    rw [hlen]; exact chunkBits_packBits hc'
  rw [hbits] at he
  have hdec : u.decodeFrom u.walkStart.cur c = some (ys, cur) :=
    (decodeFrom_congr (s := s) (t := u) rfl rfl s.decCur c).trans h
  obtain ⟨hfell, hcur, hout⟩ := walkBits_of_decodeFrom hdec (by simpa [State.walkStart] using hc') rfl
  have hnout : (u.walkBits c u.walkStart).nout ≤ 32 := by
    obtain ⟨-, hused, -, hle, -, -⟩ := walkBits_bounds u c u.walkStart
    simp only [State.walkStart] at hused hle ⊢
    omega
  refine ⟨_, performOk_of_exec he rfl, ?_, hcur, hfell, rfl, rfl, rfl⟩
  have hmod : (BitVec.ofNat 6 (u.walkBits c u.walkStart).nout).toNat = (u.walkBits c u.walkStart).nout :=
    Nat.mod_eq_of_lt (by omega)
  simp only [State.emitted, State.decoded, State.withResults, extractLsb'_packDecode, hmod]
  exact hout

/-! ### Feeding a stream (R17, R79) -/

/-- Chunks of a stream that does not fall off are fed with no error, and emit what the stream decodes to (R118, R124). -/
theorem feed_of_decodeFrom {s : State} {cs : List (List Bool)} {ys : List Sym} {cur : NodeIdx} (hp : s.phase ≠ .load)
    (hf : s.decFell = false) (hcs : ChunksFit cs) (h : s.decodeFrom s.decCur cs.flatten = some (ys, cur)) :
    ∃ t, feed cs s = some (ys, t) ∧ t.decCur = cur ∧ t.decFell = false ∧ t.phase = s.phase ∧ t.k = s.k := by
  induction cs generalizing s ys with
  | nil =>
    obtain ⟨rfl, rfl⟩ : [] = ys ∧ s.decCur = cur := by simpa [State.decodeFrom] using h
    exact ⟨s, rfl, rfl, hf, rfl, rfl⟩
  | cons c cs ih =>
    obtain ⟨hc, hc'⟩ := hcs c List.mem_cons_self
    rw [List.flatten_cons, decodeFrom_append] at h
    obtain ⟨⟨xs, mid⟩, hfirst, h⟩ := Option.bind_eq_some_iff.mp h
    obtain ⟨⟨zs, d⟩, hrest, hr⟩ := Option.map_eq_some_iff.mp h
    obtain ⟨rfl, rfl⟩ := Prod.mk.inj hr
    obtain ⟨t, ht, hemit, htcur, htfell, htphase, htk, htnode⟩ := performOk_decode hp hf hc hc' hfirst
    obtain ⟨v, hv, hvcur, hvfell, hvphase, hvk⟩ := ih (s := t) (htphase ▸ hp) htfell
      (fun c hc => hcs c (List.mem_cons_of_mem _ hc)) (by rw [htcur, decodeFrom_congr htnode htk]; exact hrest)
    exact ⟨v, by simp [feed, ht, hv, hemit], hvcur, hvfell, hvphase.trans htphase, hvk.trans htk⟩

/-- A stream cut into chunks of 32 is the stream, in chunks that fit (R79). -/
theorem splitChunks_spec {fuel : Nat} {bs : List Bool} (h : bs.length ≤ fuel) :
    (splitChunks fuel bs).flatten = bs ∧ ChunksFit (splitChunks fuel bs) := by
  induction fuel generalizing bs with
  | zero =>
    rw [List.eq_nil_of_length_eq_zero (Nat.le_zero.mp h)]
    exact ⟨rfl, fun c hc => absurd hc List.not_mem_nil⟩
  | succ fuel ih =>
    cases bs with
    | nil => exact ⟨rfl, fun c hc => absurd hc List.not_mem_nil⟩
    | cons b bs =>
      obtain ⟨hflat, hfit⟩ := ih (bs := (b :: bs).drop 32) (by simp at h ⊢; omega)
      refine ⟨by rw [splitChunks, List.flatten_cons, hflat, List.take_append_drop], fun c hc => ?_⟩
      rcases List.mem_cons.mp hc with rfl | hc
      · simp
      · exact hfit c hc

/-! ### The decoder inverts the code table (R125) -/

section
variable {s : State}

/-- At a node of the tree an edge is always there (R116, R123). -/
theorem move_of_ne_nil {n : NodeIdx} (h : n ≠ Config.nil) (b : Bool) : s.move n b = some (childOf s.node n b) := by
  cases b <;> simp [State.move, childOf, h, State.nodeAt]

/-- The edges to a leaf emit its symbol and lead back to ROOTPOS (R117). -/
theorem decodeFrom_leafPath (hk : s.k.toNat ≤ 256) (h : s.TreeShape) {n : NodeIdx} {p : List Bool} {y : Sym}
    (hn : n.toNat < s.nnode) (hp : LeafPath s.node n p y) (hne : p ≠ []) :
    s.decodeFrom n p = some ([y], s.rootPos) := by
  induction p generalizing n with
  | nil => exact absurd rfl hne
  | cons b p ih =>
    have hl := hp.internal_of_cons
    have hchild := childOf_lt h hn hl b
    have hnil : n ≠ Config.nil := fun e => by
      have := nnode_le hk
      rw [e] at hn
      exact absurd hn (by simp [Config.nil]; omega)
    have hmove := move_of_ne_nil (s := s) hnil b
    have hp' := (leafPath_cons hl).mp hp
    cases hlc : (nodeIn s.node (childOf s.node n b).toNat).leaf with
    | true =>
      obtain ⟨rfl, hsym⟩ := (leafPath_leaf hlc).mp hp'
      rw [decodeFrom_of_leaf hmove hlc, State.nodeAt, hsym]; rfl
    | false =>
      rw [decodeFrom_of_internal hmove hlc]
      exact ih (by omega) hp' fun e => leafPath_nil_internal hlc (e ▸ hp')

/-- The single key's code "0" emits it at the virtual root (R106, R120). -/
theorem decodeFrom_single (hk : s.k.toNat = 1) (hl : (s.nodeAt 0).leaf = true) :
    s.decodeFrom s.rootPos [false] = some ([(s.nodeAt 0).sym], s.rootPos) := by
  have hroot : s.rootPos = Config.nil := if_neg (by omega)
  have hmove : s.move s.rootPos false = some 0 := by simp [State.move, hroot, hk]
  rw [decodeFrom_of_leaf hmove hl]; rfl

/-- GENERATE gives every key a code, and the code decodes from ROOTPOS to the key and back to ROOTPOS (R108, R125). -/
theorem decodeFrom_code (ht : s.TableInv) (h : s.TreeShape) {y : Sym} (hy : s.freqOf y ≠ 0) :
    (lutIn s.generatedLut y).valid = true ∧
      s.decodeFrom s.rootPos (lutIn s.generatedLut y).code = some ([y], s.rootPos) := by
  have hk : s.k.toNat ≤ 256 := ht.1
  obtain ⟨hlt, horder⟩ := leafIndex_of_counted ht hy
  rcases Nat.lt_or_ge s.k.toNat 2 with hk1 | hk2
  · have hk1 : s.k.toNat = 1 := by omega
    have hnode : s.nodeAt 0 = s.leafNode 0 := treeShape_leaf h (by omega)
    have hsym : (s.nodeAt 0).sym = y := by
      rw [hnode, ← horder, show (s.leafIndex y).toNat = 0 by omega]; rfl
    have hlut : lutIn s.generatedLut y = { valid := true, len := 1, bits := 0 } := by
      rw [State.generatedLut, if_neg (by omega), if_pos hk1, lutIn_lutSet, if_pos hsym]
    have hdec := decodeFrom_single hk1 (by rw [hnode]; rfl)
    rw [hlut]
    exact ⟨rfl, by rw [hsym] at hdec; exact hdec⟩
  · obtain ⟨p, hp, hne, hlen, e⟩ := generatedLut_of_key ht h hk2 hy
    have hroot : s.rootPos.toNat < s.nnode := by
      rw [nnode_eq (by omega), State.rootPos, if_pos hk2, BitVec.toNat_ofNat, Nat.mod_eq_of_lt (by omega)]
      omega
    rw [e, code_pathEntry (by omega)]
    exact ⟨rfl, decodeFrom_leafPath hk h hroot hp hne⟩

end

/-! ### Encoding (R15) -/

/-- When every symbol has a code, encoding succeeds and gives the codes one after the other (R15). -/
theorem encodeSymbols_of_valid {lut : Vector LutEntry 256} {S : List Sym} (h : ∀ y ∈ S, (lutIn lut y).valid = true) :
    encodeSymbols lut S = some (S.flatMap fun y => (lutIn lut y).code) := by
  induction S with
  | nil => rfl
  | cons y S ih =>
    have hy : codeOf lut y = some (lutIn lut y).code := if_pos (h y List.mem_cons_self)
    rw [encodeSymbols, hy, ih fun z hz => h z (List.mem_cons_of_mem _ hz)]; rfl

/-- Codes that each decode from ROOTPOS back to ROOTPOS decode one after the other (R118, R125). -/
theorem decodeFrom_flatMap {s : State} {code : Sym → List Bool} {S : List Sym}
    (h : ∀ y ∈ S, s.decodeFrom s.rootPos (code y) = some ([y], s.rootPos)) :
    s.decodeFrom s.rootPos (S.flatMap code) = some (S, s.rootPos) := by
  induction S with
  | nil => rfl
  | cons y S ih =>
    rw [List.flatMap_cons, decodeFrom_append, h y List.mem_cons_self, Option.bind_some,
      ih fun z hz => h z (List.mem_cons_of_mem _ hz)]
    rfl

/-- R15, R125: in a tree of the table, every sequence of keys is encoded, and its code decodes to it. -/
theorem encode_decodes {s : State} (ht : s.TableInv) (h : s.TreeShape) {S : List Sym} (hS : ∀ y ∈ S, s.freqOf y ≠ 0) :
    ∃ B, encodeSymbols s.generatedLut S = some B ∧ s.decodeFrom s.rootPos B = some (S, s.rootPos) :=
  ⟨_, encodeSymbols_of_valid fun y hy => (decodeFrom_code ht h (hS y hy)).1,
    decodeFrom_flatMap fun y hy => (decodeFrom_code ht h (hS y hy)).2⟩

theorem length_code (e : LutEntry) : e.code.length = e.len.toNat := by simp [LutEntry.code]

/-- Settles O46: the length is summed symbol by symbol along the input, and each symbol counts as often as it occurs. -/
theorem encodedLengthIsWeightedSum : Obligations.EncodedLengthIsWeightedSum := by
  intro s S hinv hphase hfreq
  obtain ⟨table, tree, code, -⟩ := hinv
  obtain ⟨hshape, -⟩ := tree.2 (by simp [hphase])
  have hvalid : ∀ y ∈ S, (lutIn s.lut y).valid = true := fun y hy => by
    rw [code.2 hphase]
    exact (decodeFrom_code table hshape (freqOf_ne_zero_of_mem hfreq hy)).1
  refine ⟨_, encodeSymbols_of_valid hvalid, ?_⟩
  calc (S.flatMap fun y => (lutIn s.lut y).code).length
      = (S.map fun y => (s.lutOf y).len.toNat).sum := by simp only [List.length_flatMap, length_code]; rfl
    _ = ∑ y : Sym, (s.freqOf y).toNat * (s.lutOf y).len.toNat := by simp only [sum_map_eq_sum_count, hfreq]
    _ = _ := (sum_range_sym fun y => (s.freqOf y).toNat * (s.lutOf y).len.toNat).symm

/-! ### The pipeline (R21) -/

/-- BUILD in LOAD (R94). -/
theorem exec_build_of_load {s : State} (hp : s.phase = .load) :
    exec .build s = .next { s with
      node := s.builtNodes, lut := lutEmpty, phase := .tree, decCur := s.rootPos, decFell := false,
      result0 := BitVec.ofNat 32 s.nnode, result1 := s.rootIndex.setWidth 32, lastErr := .ok, busy := false } := by
  rw [exec, execBuild, if_neg (fun h => h hp)]; rfl

/-- GENERATE in TREE and CODE (R110). -/
theorem exec_generate_of_ne_load {s : State} (hp : s.phase ≠ .load) :
    exec .generate s = .next { s with
      lut := s.generatedLut, phase := .code, result0 := BitVec.ofNat 32 (maxLen s.generatedLut),
      result1 := s.k.setWidth 32, lastErr := .ok, busy := false } := by
  rw [exec, execGenerate, if_neg hp]; rfl

/-- DEC_RESET in TREE and CODE (R119). -/
theorem exec_decReset_of_ne_load {s : State} (hp : s.phase ≠ .load) :
    exec .decReset s = .next { s with decCur := s.rootPos, decFell := false, lastErr := .ok, busy := false } := by
  rw [exec, execDecReset, if_neg hp]; rfl

/-- BUILD performed in LOAD writes NODE and keeps the table. -/
theorem performOk_build {s : State} (hp : s.phase = .load) :
    ∃ t, performOk .build 0 s = some t ∧ t.k = s.k ∧ t.order = s.order ∧ t.freq = s.freq ∧ t.node = s.builtNodes ∧
      t.phase = .tree :=
  ⟨_, performOk_of_exec (exec_build_of_load hp) rfl, rfl, rfl, rfl, rfl, rfl⟩

/-- GENERATE performed in TREE or CODE writes LUT and keeps the table and the tree. -/
theorem performOk_generate {s : State} (hp : s.phase ≠ .load) :
    ∃ t, performOk .generate 0 s = some t ∧ t.k = s.k ∧ t.order = s.order ∧ t.freq = s.freq ∧ t.node = s.node ∧
      t.lut = s.generatedLut ∧ t.phase = .code :=
  ⟨_, performOk_of_exec (exec_generate_of_ne_load hp) rfl, rfl, rfl, rfl, rfl, rfl, rfl⟩

/-- DEC_RESET performed in TREE or CODE moves the decoder to ROOTPOS and keeps the table, the tree and LUT. -/
theorem performOk_decReset {s : State} (hp : s.phase ≠ .load) :
    ∃ t, performOk .decReset 0 s = some t ∧ t.k = s.k ∧ t.order = s.order ∧ t.freq = s.freq ∧ t.node = s.node ∧
      t.lut = s.lut ∧ t.phase = s.phase ∧ t.decCur = s.rootPos ∧ t.decFell = false :=
  ⟨_, performOk_of_exec (exec_decReset_of_ne_load hp) rfl, rfl, rfl, rfl, rfl, rfl, rfl, rfl, rfl⟩

/-- BUILD, GENERATE and DEC_RESET on a table with an empty NODE succeed, and leave a tree of that table, its code table, and the
decoder at ROOTPOS. -/
theorem performAll_build_generate_decReset {s : State} (hp : s.phase = .load) (hs : s.TableInv)
    (hz : ∀ i < 511, s.nodeAt i = Node.zero) :
    ∃ g, performAll [(.build, 0), (.generate, 0), (.decReset, 0)] s = some g ∧ g.TableInv ∧ g.TreeShape ∧
      g.freq = s.freq ∧ g.lut = g.generatedLut ∧ g.phase = .code ∧ g.decCur = g.rootPos ∧ g.decFell = false := by
  obtain ⟨t, ht, tk, torder, tfreq, tnode, tphase⟩ := performOk_build hp
  obtain ⟨u, hu, uk, uorder, ufreq, unode, ulut, uphase⟩ := performOk_generate (s := t) (by simp [tphase])
  obtain ⟨g, hg, gk, gorder, gfreq, gnode, glut, gphase, gcur, gfell⟩ := performOk_decReset (s := u) (by simp [uphase])
  have hk : g.k = s.k := gk.trans (uk.trans tk)
  have ho : g.order = s.order := gorder.trans (uorder.trans torder)
  have hf : g.freq = s.freq := gfreq.trans (ufreq.trans tfreq)
  have hn : g.node = s.builtNodes := gnode.trans (unode.trans tnode)
  have hlut : g.lut = g.generatedLut := by
    rw [glut, ulut, generatedLut_congr (gnode.trans unode) (gk.trans uk)]
  have hrun : performAll [(.build, 0), (.generate, 0), (.decReset, 0)] s = some g := by
    rw [performAll_cons ht, performAll_cons hu, performAll_cons hg]; rfl
  have hcur : g.decCur = g.rootPos := by rw [gcur, State.rootPos, State.rootPos, gk]
  exact ⟨g, hrun, tableInv_congr hk ho hf hs, treeShape_of_builtNodes hs hz hk ho hf hn, hf, hlut, gphase.trans uphase,
    hcur, gfell⟩

/-- Settles O57: the loads count the input, BUILD makes a tree with a leaf for every symbol of it, so `encode` succeeds, and every
code leads the decoder from ROOTPOS to its symbol and back, however the stream is cut. -/
theorem pipelineRoundTrip : Obligations.PipelineRoundTrip := by
  intro S s load _ hlen hinv hphase hk hload
  obtain ⟨table, tree, -, -⟩ := hinv
  obtain ⟨t, hloaded, ttable, tphase, tnode, tfreq⟩ := performAll_load hlen table hphase hk hload
  obtain ⟨g, hbuilt, gtable, gshape, gfreq, glut, gphase, gcur, gfell⟩ :=
    performAll_build_generate_decReset tphase ttable fun i hi => by
      rw [State.nodeAt, tnode]; exact tree.1 hphase i hi
  have hcount (y : Sym) : (g.freqOf y).toNat = S.count y := by
    rw [← tfreq y, State.freqOf, State.freqOf]; simp only [gfreq]
  obtain ⟨B, hB, hdec⟩ := encode_decodes gtable gshape fun y hy => freqOf_ne_zero_of_mem hcount hy
  obtain ⟨hflat, hfit⟩ := splitChunks_spec (bs := B) le_rfl
  obtain ⟨v, hfeed, vcur, vfell, vphase, vk⟩ := feed_of_decodeFrom (s := g) (by simp [gphase]) gfell hfit
    (by rw [hflat, gcur]; exact hdec)
  refine ⟨g, B, v, ?_, glut ▸ hB, hfeed, vfell, ?_⟩
  · rw [performAll_append, hloaded]; exact hbuilt
  · simp [State.decMid, vcur, State.rootPos, vk]

end Sys2Proof.Machine

namespace Sys2Proof.Machine

open Sys2Proof

/-! ### Host accesses by register (R55, R56) -/

/-- A read whose value is specified, BUSY or not, only records what the register reads (R55, R148). -/
theorem hostRead_of_specified {r : Reg} (h : unspecifiedWhileBusy r = false) (s : State) :
    s.hostRead r = { s with readData := some (s.readIdle r) } := by
  simp [State.hostRead, h]

/-- While BUSY = 0 every read only records what the register reads (R55). -/
theorem hostRead_of_idle {s : State} (h : s.busy = false) (r : Reg) :
    s.hostRead r = { s with readData := some (s.readIdle r) } := by
  simp [State.hostRead, h]

theorem step_rd_of_specified {r : Reg} (h : unspecifiedWhileBusy r = false) (s : State) :
    step (s.facing (rd r)) = .next { s with readData := some (s.readIdle r) } := by
  rw [step_rd, hostRead_of_specified h]

theorem step_rd_of_idle {s : State} (h : s.busy = false) (r : Reg) :
    step (s.facing (rd r)) = .next { s with readData := some (s.readIdle r) } := by
  rw [step_rd, hostRead_of_idle h]

/-- A CMD write while BUSY = 0 issues the word (R28). -/
theorem step_wr_cmd_of_idle {s : State} (h : s.busy = false) (w : Word) :
    step (s.facing (wr .cmd w)) = .next (s.issue w) := by
  simp [State.hostWrite, h]

/-- A CMD write while BUSY = 1 is dropped and leaves OVR set (R33). -/
theorem step_wr_cmd_of_busy {s : State} (h : s.busy = true) (w : Word) :
    step (s.facing (wr .cmd w)) = .next { s with ovr := true } := by
  simp [State.hostWrite, h]

/-- The block's turn executes the command that CMDL encodes (R146). -/
theorem step_blockTurn_of_decoded {s : State} {i : Instr} (hb : s.busy = true) (hd : decodeWord s.cmdl = .command i) :
    step (s.facing .blockTurn) = exec i s := by
  rw [step_blockTurn, blockTurn_busy hb, State.runLatched, hd]

/-- Settles O10: ID is one of the registers whose value is specified while BUSY = 1, and no write names it. -/
theorem idReadsItsConstant : Obligations.IdReadsItsConstant := fun s v =>
  ⟨step_rd_of_specified (r := .id) rfl s, step_wr s .id v⟩

/-- Settles O4: issue, overrun and read of CMD, and the block's turn on the word just issued. -/
theorem cmdWriteIssuesCommand : Obligations.CmdWriteIssuesCommand :=
  ⟨fun _ w h => ⟨step_wr_cmd_of_idle h w, fun _ hd => step_blockTurn_of_decoded rfl hd⟩,
    fun _ w h => step_wr_cmd_of_busy h w,
    fun s => step_rd_of_specified (r := .cmd) rfl s⟩

/-! ### What STATUS, DECPOS, TOTAL and OUTj read (R30, R41 to R43) -/


/-- A field of STATUS of more than one bit, by its position (R30). -/
theorem extractLsb'_statusWord (s : State) :
    s.statusWord.extractLsb' 0 2 = s.phase.bits ∧ s.statusWord.extractLsb' 8 3 = s.lastErr.bits ∧
    s.statusWord.extractLsb' 11 5 = 0 ∧ s.statusWord.extractLsb' 16 9 = s.k ∧ s.statusWord.extractLsb' 25 7 = 0 := by
  simp (disch := decide) only [State.statusWord, BitVec.extractLsb'_append_eq_of_add_le,
    BitVec.extractLsb'_append_eq_of_le, Nat.reduceSub, BitVec.extractLsb'_eq_self, and_self]

/-- The fields of STATUS of one bit, by their positions (R30). -/
theorem getLsbD_statusWord (s : State) :
    s.statusWord.getLsbD 2 = s.busy ∧ s.statusWord.getLsbD 3 = s.ovr ∧ s.statusWord.getLsbD 4 = s.treeValid ∧
    s.statusWord.getLsbD 5 = s.lutValid ∧ s.statusWord.getLsbD 6 = s.decFell ∧ s.statusWord.getLsbD 7 = s.decMid := by
  simp only [State.statusWord, BitVec.getLsbD_append, BitVec.getLsbD_ofBool, Nat.reduceLT, if_true, if_false,
    Nat.reduceSub, decide_true, Bool.true_and, and_self]

/-- TREE and CODE are the phases other than LOAD (R31). -/
theorem phase_tree_or_code {p : Phase} : p = .tree ∨ p = .code ↔ p ≠ .load := by
  cases p <;> simp

theorem treeValid_iff (s : State) : s.treeValid = true ↔ s.phase ≠ .load ∧ 1 ≤ s.k.toNat := by
  simp [State.treeValid, Nat.one_le_iff_ne_zero, BitVec.toNat_eq]

theorem lutValid_iff (s : State) : s.lutValid = true ↔ s.phase = .code := by
  simp [State.lutValid]

theorem decMid_iff (s : State) : s.decMid = true ↔ s.phase ≠ .load ∧ s.decCur ≠ s.rootPos := by
  simp [State.decMid]

/-- Settles O11: STATUS reads `statusWord`, whose fields stand where R30 puts them. -/
theorem statusFieldsWhileIdle : Obligations.StatusFieldsWhileIdle := by
  intro s hb
  obtain ⟨hphase, hlastErr, hzero, hk, hzero'⟩ := extractLsb'_statusWord s
  obtain ⟨hbusy, hovr, htree, hlut, hfell, hmid⟩ := getLsbD_statusWord s
  refine ⟨s.statusWord, step_rd_of_idle hb .status, ?_, hbusy.trans hb, hovr, ?_, ?_, hfell, ?_, ?_, hzero, hk, hzero'⟩
  · rw [hphase]; cases s.phase <;> rfl
  · rw [htree, treeValid_iff, phase_tree_or_code]
  · rw [hlut, lutValid_iff]
  · rw [hmid, decMid_iff, phase_tree_or_code]
  · rw [hlastErr]; cases s.lastErr <;> rfl

/-- OUTj holds OUTBUF[4j + b] in byte lane b (R43). -/
theorem extractLsb'_outWord (s : State) (j : Nat) {b : Nat} (h : b < 4) :
    (s.outWord j).extractLsb' (8 * b) 8 = s.outAt (4 * j + b) := by
  match b, h with
  | 0, _ => exact BitVec.extractLsb'_append_eq_right
  | 1, _ | 2, _ | 3, _ =>
    simp (disch := decide) only [State.outWord, BitVec.extractLsb'_append_eq_of_add_le,
      BitVec.extractLsb'_append_eq_of_le, Nat.reduceMul, Nat.reduceSub, BitVec.extractLsb'_eq_self]

/-- TOTAL reads the whole sum while it fits (R42, R46). -/
theorem toNat_readIdle_total {s : State} (h : s.TableInv) : (s.readIdle .total).toNat = s.totalCount := by
  obtain ⟨-, -, -, htotal, -⟩ := h
  simp only [Config.freqMax] at htotal
  exact Nat.mod_eq_of_lt (by omega)

/-- Settles O13: each register reads its view of the state, and the reset state's views are those of an empty block. -/
theorem decposTotalAndOutRead : Obligations.DecposTotalAndOutRead := by
  refine ⟨fun s hb => ⟨step_rd_of_idle hb .result0, step_rd_of_idle hb .result1, ?_, fun hs => ?_, fun j hj => ?_⟩,
    fun s v => step_wr s .decpos v, rfl, ?_, ?_⟩
  · exact ⟨_, step_rd_of_idle hb .decpos, BitVec.toNat_setWidth_of_le (by decide)⟩
  · obtain ⟨-, -, -, htotal, -⟩ := id hs
    refine ⟨_, step_rd_of_idle hb .total, ?_, ?_⟩ <;> rw [toNat_readIdle_total hs]
    · rw [totalCount_eq_sum, sum_range_sym fun y => (s.freqOf y).toNat]
    · exact htotal
  · exact ⟨_, step_rd_of_idle hb (.out ⟨j, hj⟩), fun b => extractLsb'_outWord s j⟩
  · simp [State.readIdle]
  · exact fun j => by simp [State.readIdle, State.outWord, State.outAt, State.reset]

/-! ### Frame of the command set -/

/-- A load changes FREQ, ORDER and K only (R88). -/
theorem tableAfterLoad_frame (s : State) (y : Sym) (c : Word) :
    ∃ f o k, s.tableAfterLoad y c = { s with freq := f, order := o, k := k } := by
  unfold State.tableAfterLoad State.addKey
  split
  · exact ⟨_, _, _, rfl⟩
  · exact ⟨_, s.order, s.k, rfl⟩

/-- Settles O27: an error writes LAST_ERR and BUSY, and the effect of each command names the fields it writes. -/
theorem whichCommandsWriteWhat : Obligations.WhichCommandsWriteWhat := by
  intro i s t h hclear
  obtain ⟨e, -, rfl⟩ | ⟨u, rfl, hu⟩ := exec_next_cases h
  · simp
  · cases i with
    | nop => subst hu; simp
    | clear => exact absurd rfl hclear
    | loadFreq y =>
      obtain ⟨hp, -, -, rfl⟩ := hu
      obtain ⟨f, o, k, e⟩ := tableAfterLoad_frame s y s.argl
      simp [e, hp]
    | readFreq y => subst hu; simp
    | build => obtain ⟨hp, rfl⟩ := hu; simp [hp]
    | readNode idx => obtain ⟨-, -, rfl⟩ := hu; simp
    | generate => obtain ⟨-, rfl⟩ := hu; simp
    | readCode y w => obtain ⟨-, -, rfl⟩ := hu; simp
    | decReset => obtain ⟨-, rfl⟩ := hu; simp
    | decode n => obtain ⟨-, -, -, -, rfl⟩ := hu; simp

/-- PHASE after a command (R31). -/
theorem exec_phase {i : Instr} {s t : State} (h : exec i s = .next t) :
    t.phase = s.phase ∨ (i = .build ∧ s.phase = .load ∧ t.phase = .tree) ∨
      (i = .generate ∧ s.phase ≠ .load ∧ t.phase = .code) ∨ (i = .clear ∧ t.phase = .load) := by
  obtain ⟨e, -, rfl⟩ | ⟨u, rfl, hu⟩ := exec_next_cases h
  · exact .inl rfl
  · cases i with
    | nop => subst hu; exact .inl rfl
    | clear => subst hu; exact .inr (.inr (.inr ⟨rfl, rfl⟩))
    | loadFreq y =>
      obtain ⟨-, -, -, rfl⟩ := hu
      exact .inl (tableAfterLoad_phase s y s.argl)
    | readFreq y => subst hu; exact .inl rfl
    | build => obtain ⟨hp, rfl⟩ := hu; exact .inr (.inl ⟨rfl, hp, rfl⟩)
    | readNode idx => obtain ⟨-, -, rfl⟩ := hu; exact .inl rfl
    | generate => obtain ⟨hp, rfl⟩ := hu; exact .inr (.inr (.inl ⟨rfl, hp, rfl⟩))
    | readCode y w => obtain ⟨-, -, rfl⟩ := hu; exact .inl rfl
    | decReset => obtain ⟨-, rfl⟩ := hu; exact .inl rfl
    | decode n => obtain ⟨-, -, -, -, rfl⟩ := hu; exact .inl rfl

/-- GENERATE writes the table of the present tree, in CODE the one that is there (R110, R112). -/
theorem exec_generate_lut {s t : State} (h : exec .generate s = .next t) : t.lut = s.lut ∨ t.lut = s.generatedLut := by
  obtain ⟨e, -, rfl⟩ | ⟨u, rfl, -, rfl⟩ := exec_next_cases h
  · exact .inl rfl
  · exact .inr rfl

/-- BUILD outside LOAD reports E_PHASE (R94). -/
theorem exec_build_of_ne_load {s : State} (hp : s.phase ≠ .load) : exec .build s = .next (s.failed .phase) := by
  rw [exec, execBuild, if_pos hp, raise_eq]

/-- Settles O26: PHASE by `exec_phase`, NODE by the frame of the command set, LUT because GENERATE in CODE writes
what CODE holds. -/
theorem phaseChanges : Obligations.PhaseChanges := by
  intro i s t h
  refine ⟨fun hne => ?_, fun hp hclear => ?_, fun hinv hp hclear => ?_⟩
  · obtain e | c | ⟨rfl, hp, ht⟩ | c := exec_phase h
    · exact absurd e hne
    · exact .inl c
    · have htree : s.phase = .tree := (phase_tree_or_code.mpr hp).resolve_right fun e => hne (ht.trans e.symm)
      exact .inr (.inl ⟨rfl, htree, ht⟩)
    · exact .inr (.inr c)
  · obtain ⟨-, -, -, -, -, -, -, -, hnode, -⟩ := whichCommandsWriteWhat i s t h hclear
    exact hnode (.inr hp)
  · obtain ⟨-, -, ⟨-, hcode⟩, -⟩ := hinv
    by_cases hb : i = .build
    · subst hb
      rw [exec_build_of_ne_load (by simp [hp])] at h
      rw [← Host.Outcome.next.inj h]; rfl
    by_cases hg : i = .generate
    · subst hg
      obtain e | e := exec_generate_lut h
      · exact e
      · rw [e, hcode hp]
    · obtain ⟨-, -, -, -, -, -, -, -, -, hlut, -⟩ := whichCommandsWriteWhat i s t h hclear
      exact hlut hb hg

/-! ### Commands and the host's own bits (R29, R33, R137) -/

/-- The state with other values of ARG and OVR, the two elements that host writes change while a command is in progress. -/
def State.withHost (s : State) (a : Word) (o : Bool) : State := { s with arg := a, ovr := o }

/-- An answer with its next state changed. -/
def Answer.onNext (f : State → State) : Answer → Answer
  | .next s => .next (f s)
  | .fault r => .fault r
  | .refused r => .refused r

theorem Answer.onNext_ite (f : State → State) (c : Prop) [Decidable c] (x y : Answer) :
    Answer.onNext f (if c then x else y) = if c then Answer.onNext f x else Answer.onNext f y :=
  apply_ite _ c x y

/-- DECODE's loop depends on NODE and K alone. -/
theorem walkBits_congr {s t : State} (hn : t.node = s.node) (hk : t.k = s.k) (bs : List Bool) (a : Walk) :
    t.walkBits bs a = s.walkBits bs a := by
  have hnode (i : Nat) : t.nodeAt i = s.nodeAt i := by rw [State.nodeAt, State.nodeAt, hn]
  have hroot : t.rootPos = s.rootPos := by simp only [State.rootPos, hk]
  have hmove (cur : NodeIdx) (b : Bool) : t.move cur b = s.move cur b := by simp only [State.move, hk, hnode]
  induction bs generalizing a with
  | nil => rfl
  | cons b bs ih => simp only [State.walkBits, State.emitSymbol, hmove, hnode, hroot, ih]

section
variable (s : State) (a : Word) (o : Bool)

theorem tableAfterLoad_withHost (y : Sym) (c : Word) :
    (s.withHost a o).tableAfterLoad y c = (s.tableAfterLoad y c).withHost a o := by
  by_cases h : s.freqOf y = 0
  · have h' : (s.withHost a o).freqOf y = 0 := h
    simp only [State.tableAfterLoad, State.addKey, if_pos h, if_pos h']; rfl
  · have h' : ¬ (s.withHost a o).freqOf y = 0 := h
    simp only [State.tableAfterLoad, State.addKey, if_neg h, if_neg h']; rfl

/-- No command but CLEAR reads or writes ARG or OVR (R29, R33): with other values of them it does the same. -/
theorem exec_withHost {i : Instr} (hi : i ≠ .clear) :
    exec i (s.withHost a o) = Answer.onNext (·.withHost a o) (exec i s) := by
  cases i with
  | clear => exact absurd rfl hi
  | nop => rfl
  | readFreq y => rfl
  | loadFreq y =>
    simp only [exec, execLoadFreq, Answer.onNext_ite]
    rw [show (s.withHost a o).argl = s.argl from rfl, tableAfterLoad_withHost]; rfl
  | build => simp only [exec, execBuild, Answer.onNext_ite]; rfl
  | readNode idx => simp only [exec, execReadNode, Answer.onNext_ite]; rfl
  | generate => simp only [exec, execGenerate, Answer.onNext_ite]; rfl
  | readCode y w => simp only [exec, execReadCode, Answer.onNext_ite]; rfl
  | decReset => simp only [exec, execDecReset, Answer.onNext_ite]; rfl
  | decode n =>
    simp only [exec, execDecode, Answer.onNext_ite]
    rw [walkBits_congr (s := s) (t := s.withHost a o) rfl rfl]; rfl

end

/-- No command writes ARG (R29). -/
theorem exec_arg {i : Instr} {s t : State} (h : exec i s = .next t) : t.arg = s.arg := by
  by_cases hi : i = .clear
  · subst hi; cases h; rfl
  · obtain ⟨harg, -⟩ := whichCommandsWriteWhat i s t h hi
    exact harg

/-- An ARG write does not reach a command in progress (R29). -/
theorem exec_with_arg {i : Instr} {s t : State} (v : Word) (h : exec i s = .next t) :
    exec i { s with arg := v } = .next { t with arg := v } := by
  by_cases hi : i = .clear
  · subst hi; cases h; rfl
  · obtain ⟨-, -, -, hovr, -⟩ := whichCommandsWriteWhat i s t h hi
    have e := exec_withHost s v s.ovr hi
    rw [h] at e
    exact e.trans (by rw [← hovr]; rfl)

/-- Settles O6: the host's accesses to ARG, and the commands by their independence of it. -/
theorem argIsPlainHostRegister : Obligations.ArgIsPlainHostRegister :=
  ⟨rfl, fun s v => step_wr s .arg v, fun s => step_rd_of_specified (r := .arg) rfl s, fun _ _ _ => exec_arg,
    fun _ w h => ⟨_, step_wr_cmd_of_idle h w, rfl⟩, fun _ _ _ v => exec_with_arg v⟩

/-! ### OVR (R33) -/

/-- The block's turn leaves OVR as it is, or runs CLEAR. -/
theorem blockTurn_ovr {s t : State} (h : s.blockTurn = .next t) :
    t.ovr = s.ovr ∨ (s.busy = true ∧ decodeWord s.cmdl = .command .clear) := by
  cases hb : s.busy with
  | false =>
    rw [blockTurn_idle hb] at h
    cases h; exact .inl rfl
  | true =>
    rw [blockTurn_busy hb, State.runLatched] at h
    cases hd : decodeWord s.cmdl with
    | illegal why =>
      rw [hd] at h
      rw [raise_next h]; exact .inl rfl
    | command i =>
      rw [hd] at h
      by_cases hi : i = .clear
      · exact .inr ⟨rfl, hi ▸ rfl⟩
      · obtain ⟨-, -, -, hovr, -⟩ := whichCommandsWriteWhat i s t h hi
        exact .inl hovr

theorem hostRead_ovr (s : State) (r : Reg) : (s.hostRead r).ovr = s.ovr := by
  unfold State.hostRead; split <;> rfl

/-- A host write never clears OVR. -/
theorem hostWrite_ovr {s : State} (h : s.ovr = true) (r : Reg) (v : Word) : (s.hostWrite r v).ovr = true := by
  cases r with
  | cmd => simp only [State.hostWrite]; split <;> simp [h]
  | _ => exact h

/-- A host access that answers a next state has had its effect on some register. -/
theorem hostAccess_next {addr bits : Nat} {act : Reg → State} {t : State} (h : hostAccess addr bits act = .next t) :
    ∃ r, t = act r := by
  obtain ⟨-, e⟩ | ⟨-, -, e⟩ | ⟨-, -, e⟩ := hostAccess_cases addr bits act <;> rw [e] at h <;> cases h
  exact ⟨_, rfl⟩

/-- A step after which OVR is no longer 1 is a reset, or the block's turn on CLEAR (R33). -/
theorem step_clears_ovr {s t : State} (h : step s = .next t) (hs : s.ovr = true) (ht : t.ovr = false) :
    s.inputs.head? = some .reset ∨
      (s.busy = true ∧ decodeWord s.cmdl = .command .clear ∧ (s.inputs = [] ∨ s.inputs.head? = some .blockTurn)) := by
  have hne : t.ovr ≠ s.ovr := by simp [hs, ht]
  unfold step at h
  split at h
  · next e =>
    obtain ⟨hb, hd⟩ := (blockTurn_ovr h).resolve_left hne
    exact .inr ⟨hb, hd, .inl e⟩
  · next rest e =>
    obtain ⟨hb, hd⟩ := (blockTurn_ovr h).resolve_left hne
    exact .inr ⟨hb, hd, .inr (by rw [e]; rfl)⟩
  · next rest e => exact .inl (by rw [e]; rfl)
  · next addr bits rest e =>
    obtain ⟨r, rfl⟩ := hostAccess_next h
    exact absurd (hostRead_ovr _ r) hne
  · next addr bits v rest e =>
    obtain ⟨r, rfl⟩ := hostAccess_next h
    exact absurd ((hostWrite_ovr (s := { s with inputs := rest }) hs r v).trans hs.symm) hne

/-- Settles O5: an overrun write, the steps that clear OVR, and the two events that do. -/
theorem cmdWriteWhileBusySetsOverrun : Obligations.CmdWriteWhileBusySetsOverrun :=
  ⟨fun _ w h => step_wr_cmd_of_busy h w, fun _ _ => step_clears_ovr, fun _ => ⟨_, rfl, rfl⟩,
    fun s => ⟨_, step_reset s, rfl⟩, rfl⟩

/-! ### What the invariants depend on -/

/-- The two states hold the same table, tree, code table, phase and decoder position. -/
def State.SameData (s t : State) : Prop :=
  t.k = s.k ∧ t.order = s.order ∧ t.freq = s.freq ∧ t.node = s.node ∧ t.lut = s.lut ∧ t.phase = s.phase ∧
    t.decCur = s.decCur ∧ t.decFell = s.decFell

theorem sameData_failed (s : State) (e : ErrCode) : s.SameData (s.failed e) :=
  ⟨rfl, rfl, rfl, rfl, rfl, rfl, rfl, rfl⟩

theorem sameData_hostRead (s : State) (r : Reg) : s.SameData (s.hostRead r) := by
  unfold State.hostRead
  split <;> exact ⟨rfl, rfl, rfl, rfl, rfl, rfl, rfl, rfl⟩

theorem sameData_hostWrite (s : State) (r : Reg) (v : Word) : s.SameData (s.hostWrite r v) := by
  cases r with
  | cmd =>
    simp only [State.hostWrite]
    split <;> exact ⟨rfl, rfl, rfl, rfl, rfl, rfl, rfl, rfl⟩
  | _ => exact ⟨rfl, rfl, rfl, rfl, rfl, rfl, rfl, rfl⟩

/-- A reset and CLEAR leave the data of the reset state (R84, R142). -/
theorem sameData_resetBlock (s : State) : State.reset.SameData s.resetBlock :=
  ⟨rfl, rfl, rfl, rfl, rfl, rfl, rfl, rfl⟩

theorem sameData_cleared (s : State) : State.reset.SameData s.cleared :=
  ⟨rfl, rfl, rfl, rfl, rfl, rfl, rfl, rfl⟩

theorem sameData_exec_clear {s t : State} (h : exec .clear s = .next t) : State.reset.SameData t := by
  cases h; exact sameData_cleared s

/-- A property of the data that holds at reset and that every command keeps is kept by every step: host accesses, an idle turn
and an illegal word leave the data as they are. -/
theorem step_keeps {P : State → Prop} (hdata : ∀ {s t : State}, s.SameData t → P s → P t) (hreset : P State.reset)
    (hexec : ∀ {i : Instr} {s t : State}, exec i s = .next t → P s → P t) {s t : State} (h : step s = .next t)
    (hs : P s) : P t := by
  obtain ⟨rest, -, c⟩ := step_next_cases h
  have hu : P { s with inputs := rest } := hdata (s := s) ⟨rfl, rfl, rfl, rfl, rfl, rfl, rfl, rfl⟩ hs
  obtain ⟨-, rfl⟩ | ⟨-, i, -, he⟩ | ⟨-, -, rfl⟩ | rfl | ⟨r, rfl⟩ | ⟨r, v, rfl⟩ := c
  · exact hu
  · exact hexec he hu
  · exact hdata (sameData_failed _ _) hu
  · exact hdata (sameData_resetBlock _) hreset
  · exact hdata (sameData_hostRead _ r) hu
  · exact hdata (sameData_hostWrite _ r v) hu

theorem tableInv_sameData {s t : State} (h : s.SameData t) (hs : s.TableInv) : t.TableInv := by
  obtain ⟨hk, ho, hf, -⟩ := h
  exact tableInv_congr hk ho hf hs

theorem inv_sameData {s t : State} (h : s.SameData t) (hs : s.Inv) : t.Inv := by
  obtain ⟨hk, ho, hf, hn, hl, hp, hc, hd⟩ := h
  exact inv_congr hk ho hf hn hl hp hc hd hs

/-! ### The table (R46) -/

theorem exec_tableInv {i : Instr} {s t : State} (h : exec i s = .next t) (hs : s.TableInv) : t.TableInv := by
  by_cases hclear : i = .clear
  · subst hclear
    exact tableInv_sameData (sameData_exec_clear h) tableInv_reset
  by_cases hload : ∃ y, i = .loadFreq y
  · obtain ⟨y, rfl⟩ := hload
    obtain ⟨e, -, rfl⟩ | ⟨u, rfl, -, hcount, htotal, rfl⟩ := exec_next_cases h
    · exact tableInv_sameData (sameData_failed s e) hs
    · exact tableInv_congr (s := s.tableAfterLoad y s.argl) rfl rfl rfl (tableInv_tableAfterLoad hs hcount htotal)
  · obtain ⟨-, -, -, -, -, -, -, htable, -⟩ := whichCommandsWriteWhat i s t h hclear
    obtain ⟨hf, ho, hk⟩ := htable (.inl fun y e => hload ⟨y, e⟩)
    exact tableInv_congr hk ho hf hs

/-- Settles O58: LOAD_FREQ keeps R46, CLEAR and reset give the empty table, and nothing else writes it. -/
theorem everyStepKeepsTheTable : Obligations.EveryStepKeepsTheTable := fun _ _ hs h =>
  step_keeps tableInv_sameData tableInv_reset exec_tableInv h hs

/-! ### BUILD merges the two least candidates (R92, R93, R95) -/

/-- The candidates are the earlier nodes that are no child of an earlier internal node (R92). -/
theorem mem_candidates {s : State} {i j : Nat} :
    j ∈ s.candidates i ↔ j < i ∧ j ∉ childrenIn s.node s.k.toNat i := by
  rw [State.candidates, ← internalsIn, List.mem_filter, List.mem_range, mem_childrenIn]
  simp only [List.all_eq_true, mem_internalsIn, Bool.and_eq_true, bne_iff_ne, not_exists, not_and, not_or, and_imp]
  refine and_congr_right fun _ => forall_congr' fun p => forall_congr' fun _ => forall_congr' fun _ => ?_
  exact and_congr ne_comm ne_comm

/-- Whether node `i` merges the least candidates depends on K and the nodes up to `i` alone. -/
theorem mergesLeast_of_eq_upTo {s t : State} {i : Nat} (hk : t.k = s.k) (hn : ∀ j ≤ i, t.nodeAt j = s.nodeAt j)
    (h : s.MergesLeast i) : t.MergesLeast i := by
  have hmem (j : Nat) : j ∈ t.candidates i ↔ j ∈ s.candidates i := by
    rw [mem_candidates, mem_candidates, hk, childrenIn_congr fun j hj => hn j hj.le]
  have hbefore {a j : Nat} (ha : a ∈ s.candidates i) (hj : j ∈ s.candidates i) : t.keyBefore a j ↔ s.keyBefore a j := by
    rw [State.keyBefore, hn a (mem_candidates.mp ha).1.le, hn j (mem_candidates.mp hj).1.le]
  obtain ⟨hl, hr, hne, hfirst, hsecond⟩ := h
  simp only [State.MergesLeast, hn i le_rfl, hmem]
  exact ⟨hl, hr, hne, fun j hj hjl => (hbefore hl hj).mpr (hfirst j hj hjl),
    fun j hj hjl hjr => (hbefore hr hj).mpr (hsecond j hj hjl hjr)⟩

/-- The queue of BUILD's loop holds the candidates of the next node (R92, R94). -/
theorem MergeInv.mem_queue {s : State} {nodes : Vector Node 511} {q : List Nat} {nxt j : Nat} (h : MergeInv s nodes q nxt) :
    j ∈ q ↔ j < nxt ∧ j ∉ childrenIn nodes s.k.toNat nxt := by
  have hmem : j ∈ childrenIn nodes s.k.toNat nxt ∨ j ∈ q ↔ j < nxt := by
    rw [← List.mem_append, h.perm.mem_iff, List.mem_range]
  have hdisj := List.disjoint_of_nodup_append (h.perm.nodup_iff.mpr List.nodup_range)
  exact ⟨fun hj => ⟨hmem.mp (.inr hj), fun hc => hdisj hc hj⟩, fun ⟨hlt, hc⟩ => (hmem.mpr hlt).resolve_left hc⟩

/-- The node one turn of the loop makes merges the two least candidates (R95). -/
theorem MergeInv.mergesLeast {s u : State} {nodes : Vector Node 511} {q q1 q2 : List Nat} {nxt a b : Nat} (hs : s.TableInv)
    (h : MergeInv s nodes q nxt) (ha : popLeast nodes q = some (a, q1)) (hb : popLeast nodes q1 = some (b, q2))
    (hk : u.k = s.k) (hn : u.node = nodeSet nodes nxt (mergedNode nodes a b)) : u.MergesLeast nxt := by
  have hq1 := popLeast_perm ha
  have hq2 := popLeast_perm hb
  have haq : a ∈ q := hq1.mem_iff.mpr List.mem_cons_self
  have hbq : b ∈ q := hq1.mem_iff.mpr (List.mem_cons_of_mem _ (hq2.mem_iff.mpr List.mem_cons_self))
  have haN := h.lt_nxt haq
  have hbN := h.lt_nxt hbq
  have hnxt : nxt < 511 := by
    have hcount := h.count
    have hlen := popLeast_length ha
    have hlen1 := popLeast_length hb
    have hk := hs.1
    omega
  have hsame : ∀ i < nxt, u.nodeAt i = nodeIn nodes i := fun i hi => by
    rw [State.nodeAt, hn, nodeIn_nodeSet_ne _ _ hi.ne']
  have hnew : u.nodeAt nxt = mergedNode nodes a b := by rw [State.nodeAt, hn, nodeIn_nodeSet_self _ _ hnxt]
  have hleft : (u.nodeAt nxt).left.toNat = a := by rw [hnew]; exact Nat.mod_eq_of_lt (by omega)
  have hright : (u.nodeAt nxt).right.toNat = b := by rw [hnew]; exact Nat.mod_eq_of_lt (by omega)
  have hne : (u.nodeAt nxt).left ≠ (u.nodeAt nxt).right := by
    obtain ⟨-, -, -, -, hne, -⟩ := (h.merge hs ha hb).internal nxt h.le_nxt (Nat.lt_succ_self nxt)
    rwa [← hn] at hne
  have hmem (j : Nat) : j ∈ u.candidates nxt ↔ j ∈ q := by
    rw [mem_candidates, childrenIn_congr hsame, hk, h.mem_queue]
  have hbefore {i j : Nat} (hi : i ∈ q) (hj : j ∈ q) (hlt : keyLt nodes i j = true) : u.keyBefore i j := by
    rw [State.keyBefore, hsame i (h.lt_nxt hi), hsame j (h.lt_nxt hj), ← keyLt_iff]; exact hlt
  simp only [State.MergesLeast, hleft, hright, hmem]
  refine ⟨haq, hbq, hne, fun j hj hja => ?_, fun j hj hja hjb => ?_⟩
  · exact hbefore haq hj ((popLeast_least ha j hj).resolve_left hja)
  · have hj1 : j ∈ q1 := (List.mem_cons.mp (hq1.mem_iff.mp hj)).resolve_left hja
    exact hbefore hbq hj ((popLeast_least hb j hj1).resolve_left hjb)

/-- The state with another node array. -/
def State.withNodes (s : State) (nodes : Vector Node 511) : State := { s with node := nodes }

/-- All the internal nodes up to `nxt` merge their least candidates. -/
def State.MergedLeast (s : State) (nodes : Vector Node 511) (nxt : Nat) : Prop :=
  ∀ i, s.k.toNat ≤ i → i < nxt → (s.withNodes nodes).MergesLeast i

/-- The loop keeps that to the end, where at most one candidate is left (R94, R95). -/
theorem mergeLoop_mergedLeast {s : State} (hs : s.TableInv) {fuel : Nat} {nodes : Vector Node 511} {q : List Nat} {nxt : Nat}
    (h : MergeInv s nodes q nxt) (hm : s.MergedLeast nodes nxt) (hfuel : q.length ≤ fuel + 1) :
    ∃ q' nxt', q'.length ≤ 1 ∧ MergeInv s (mergeLoop fuel nodes q nxt) q' nxt' ∧
      s.MergedLeast (mergeLoop fuel nodes q nxt) nxt' := by
  induction fuel generalizing nodes q nxt with
  | zero => exact ⟨q, nxt, hfuel, h, hm⟩
  | succ fuel ih =>
    rcases mergeLoop_succ fuel nodes q nxt with ⟨hq, e⟩ | ⟨a, q1, b, q2, ha, hb, e⟩
    · exact ⟨q, nxt, by omega, by rw [e]; exact h, by rw [e]; exact hm⟩
    · have hq1 := popLeast_length ha
      have hq2 := popLeast_length hb
      rw [e]
      refine ih (h.merge hs ha hb) (fun i hki hi => ?_) (by simp; omega)
      rcases Nat.lt_succ_iff_lt_or_eq.mp hi with hlt | rfl
      · exact mergesLeast_of_eq_upTo (s := s.withNodes nodes) rfl (fun j hj => nodeIn_nodeSet_ne _ _ (by omega)) (hm i hki hlt)
      · exact h.mergesLeast hs ha hb rfl rfl

/-- Every internal node of the tree BUILD writes merges the two least candidates (R95). -/
theorem mergesLeast_of_builtNodes {s t : State} (hs : s.TableInv) (hz : ∀ i < 511, s.nodeAt i = Node.zero)
    (hk : t.k = s.k) (hn : t.node = s.builtNodes) : ∀ i ∈ t.internals, t.MergesLeast i := by
  obtain ⟨q, nxt, hq, h, hm⟩ := mergeLoop_mergedLeast hs (mergeInv_withLeaves hs hz) (fuel := s.k.toNat)
    (fun i hki hi => by omega) (by simp)
  obtain ⟨hnnode, -⟩ := h.final hq
  intro i hi
  rw [internals_eq, mem_internalsIn, State.nnode, hk, ← State.nnode, hnnode] at hi
  exact mergesLeast_congr (s := s.withNodes s.builtNodes) hk hn (hm i hi.1 hi.2)

/-! ### DECODE stays on the tree (R123) -/

/-- A decoder position of TREE and CODE: ROOTPOS or an internal node (R50). -/
def State.DecoderAt (s : State) (c : NodeIdx) : Prop := c = s.rootPos ∨ (s.k.toNat ≤ c.toNat ∧ c.toNat < s.nnode)

/-- With two keys or more every position is an internal node, the root among them (R50). -/
theorem State.DecoderAt.internal {s : State} (hk : s.k.toNat ≤ 256) (hk2 : 2 ≤ s.k.toNat) {c : NodeIdx}
    (hc : s.DecoderAt c) : s.k.toNat ≤ c.toNat ∧ c.toNat < s.nnode := by
  obtain rfl | hc := hc
  · have hroot : s.rootPos.toNat = 2 * s.k.toNat - 2 := by
      rw [State.rootPos, if_pos hk2]; exact Nat.mod_eq_of_lt (by omega)
    have hnnode := nnode_eq (s := s) (by omega)
    omega
  · exact hc

/-- With one key or none the only position is the virtual root (R50). -/
theorem State.DecoderAt.eq_nil {s : State} (hk1 : s.k.toNat ≤ 1) {c : NodeIdx} (hc : s.DecoderAt c) : c = Config.nil := by
  obtain rfl | ⟨hkc, hc⟩ := hc
  · exact if_neg (by omega)
  · unfold State.nnode at hc
    split at hc <;> omega

/-- One bit from a position: an absent node only with one key or none, and a node reached that is no leaf is a position again. -/
theorem move_decoderAt {s : State} (hk : s.k.toNat ≤ 256) (h : s.TreeShape) {c : NodeIdx} (hc : s.DecoderAt c) (b : Bool) :
    (s.move c b = none → s.k.toNat ≤ 1) ∧
      ∀ n, s.move c b = some n → (s.nodeAt n.toNat).leaf = false → s.DecoderAt n := by
  by_cases hk2 : 2 ≤ s.k.toNat
  · obtain ⟨hkc, hcn⟩ := hc.internal hk hk2
    obtain ⟨hleaf, -⟩ := treeShape_internal h hkc hcn
    have hnil : c ≠ Config.nil := fun e => by
      have hnnode := nnode_le hk
      rw [e] at hcn
      exact absurd hcn (by simp [Config.nil]; omega)
    have hchild := childOf_lt h hcn hleaf b
    rw [move_of_ne_nil hnil]
    refine ⟨fun e => absurd e (by simp), fun n hn hl => ?_⟩
    obtain rfl := Option.some.inj hn
    obtain ⟨hkn, -⟩ := treeShape_children_lt h (hchild.trans hcn) hl
    exact .inr ⟨hkn, hchild.trans hcn⟩
  · refine ⟨fun _ => by omega, fun n hn hl => ?_⟩
    rw [hc.eq_nil (by omega), State.move, if_pos rfl] at hn
    split at hn
    · next hone =>
      obtain rfl := Option.some.inj hn
      have hroot : s.nodeAt 0 = s.leafNode 0 := treeShape_leaf h (by omega)
      rw [show (0 : NodeIdx).toNat = 0 from rfl, hroot] at hl
      exact absurd hl (by simp [State.leafNode])
    · exact absurd hn (by simp)

/-- DECODE's loop ends at a position, and falls off only with one key or none (R122, R123). -/
theorem walkBits_decoderAt {s : State} (hk : s.k.toNat ≤ 256) (h : s.TreeShape) (bs : List Bool) {a : Walk}
    (ha : s.DecoderAt a.cur) (hf : a.fell = true → s.k.toNat ≤ 1) :
    s.DecoderAt (s.walkBits bs a).cur ∧ ((s.walkBits bs a).fell = true → s.k.toNat ≤ 1) := by
  induction bs generalizing a with
  | nil => exact ⟨ha, hf⟩
  | cons b bs ih =>
    obtain ⟨hnone, hsome⟩ := move_decoderAt hk h ha b
    rcases walkBits_cons s b bs a with ⟨hm, e⟩ | ⟨n, hm, hl, e⟩ | ⟨n, hm, hl, e⟩ <;> rw [e]
    · exact ⟨ha, fun _ => hnone hm⟩
    · exact ih (a := s.emitSymbol a (s.nodeAt n.toNat).sym) (.inl rfl) hf
    · exact ih (a := { a with cur := n, used := a.used + 1 }) (hsome n hm hl) hf

/-! ### Every command keeps the invariant -/

theorem inv_reset : State.reset.Inv :=
  ⟨tableInv_reset, ⟨fun _ i _ => nodeIn_replicate_zero i, fun h => absurd rfl h⟩, ⟨fun _ => rfl, nofun⟩,
    ⟨fun _ => ⟨rfl, rfl⟩, fun h => absurd rfl h, nofun⟩⟩

/-- LOAD_FREQ keeps the table's invariant, and in LOAD the rest does not depend on the table. -/
theorem inv_tableAfterLoad {s : State} {y : Sym} {c : Word} (h : s.Inv) (hp : s.phase = .load) (hc : c ≠ 0)
    (ht : s.totalCount + c.toNat ≤ Config.freqMax) : (s.tableAfterLoad y c).Inv := by
  obtain ⟨table, ⟨nodes, -⟩, ⟨lut, -⟩, ⟨dec, -, -⟩⟩ := h
  obtain ⟨hcur, hfell⟩ := dec hp
  have htable := tableInv_tableAfterLoad (y := y) table hc ht
  obtain ⟨f, o, k, e⟩ := tableAfterLoad_frame s y c
  rw [e] at htable ⊢
  exact ⟨htable, ⟨fun _ => nodes hp, fun hne => absurd hp hne⟩,
    ⟨fun _ => lut (by simp [hp]), fun hcode => absurd (hp.symm.trans hcode) (by simp)⟩,
    ⟨fun _ => ⟨hcur, hfell⟩, fun hne => absurd hp hne, fun hf => absurd (hfell.symm.trans hf) (by simp)⟩⟩

/-- BUILD makes a full tree of least-key merges, empties LUT and puts the decoder at ROOTPOS (R94). -/
theorem inv_built {s : State} (h : s.Inv) (hp : s.phase = .load) :
    ({ s with node := s.builtNodes, lut := lutEmpty, phase := .tree, decCur := s.rootPos, decFell := false } :
      State).Inv := by
  obtain ⟨table, ⟨nodes, -⟩, -, -⟩ := h
  exact ⟨tableInv_congr (s := s) rfl rfl rfl table,
    ⟨nofun, fun _ => ⟨treeShape_of_builtNodes table (nodes hp) rfl rfl rfl rfl,
      mergesLeast_of_builtNodes table (nodes hp) rfl rfl⟩⟩,
    ⟨fun _ => rfl, nofun⟩, ⟨nofun, fun _ => .inl rfl, nofun⟩⟩

/-- GENERATE writes the code table of the present tree (R110). -/
theorem inv_generated {s : State} (h : s.Inv) (hp : s.phase ≠ .load) :
    ({ s with lut := s.generatedLut, phase := .code } : State).Inv := by
  obtain ⟨table, tree, -, ⟨-, hat, hfell⟩⟩ := h
  exact ⟨tableInv_congr (s := s) rfl rfl rfl table, treeInv_congr (s := s) rfl rfl rfl rfl hp (by simp) tree,
    ⟨fun hne => absurd rfl hne, fun _ => generatedLut_congr rfl rfl⟩, ⟨nofun, fun _ => hat hp, hfell⟩⟩

/-- In TREE and CODE the decoder may be at any position, and halted with one key or none (R50, R122). -/
theorem inv_decoder {s : State} (h : s.Inv) (hp : s.phase ≠ .load) {c : NodeIdx} {f : Bool} (hc : s.DecoderAt c)
    (hf : f = true → s.k.toNat ≤ 1) : ({ s with decCur := c, decFell := f } : State).Inv := by
  obtain ⟨table, tree, code, -⟩ := h
  exact ⟨tableInv_congr (s := s) rfl rfl rfl table, treeInv_congr (s := s) rfl rfl rfl rfl hp hp tree, code,
    ⟨fun e => absurd e hp, fun _ => hc, hf⟩⟩

/-- DECODE's loop leaves the decoder where it may be. -/
theorem inv_walkBits {s : State} (h : s.Inv) (hp : s.phase ≠ .load) (bs : List Bool) :
    ({ s with decCur := (s.walkBits bs s.walkStart).cur, decFell := (s.walkBits bs s.walkStart).fell } : State).Inv := by
  obtain ⟨⟨hk, -⟩, ⟨-, tree⟩, -, ⟨-, hat, -⟩⟩ := id h
  obtain ⟨hshape, -⟩ := tree hp
  obtain ⟨hcur, hfell⟩ := walkBits_decoderAt hk hshape bs (a := s.walkStart) (hat hp) nofun
  exact inv_decoder h hp hcur hfell

/-- The completion of a command and its results are outside the invariant. -/
theorem inv_completed {s : State} (h : s.Inv) : ({ s with lastErr := .ok, busy := false } : State).Inv :=
  inv_sameData (s := s) ⟨rfl, rfl, rfl, rfl, rfl, rfl, rfl, rfl⟩ h

theorem inv_withResults {s : State} (h : s.Inv) (r0 r1 : Word) : (s.withResults r0 r1).Inv :=
  inv_sameData (s := s) ⟨rfl, rfl, rfl, rfl, rfl, rfl, rfl, rfl⟩ h

/-- Every command keeps the invariant. -/
theorem exec_inv {i : Instr} {s t : State} (h : exec i s = .next t) (hs : s.Inv) : t.Inv := by
  obtain ⟨e, -, rfl⟩ | ⟨u, rfl, hu⟩ := exec_next_cases h
  · exact inv_sameData (sameData_failed s e) hs
  · refine inv_completed ?_
    cases i with
    | nop => subst hu; exact hs
    | clear => subst hu; exact inv_sameData (sameData_cleared s) inv_reset
    | loadFreq y => obtain ⟨hp, hc, ht, rfl⟩ := hu; exact inv_withResults (inv_tableAfterLoad hs hp hc ht) _ _
    | readFreq y => subst hu; exact inv_withResults hs _ _
    | build => obtain ⟨hp, rfl⟩ := hu; exact inv_withResults (inv_built hs hp) _ _
    | readNode idx => obtain ⟨-, -, rfl⟩ := hu; exact inv_withResults hs _ _
    | generate => obtain ⟨hp, rfl⟩ := hu; exact inv_withResults (inv_generated hs hp) _ _
    | readCode y w => obtain ⟨-, -, rfl⟩ := hu; exact inv_withResults hs _ _
    | decReset => obtain ⟨hp, rfl⟩ := hu; exact inv_decoder hs hp (.inl rfl) nofun
    | decode n =>
      obtain ⟨hp, -, -, -, rfl⟩ := hu
      exact inv_sameData (s := { s with decCur := _, decFell := _ }) ⟨rfl, rfl, rfl, rfl, rfl, rfl, rfl, rfl⟩
        (inv_walkBits hs hp _)

/-- Settles O59: every command keeps the invariant, the reset state meets it, and it is about the data alone. -/
theorem everyStepKeepsTheInvariant : Obligations.EveryStepKeepsTheInvariant := fun _ _ hs h =>
  step_keeps inv_sameData inv_reset exec_inv h hs

end Sys2Proof.Machine

namespace Sys2Proof.Machine

open Sys2Proof

/-! ### The register window (R53 to R56) -/

/-- A host read records a value and may draw one; nothing else changes (R55). -/
theorem hostRead_frame (s : State) (r : Reg) : ∃ w d, s.hostRead r = { s with readData := some w, draws := d } := by
  unfold State.hostRead
  split
  · exact ⟨_, _, rfl⟩
  · exact ⟨_, s.draws, rfl⟩

/-- A write to any register but ARG and CMD is ignored (R55, R56). -/
theorem step_wr_of_ignored {r : Reg} (harg : r ≠ .arg) (hcmd : r ≠ .cmd) (s : State) (v : Word) :
    step (s.facing (wr r v)) = .next s := by
  rw [step_wr]
  cases r with
  | arg => exact absurd rfl harg
  | cmd => exact absurd rfl hcmd
  | _ => rfl

/-- Settles O7: the frame of a host read, whichever register it reaches, and the writes that are ignored. -/
theorem hostReadsHaveNoSideEffect : Obligations.HostReadsHaveNoSideEffect := by
  refine ⟨fun s r => ?_, fun s t addr bits h => ?_, fun s r v harg hcmd => step_wr_of_ignored harg hcmd s v⟩
  · obtain ⟨w, d, e⟩ := hostRead_frame s r
    exact ⟨w, d, (step_rd s r).trans (congrArg _ e)⟩
  · rw [step_read] at h
    obtain ⟨r, rfl⟩ := hostAccess_next h
    obtain ⟨w, d, e⟩ := hostRead_frame s r
    rw [e]

/-- An access of another width, or at an offset of the window that is no multiple of 4, is refused (R54). -/
theorem hostAccess_unsupported {off bits : Nat} (act : Reg → State) (hoff : off < 256) (h : bits ≠ 32 ∨ off % 4 ≠ 0) :
    hostAccess (Config.base + off) bits act = .refused .unsupportedAccess := by
  have hwindow : addressInWindow (Config.base + off) = true := by simp [addressInWindow, hoff]
  have hshape : accessSupported off bits = false := by simpa [accessSupported, ← imp_iff_not_or] using h
  simp [hostAccess, hwindow, hshape]

/-- Settles O9: an unsupported access is refused, a supported one reaches the register at its offset. -/
theorem unsupportedAccessIsRefused : Obligations.UnsupportedAccessIsRefused := by
  intro s off bits v hoff
  rw [step_read, step_write]
  refine ⟨fun h => ⟨hostAccess_unsupported _ hoff h, hostAccess_unsupported _ hoff h⟩, ?_⟩
  rintro rfl h4
  exact ⟨⟨_, hostAccess_base _ hoff h4⟩, ⟨_, hostAccess_base _ hoff h4⟩⟩

/-- Every multiple of 4 in the window is the offset of a register (R53, R56). -/
theorem exists_register_offset {off : Nat} (h : off < 256) (h4 : off % 4 = 0) : ∃ r : Reg, r.offset = off := by
  have hall : ∀ q < 64, (registerAt (4 * q)).offset = 4 * q := by decide
  obtain ⟨q, rfl⟩ := Nat.dvd_of_mod_eq_zero h4
  exact ⟨_, hall q (by omega)⟩

/-- The offsets from 0x40 on are the reserved ones (R56). -/
theorem eq_reserved_of_le_offset {r : Reg} (h : 0x40 ≤ r.offset) : ∃ j, r = .reserved j := by
  cases r with
  | reserved j => exact ⟨j, rfl⟩
  | out j => have := j.isLt; simp only [Reg.offset] at h; omega
  | _ => simp [Reg.offset] at h

/-- Settles O8: the register at each offset, the reads that are specified at all times, and the writes that are ignored. -/
theorem reservedAndReadOnlyOffsets : Obligations.ReservedAndReadOnlyOffsets := by
  refine ⟨fun s off hlo hhi h4 => ?_, step_rd_of_specified (r := .cmd) rfl, fun s off v hhi h4 hcmd harg => ?_⟩
  · obtain ⟨r, rfl⟩ := exists_register_offset (off := off) (by omega) h4
    obtain ⟨j, rfl⟩ := eq_reserved_of_le_offset hlo
    exact step_rd_of_specified (r := .reserved j) rfl s
  · obtain ⟨r, rfl⟩ := exists_register_offset (off := off) (by omega) h4
    exact step_wr_of_ignored (ne_of_apply_ne Reg.offset harg) (ne_of_apply_ne Reg.offset hcmd) s v

/-! ### DECODE and the bits of ARGL (R62) -/

/-- The first n bits of a chunk are all that `chunkBits` takes of it. -/
theorem chunkBits_congr {n : Nat} {a b : Word} (h : ∀ i < n, a.getLsbD i = b.getLsbD i) : chunkBits n a = chunkBits n b :=
  List.map_congr_left fun i hi => h i (List.mem_range.mp hi)

/-- DECODE with another latched operand that has the same first n bits: the same answer, ARGL aside (R62). -/
theorem exec_decode_with_argl (s : State) {n : BitVec 6} {a : Word}
    (h : ∀ b < n.toNat, a.getLsbD b = s.argl.getLsbD b) :
    exec (.decode n) { s with argl := a } = Answer.onNext (fun t => { t with argl := a }) (exec (.decode n) s) := by
  have hwalk (w : Walk) : State.walkBits { s with argl := a } (chunkBits n.toNat a) w =
      s.walkBits (chunkBits n.toNat s.argl) w := by
    rw [chunkBits_congr h]
    exact walkBits_congr (s := s) (t := { s with argl := a }) rfl rfl _ w
  simp only [exec, execDecode, Answer.onNext_ite, hwalk]
  rfl

/-- Settles O50: DECODE reads ARGL through its first n bits only, in its errors and in its effect. -/
theorem decodeIgnoresBitsPastCount : Obligations.DecodeIgnoresBitsPastCount := by
  intro s t n a h hexec
  rw [exec_decode_with_argl s h, hexec]
  rfl

end Sys2Proof.Machine

namespace Sys2Proof

/-! ### The layout of a command word (R70 to R72) -/

/-- The word has the opcode `c`, and its bits [23:n] are all 0. -/
def HasLayout (w : Word) (c : BitVec 8) (n : Nat) : Prop := opcodeField w = c ∧ w.extractLsb' n (24 - n) = 0

/-- The bits of an opcode in its place. -/
theorem getLsbD_opcodeBits (c : BitVec 8) {i : Nat} (h : i < 32) :
    (opcodeBits c).getLsbD i = (decide (24 ≤ i) && c.getLsbD (i - 24)) := by
  rw [opcodeBits, BitVec.getLsbD_shiftLeft, BitVec.getLsbD_setWidth]
  simp only [h, show i - 24 < 32 by omega, ← Nat.not_lt, decide_not, decide_true, Bool.true_and]

/-- Below bit 24 the opcode in its place has no bit. -/
theorem getLsbD_opcodeBits_of_lt (c : BitVec 8) {i : Nat} (h : i < 24) : (opcodeBits c).getLsbD i = false := by
  simp only [getLsbD_opcodeBits c (show i < 32 by omega), Nat.not_le.mpr h, decide_false, Bool.false_and]

section
variable {n : Nat} (hn : n ≤ 24) {w : Word} {c : BitVec 8}
include hn

/-- A word has the layout when from bit n on it has the bits of the opcode in its place. -/
theorem hasLayout_iff : HasLayout w c n ↔ ∀ i < 32, n ≤ i → w.getLsbD i = (opcodeBits c).getLsbD i := by
  constructor
  · rintro ⟨rfl, hzero⟩ i hi hni
    rw [getLsbD_opcodeBits _ hi]
    by_cases h : 24 ≤ i
    · simp only [opcodeField, BitVec.getLsbD_extractLsb', h, show i - 24 < 8 by omega, decide_true, Bool.true_and,
        Nat.add_sub_cancel' h]
    · have := congrArg (·.getLsbD (i - n)) hzero
      simpa [h, show i - n < 24 - n by omega, Nat.add_sub_cancel' hni] using this
  · refine fun h => ⟨?_, ?_⟩ <;> refine BitVec.eq_of_getLsbD_eq fun i hi => ?_
    · rw [opcodeField, BitVec.getLsbD_extractLsb', h _ (by omega) (by omega), getLsbD_opcodeBits _ (by omega)]
      simp [hi]
    · rw [BitVec.getLsbD_extractLsb', h _ (by omega) (by omega), getLsbD_opcodeBits_of_lt _ (by omega)]
      simp

/-- An operand of n bits leaves the layout of its opcode. -/
theorem hasLayout_opcodeBits_or (x : BitVec n) : HasLayout (opcodeBits c ||| x.setWidth 32) c n :=
  (hasLayout_iff hn).mpr fun i _ hi => by simp [BitVec.getLsbD_of_ge x i hi]

/-- The operand bits of a word built from an opcode and an operand. -/
theorem extractLsb'_opcodeBits_or (x : BitVec n) : (opcodeBits c ||| x.setWidth 32).extractLsb' 0 n = x := by
  refine BitVec.eq_of_getLsbD_eq fun i hi => ?_
  rw [BitVec.getLsbD_extractLsb', Nat.zero_add, BitVec.getLsbD_or, getLsbD_opcodeBits_of_lt _ (by omega)]
  simp [hi, show i < 32 by omega]

/-- A word with the layout is its opcode and its operand: no other bit of it is 1. -/
theorem HasLayout.opcodeBits_or_eq (h : HasLayout w c n) : opcodeBits c ||| (w.extractLsb' 0 n).setWidth 32 = w := by
  refine BitVec.eq_of_getLsbD_eq fun i hi => ?_
  rw [BitVec.getLsbD_or, BitVec.getLsbD_setWidth, BitVec.getLsbD_extractLsb']
  by_cases hi' : i < n
  · rw [getLsbD_opcodeBits_of_lt _ (by omega)]
    simp [hi, hi']
  · rw [(hasLayout_iff hn).mp h i hi (by omega)]
    simp [hi']

/-- The selection test with a mask of the bits [31:n] is the layout (R74). -/
theorem and_mask_eq_iff : w &&& BitVec.allOnes 32 <<< n = opcodeBits c ↔ HasLayout w c n := by
  have hand {i : Nat} (hi : i < 32) : (w &&& BitVec.allOnes 32 <<< n).getLsbD i = (decide (n ≤ i) && w.getLsbD i) := by
    rw [BitVec.getLsbD_and, BitVec.getLsbD_shiftLeft, BitVec.getLsbD_allOnes]
    simp only [hi, show i - n < 32 by omega, ← Nat.not_lt, decide_not, decide_true, Bool.true_and, Bool.and_comm]
  rw [hasLayout_iff hn]
  constructor
  · intro h i hi hni
    rw [← h, hand hi]
    simp [hni]
  · refine fun h => BitVec.eq_of_getLsbD_eq fun i hi => ?_
    rw [hand hi]
    by_cases hni : n ≤ i
    · simp only [hni, decide_true, Bool.true_and, h i hi hni]
    · rw [getLsbD_opcodeBits_of_lt _ (by omega)]
      simp [hni]

end

/-! ### Each command and its row of the opcode map (R74) -/

/-- The opcode of a command. -/
def Instr.opcode : Instr → BitVec 8
  | .nop => 0x00
  | .clear => 0x01
  | .loadFreq _ => 0x02
  | .readFreq _ => 0x03
  | .build => 0x04
  | .readNode _ => 0x05
  | .generate => 0x06
  | .readCode _ _ => 0x07
  | .decReset => 0x08
  | .decode _ => 0x09

/-- How many operand bits a command's word holds. -/
def Instr.operandWidth : Instr → Nat
  | .loadFreq _ | .readFreq _ => 8
  | .readNode _ => 9
  | .readCode _ _ => 11
  | .decode _ => 6
  | .nop | .clear | .build | .generate | .decReset => 0

/-- The command with the operands that the word holds in place of its own. -/
def Instr.withOperands : Instr → Word → Instr
  | .loadFreq _, w => .loadFreq (symField w)
  | .readFreq _, w => .readFreq (symField w)
  | .readNode _, w => .readNode (idxField w)
  | .readCode _ _, w => .readCode (symField w) (wordField w)
  | .decode _, w => .decode (countField w)
  | i, _ => i

/-- The row of a command. -/
def Instr.row (i : Instr) : OpcodeRow := ⟨i.mnemonic, opcodeBits i.opcode, BitVec.allOnes 32 <<< i.operandWidth⟩

/-- The word has the layout of the command's row. -/
def Instr.Fits (i : Instr) (w : Word) : Prop := HasLayout w i.opcode i.operandWidth

theorem Instr.operandWidth_le (i : Instr) : i.operandWidth ≤ 24 := by
  cases i <;> simp [Instr.operandWidth]

theorem Instr.row_selects_iff (i : Instr) (w : Word) : i.row.selects w = true ↔ i.Fits w := by
  rw [OpcodeRow.selects, beq_iff_eq]
  exact and_mask_eq_iff i.operandWidth_le

/-- The rows of R74 are those of the commands. -/
theorem opcodeMap_eq : opcodeMap = [Instr.nop, .clear, .loadFreq 0, .readFreq 0, .build, .readNode 0, .generate,
    .readCode 0 0, .decReset, .decode 0].map Instr.row := by
  decide

theorem exists_row_eq {r : OpcodeRow} (h : r ∈ opcodeMap) : ∃ i : Instr, i.row = r := by
  rw [opcodeMap_eq] at h
  obtain ⟨i, -, e⟩ := List.mem_map.mp h
  exact ⟨i, e⟩

theorem Instr.row_mem (i : Instr) : i.row ∈ opcodeMap := by
  rw [opcodeMap_eq]
  cases i <;> simp [Instr.row, Instr.mnemonic, Instr.opcode, Instr.operandWidth]

/-- No mnemonic and no opcode has two rows. -/
theorem row_unique : ∀ r ∈ opcodeMap, ∀ q ∈ opcodeMap, r.mnemonic = q.mnemonic ∨ r.value = q.value → r = q := by
  decide

/-! ### The encoder and the decoder (R74, R76, R78) -/

/-- The operand bits of a command, READ_CODE's WORD above its SYM (R73, R78). -/
def Instr.operand : (i : Instr) → BitVec i.operandWidth
  | .loadFreq y | .readFreq y => y
  | .readNode idx => idx
  | .readCode y w => w ++ y
  | .decode n => n
  | .nop | .clear | .build | .generate | .decReset => 0#0

/-- The word of a command is its opcode over its operand (R78). -/
theorem encode_eq (i : Instr) : encode i = opcodeBits i.opcode ||| i.operand.setWidth 32 := by
  cases i with
  | readCode y w =>
    have happend : (w ++ y).setWidth 32 = w.setWidth 32 <<< 8 ||| y.setWidth 32 :=
      BitVec.setWidth_append_eq_shiftLeft_setWidth_or
    exact (BitVec.or_assoc _ _ _).trans (congrArg _ happend.symm)
  | _ => rfl

/-- Two fields side by side are equal to two others when each is. -/
theorem append_eq_append_iff {m n : Nat} {a a' : BitVec m} {b b' : BitVec n} : a ++ b = a' ++ b' ↔ a = a' ∧ b = b' := by
  refine ⟨fun h => ⟨?_, ?_⟩, fun ⟨ha, hb⟩ => by rw [ha, hb]⟩
  · simpa only [BitVec.extractLsb'_append_eq_left] using congrArg (·.extractLsb' n m) h
  · simpa only [BitVec.extractLsb'_append_eq_right] using congrArg (·.extractLsb' 0 n) h

/-- A command has the operands of a word exactly when the word's operand bits are its own. -/
theorem Instr.withOperands_eq_iff {i : Instr} {w : Word} :
    i.withOperands w = i ↔ w.extractLsb' 0 i.operandWidth = i.operand := by
  cases i with
  | loadFreq y | readFreq y | readNode idx | decode n =>
    simp [Instr.withOperands, Instr.operand, Instr.operandWidth, symField, idxField, countField]
  | readCode y k =>
    have happend : w.extractLsb' 0 11 = wordField w ++ symField w :=
      (BitVec.extractLsb'_append_extractLsb'_eq_extractLsb' (x := w) (start₁ := 0) (len₁ := 8) (len₂ := 3) rfl).symm
    change Instr.readCode (symField w) (wordField w) = .readCode y k ↔ w.extractLsb' 0 11 = k ++ y
    rw [Instr.readCode.injEq, happend, append_eq_append_iff, and_comm]
  | nop | clear | build | generate | decReset => simp [Instr.withOperands, Instr.operand, Instr.operandWidth]

/-- The decoder reads a command from the words of its layout, with the operands they hold. -/
theorem decodeWord_of_fits {i : Instr} {w : Word} (h : i.Fits w) : decodeWord w = .command (i.withOperands w) := by
  obtain ⟨hopc, hclear⟩ := h
  unfold decodeWord
  rw [hopc]
  cases i <;> exact if_pos hclear

/-- The decoder reads a command from no other word. -/
theorem fits_of_decodeWord {i : Instr} {w : Word} (h : decodeWord w = .command i) : i.Fits w ∧ i.withOperands w = i := by
  have hopc {k : Nat} (hk : (opcodeField w).toNat = k) : opcodeField w = BitVec.ofNat 8 k := by
    rw [← hk, BitVec.ofNat_toNat, BitVec.setWidth_eq]
  have hclear {lo : Nat} {j : Instr} (e : commandIfClear w lo j = .command i) : w.extractLsb' lo (24 - lo) = 0 ∧ j = i := by
    unfold commandIfClear at e
    split at e
    · exact ⟨‹_›, Decoded.command.inj e⟩
    · cases e
  unfold decodeWord at h
  split at h
  case h_11 => cases h
  all_goals
    obtain ⟨hz, rfl⟩ := hclear h
    exact ⟨⟨hopc ‹_›, hz⟩, rfl⟩

theorem fits_encode (i : Instr) : i.Fits (encode i) :=
  encode_eq i ▸ hasLayout_opcodeBits_or i.operandWidth_le i.operand

/-- Settles O18: a command's word has its layout and holds its operands. -/
theorem decodeInvertsEncode : Obligations.DecodeInvertsEncode := fun i => by
  rw [decodeWord_of_fits (fits_encode i), Instr.withOperands_eq_iff.mpr]
  rw [encode_eq, extractLsb'_opcodeBits_or i.operandWidth_le]

/-- Settles O19: a word that decodes is the opcode of its command over the operand, the reserved bits being 0. -/
theorem encodeInvertsDecode : Obligations.EncodeInvertsDecode := fun w i h => by
  obtain ⟨hfits, hoperands⟩ := fits_of_decodeWord h
  rw [encode_eq, ← Instr.withOperands_eq_iff.mp hoperands]
  exact HasLayout.opcodeBits_or_eq i.operandWidth_le hfits

/-- A row of the opcode map is selected by a word that decodes to a command of that row only (R74). -/
theorem selects_iff_of_decodeWord {w : Word} {i : Instr} (h : decodeWord w = .command i) {r : OpcodeRow} (hr : r ∈ opcodeMap) :
    r.selects w = true ↔ r.mnemonic = i.mnemonic := by
  obtain ⟨hfits, -⟩ := fits_of_decodeWord h
  constructor
  · intro hsel
    obtain ⟨j, rfl⟩ := exists_row_eq hr
    obtain ⟨hj, -⟩ := (j.row_selects_iff w).mp hsel
    obtain ⟨hi, -⟩ := hfits
    have hvalue : j.row.value = i.row.value := congrArg opcodeBits (hj.symm.trans hi)
    exact congrArg OpcodeRow.mnemonic (row_unique _ hr _ i.row_mem (.inr hvalue))
  · intro hm
    rw [row_unique _ hr _ i.row_mem (.inl hm)]
    exact (i.row_selects_iff w).mpr hfits

/-- A word decodes to a command exactly when it selects a row (R74, R76). -/
theorem exists_command_iff (w : Word) : (∃ i, decodeWord w = .command i) ↔ ∃ r ∈ opcodeMap, r.selects w = true := by
  constructor
  · rintro ⟨i, h⟩
    exact ⟨i.row, i.row_mem, (selects_iff_of_decodeWord h i.row_mem).mpr rfl⟩
  · rintro ⟨r, hr, hsel⟩
    obtain ⟨i, rfl⟩ := exists_row_eq hr
    exact ⟨_, decodeWord_of_fits ((i.row_selects_iff w).mp hsel)⟩

/-- A word is illegal exactly when it is no command (R76). -/
theorem exists_illegal_iff (w : Word) : (∃ why, decodeWord w = .illegal why) ↔ ¬ ∃ i, decodeWord w = .command i := by
  cases decodeWord w <;> simp

/-- Settles O20: the rows selected, the operand fields, and the words that select no row. -/
theorem decodingFollowsOpcodeMap : Obligations.DecodingFollowsOpcodeMap := by
  refine fun w => ⟨fun i h => ⟨?_, ?_⟩, ?_⟩
  · exact List.filter_congr fun r hr => by
      rw [Bool.eq_iff_iff, selects_iff_of_decodeWord h hr, beq_iff_eq]
  · obtain ⟨-, hoperands⟩ := fits_of_decodeWord h
    refine ⟨?_, ?_, ?_, ?_⟩
    · rintro y (rfl | rfl)
      · exact (Instr.loadFreq.inj hoperands).symm
      · exact (Instr.readFreq.inj hoperands).symm
    · rintro idx rfl
      exact (Instr.readNode.inj hoperands).symm
    · rintro y k rfl
      obtain ⟨hsym, hword⟩ := Instr.readCode.inj hoperands
      exact ⟨hsym.symm, hword.symm⟩
    · rintro n rfl
      exact (Instr.decode.inj hoperands).symm
  · simp [exists_illegal_iff, exists_command_iff]

/-- The word of a command is well formed (R71, R72). -/
theorem commandWordWellFormed_encode : ∀ i, commandWordWellFormed (encode i) = true
  | .nop => Laws.EncodesWellFormed.nop
  | .clear => Laws.EncodesWellFormed.clear
  | .loadFreq y => Laws.EncodesWellFormed.loadFreq y
  | .readFreq y => Laws.EncodesWellFormed.readFreq y
  | .build => Laws.EncodesWellFormed.build
  | .readNode idx => Laws.EncodesWellFormed.readNode idx
  | .generate => Laws.EncodesWellFormed.generate
  | .readCode y w => Laws.EncodesWellFormed.readCode y w
  | .decReset => Laws.EncodesWellFormed.decReset
  | .decode n => Laws.EncodesWellFormed.decode n

theorem formatOfOpcode_of_reserved {c : Nat} (h : 0x0A ≤ c) : formatOfOpcode c = none := by
  obtain ⟨k, rfl⟩ := Nat.exists_eq_add_of_le' h
  rfl

/-- A reserved opcode and a reserved bit that is 1 make a word illegal (R72, R75). -/
theorem illegal_of_not_wellFormed {w : Word}
    (h : 0x0A ≤ (opcodeField w).toNat ∨
      ∃ f, formatOfOpcode (opcodeField w).toNat = some f ∧ w &&& f.reservedBits ≠ 0) :
    ∃ why, decodeWord w = .illegal why := by
  rw [exists_illegal_iff]
  rintro ⟨i, hi⟩
  have hwf := commandWordWellFormed_encode i
  rw [encodeInvertsDecode w i hi, commandWordWellFormed, opcodeListed, reservedBitsClear] at hwf
  obtain hopc | ⟨f, hf, hbits⟩ := h
  · simp [formatOfOpcode_of_reserved hopc] at hwf
  · exact hbits (by simpa [hf] using hwf)

/-- Settles O22: twelve closed words, by evaluation. -/
theorem sampleWordsDecode : Obligations.SampleWordsDecode := by
  unfold Obligations.SampleWordsDecode
  decide

end Sys2Proof

namespace Sys2Proof.Machine

open Sys2Proof

/-- Settles O21: the word is illegal, and the block's turn on an illegal word raises E_ILLEGAL. -/
theorem illegalWordReportsIllegal : Obligations.IllegalWordReportsIllegal := by
  intro s hb h
  obtain ⟨why, hd⟩ := illegal_of_not_wellFormed h
  rw [step_blockTurn, blockTurn_busy hb, State.runLatched, hd]
  rfl

/-! ### Commands and the model's own fields (log 1, 3, 4) -/

/-- The state with other values of the model's own fields. -/
def State.withOwn (s : State) (xs : List Input) (k : Nat) (r : Option Word) : State :=
  { s with inputs := xs, draws := k, readData := r }

section
variable (s : State) (xs : List Input) (k : Nat) (r : Option Word)

theorem tableAfterLoad_withOwn (y : Sym) (c : Word) :
    (s.withOwn xs k r).tableAfterLoad y c = (s.tableAfterLoad y c).withOwn xs k r := by
  have hfreq : (s.withOwn xs k r).freqOf y = s.freqOf y := rfl
  simp only [State.tableAfterLoad, State.addKey, hfreq]
  split <;> rfl

/-- No command reads or writes the model's own fields. -/
theorem exec_withOwn (i : Instr) :
    exec i (s.withOwn xs k r) = Answer.onNext (·.withOwn xs k r) (exec i s) := by
  cases i with
  | nop => rfl
  | clear => rfl
  | readFreq y => rfl
  | loadFreq y =>
    simp only [exec, execLoadFreq, Answer.onNext_ite]
    rw [show (s.withOwn xs k r).argl = s.argl from rfl, tableAfterLoad_withOwn]; rfl
  | build => simp only [exec, execBuild, Answer.onNext_ite]; rfl
  | readNode idx => simp only [exec, execReadNode, Answer.onNext_ite]; rfl
  | generate => simp only [exec, execGenerate, Answer.onNext_ite]; rfl
  | readCode y w => simp only [exec, execReadCode, Answer.onNext_ite]; rfl
  | decReset => simp only [exec, execDecReset, Answer.onNext_ite]; rfl
  | decode n =>
    simp only [exec, execDecode, Answer.onNext_ite]
    rw [walkBits_congr (s := s) (t := s.withOwn xs k r) rfl rfl]; rfl

end

/-- A command leaves the model's own fields as they are, and does the same with other values of them. -/
theorem exec_own {i : Instr} {s t : State} (h : exec i s = .next t) :
    t.inputs = s.inputs ∧ ∀ xs k r, exec i (s.withOwn xs k r) = .next (t.withOwn xs k r) := by
  have hall (xs k r) : exec i (s.withOwn xs k r) = .next (t.withOwn xs k r) := by rw [exec_withOwn, h]; rfl
  have hself : t = t.withOwn s.inputs s.draws s.readData := Host.Outcome.next.inj (h.symm.trans (hall _ _ _))
  exact ⟨by rw [hself]; rfl, hall⟩

/-- A command completes with BUSY = 0 (R81, R128). -/
theorem exec_busy {i : Instr} {s t : State} (h : exec i s = .next t) : t.busy = false := by
  obtain ⟨e, -, rfl⟩ | ⟨u, rfl, -⟩ := exec_next_cases h <;> rfl

/-! ### The host operations of a mnemonic (R77, R78) -/

theorem run_succ_of_step {s t : State} (h : step s = .next t) (n : Nat) :
    Host.Core.run Sys2Proof.core (n + 1) s = Host.Core.run Sys2Proof.core n t := by
  simp only [Host.Core.run, Sys2Proof.core, h]

/-- A vain read of STATUS draws a value (R148). -/
theorem step_rd_status_of_busy {s : State} (h : s.busy = true) :
    step (s.facing (rd .status)) = .next (s.withOwn s.inputs (s.draws + 1)
      (some (s.busyStatusWord (Config.unspecified s.draws)))) := by
  rw [step_rd, State.hostRead, if_pos ⟨h, rfl⟩]
  rfl

/-- POLL from a command in progress: the vain reads, the completion, and the read of STATUS that sees it (R77, R146). -/
theorem run_poll {i : Instr} {s t : State} (hb : s.busy = true) (hd : decodeWord s.cmdl = .command i) (h : exec i s = .next t)
    (p k : Nat) (r : Option Word) (rest : List Input) :
    Host.Core.run Sys2Proof.core (poll p).length (s.withOwn (poll p ++ rest) k r) =
      .next (t.withOwn rest (k + p) (some t.statusWord)) := by
  induction p generalizing k r with
  | zero =>
    obtain ⟨-, hown⟩ := exec_own h
    have hturn : step (s.withOwn (poll 0 ++ rest) k r) = .next (t.withOwn (rd .status :: rest) k r) :=
      (step_blockTurn_of_decoded (s := s.withOwn (rd .status :: rest) k r) hb hd).trans (hown _ k r)
    have hidle : t.busy = false := exec_busy h
    have hread : step (t.withOwn (rd .status :: rest) k r) = .next (t.withOwn rest k (some t.statusWord)) :=
      step_rd_of_idle (s := t.withOwn rest k r) hidle .status
    exact (run_succ_of_step hturn 1).trans (run_succ_of_step hread 0)
  | succ p ih =>
    have hread := step_rd_status_of_busy (s := s.withOwn (poll p ++ rest) k r) hb
    calc Host.Core.run Sys2Proof.core (poll (p + 1)).length (s.withOwn (poll (p + 1) ++ rest) k r)
      _ = _ := run_succ_of_step hread (poll p).length
      _ = _ := ih (k + 1) _
      _ = _ := by rw [Nat.add_assoc, Nat.add_comm 1 p]

/-- The CMD write of a command while BUSY = 0, and POLL (R28, R78). -/
theorem run_wr_cmd_poll {i : Instr} {s t : State} (hb : s.busy = false) (h : exec i (s.issue (encode i)) = .next t) (p k : Nat)
    (r : Option Word) (rest : List Input) :
    Host.Core.run Sys2Proof.core (wr .cmd (encode i) :: poll p).length
      (s.withOwn (wr .cmd (encode i) :: poll p ++ rest) k r) = .next (t.withOwn rest (k + p) (some t.statusWord)) := by
  have hissue := step_wr_cmd_of_idle (s := s.withOwn (poll p ++ rest) k r) hb (encode i)
  exact (run_succ_of_step hissue (poll p).length).trans
    (run_poll (s := s.issue (encode i)) rfl (decodeInvertsEncode i) h p k r rest)

/-- Settles O16: the ARG write where the command has one, then the CMD write and POLL. -/
theorem mnemonicRunsToCompletion : Obligations.MnemonicRunsToCompletion := by
  intro s t i a p rest hb hinputs h
  obtain ⟨hrest, -⟩ := exec_own h
  have hs : s = s.withOwn (expand i a p ++ rest) s.draws s.readData := by rw [← hinputs]; rfl
  have ht : t.withOwn rest (s.draws + p) (some t.statusWord) =
      { t with draws := s.draws + p, readData := some t.statusWord } := by
    rw [show rest = t.inputs from hrest.symm]; rfl
  rw [← ht]
  refine (congrArg (Host.Core.run Sys2Proof.core _) hs).trans ?_
  cases harg : usesArg i with
  | false =>
    simp only [harg, Bool.false_eq_true, if_false, expand, List.nil_append] at h ⊢
    exact run_wr_cmd_poll (s := { s with inputs := rest }) hb h p s.draws s.readData rest
  | true =>
    simp only [harg, if_true, expand] at h ⊢
    have hwrite := step_wr (s.withOwn (wr .cmd (encode i) :: poll p ++ rest) s.draws s.readData) .arg a
    exact (run_succ_of_step hwrite _).trans
      (run_wr_cmd_poll (s := { s with inputs := rest, arg := a }) hb h p s.draws s.readData rest)

end Sys2Proof.Machine

namespace Sys2Proof.Machine

open Sys2Proof

/-! ### The checks of a command and its end (R81, R128, R130) -/

/-- The first of the causes that applies; E_OK if none does (R130). -/
def firstCause (causes : List (ErrCode × Bool)) : ErrCode :=
  match causes.find? (·.2) with
  | some c => c.1
  | none => .ok

theorem firstError_eq (i : Instr) (s : State) : firstError i s = firstCause (errorCauses i s) := rfl

section
variable {e : ErrCode} {b : Bool}

theorem firstCause_of_applies (h : b = true) (causes : List (ErrCode × Bool)) : firstCause ((e, b) :: causes) = e := by
  subst h; rfl

theorem firstCause_of_not_applies (h : b = false) (causes : List (ErrCode × Bool)) :
    firstCause ((e, b) :: causes) = firstCause causes := by
  subst h; rfl

end

/-- The first cause is one of the causes and applies. -/
theorem firstCause_mem {causes : List (ErrCode × Bool)} (h : firstCause causes ≠ .ok) :
    (firstCause causes, true) ∈ causes := by
  unfold firstCause at h ⊢
  cases hfind : causes.find? (·.2) with
  | none => rw [hfind] at h; exact absurd rfl h
  | some c =>
    have happlies : c.2 = true := List.find?_some hfind
    exact happlies ▸ List.mem_of_find?_eq_some hfind

/-- E_PHASE is the first check of every command, and its cause is R82's table alone. -/
theorem firstError_eq_phase_iff {i : Instr} {s : State} : firstError i s = .phase ↔ permitted i s = false := by
  constructor
  · intro h
    have hmem : (ErrCode.phase, true) ∈ errorCauses i s := by
      rw [← h]
      exact firstCause_mem (by rw [← firstError_eq, h]; decide)
    simpa [errorCauses] using hmem
  · exact fun h => firstCause_of_applies (by simp [h]) _

/-- A command started in `s` ends as R81 and R128 say: with BUSY = 0 and LAST_ERR = `e`, and with no other effect unless `e` is
E_OK. -/
def State.EndsWith (s : State) (o : Answer) (e : ErrCode) : Prop :=
  ∃ t, o = .next t ∧ t.busy = false ∧ t.lastErr = e ∧ (e ≠ .ok → t = s.failed e)

theorem endsWith_raise (s : State) (e : ErrCode) : s.EndsWith (s.raise e) e :=
  ⟨_, raise_eq s e, rfl, rfl, fun _ => rfl⟩

theorem endsWith_complete (s t : State) : s.EndsWith t.complete .ok :=
  ⟨_, complete_eq t, rfl, rfl, fun h => absurd rfl h⟩

section
variable {s : State} {o : Answer} {e : ErrCode} {causes : List (ErrCode × Bool)}

/-- A command's check for a cause: it raises that error where the cause applies, and goes on to the later causes where not. -/
theorem endsWith_check {c : Prop} [Decidable c] {b : Bool} (hb : b = true ↔ c) (h : s.EndsWith o (firstCause causes)) :
    s.EndsWith (if c then s.raise e else o) (firstCause ((e, b) :: causes)) := by
  by_cases hc : c
  · rw [if_pos hc, firstCause_of_applies (hb.mpr hc)]
    exact endsWith_raise s e
  · rw [if_neg hc, firstCause_of_not_applies (Bool.eq_false_iff.mpr (mt hb.mp hc))]
    exact h

/-- A cause that never applies to a command needs no check. -/
theorem endsWith_skip (h : s.EndsWith o (firstCause causes)) : s.EndsWith o (firstCause ((e, false) :: causes)) := h

end

theorem tree_or_code_eq_ne_load (p : Phase) : (p == .tree || p == .code) = (p != .load) := by
  cases p <;> rfl

/-- Every command checks the causes that can apply to it in the order of R130, and completes when none does. -/
theorem exec_endsWith_firstError (i : Instr) (s : State) : s.EndsWith (exec i s) (firstError i s) := by
  rw [firstError_eq]
  cases i with
  | nop | clear | readFreq y => exact endsWith_complete s _
  | build => exact endsWith_check (by simp [permitted]) (endsWith_complete s _)
  | generate | decReset => exact endsWith_check (by simp [permitted, tree_or_code_eq_ne_load]) (endsWith_complete s _)
  | loadFreq y =>
    exact endsWith_check (by simp [permitted]) (endsWith_check (by simp)
      (endsWith_check decide_eq_true_iff (endsWith_complete s _)))
  | readNode idx =>
    exact endsWith_check (by simp [permitted, tree_or_code_eq_ne_load])
      (endsWith_check decide_eq_true_iff (endsWith_complete s _))
  | readCode y w =>
    exact endsWith_check (by simp [permitted])
      (endsWith_skip (endsWith_skip (endsWith_check (by simp) (endsWith_complete s _))))
  | decode n =>
    exact endsWith_check (by simp [permitted, tree_or_code_eq_ne_load])
      (endsWith_check (by simp) (endsWith_complete s _))

/-- The block's turn on an illegal word raises E_ILLEGAL (R72, R75). -/
theorem step_blockTurn_of_illegal {s : State} {why : IllegalWord} (hb : s.busy = true)
    (hd : decodeWord s.cmdl = .illegal why) : step (s.facing .blockTurn) = .next (s.failed .illegal) := by
  rw [step_blockTurn, blockTurn_busy hb, State.runLatched, hd, raise_eq]

/-- The block's turn ends the command in progress, whatever its word (R81, R128). -/
theorem step_blockTurn_endsWith {s : State} (hb : s.busy = true) : ∃ e, s.EndsWith (step (s.facing .blockTurn)) e := by
  cases hd : decodeWord s.cmdl with
  | command i =>
    rw [step_blockTurn_of_decoded hb hd]
    exact ⟨_, exec_endsWith_firstError i s⟩
  | illegal why =>
    rw [step_blockTurn_of_illegal hb hd]
    exact ⟨_, endsWith_raise s .illegal⟩

/-- Settles O23: every command ends with its first error, and the block's turn with that or with E_ILLEGAL. -/
theorem commandsEndPrecisely : Obligations.CommandsEndPrecisely := by
  refine ⟨fun i s => ?_, fun s hb => ?_⟩
  · obtain ⟨t, h, hbusy, hlast, herr⟩ := exec_endsWith_firstError i s
    rw [← hlast] at herr ⊢
    exact ⟨t, h, hbusy, id, herr⟩
  · obtain ⟨e, t, h, hbusy, rfl, herr⟩ := step_blockTurn_endsWith hb
    exact ⟨t, h, hbusy, herr⟩

/-- Settles O24: a command ends with its first error, which is E_PHASE exactly where R82 does not permit it. -/
theorem permittedPhases : Obligations.PermittedPhases := by
  intro i s
  obtain ⟨t, h, -, hlast, herr⟩ := exec_endsWith_firstError i s
  refine ⟨fun hp => ?_, fun hp => ⟨t, h, ?_⟩⟩
  · rw [firstError_eq_phase_iff.mpr hp] at herr
    rw [h, herr (by decide)]
  · rw [hlast, Ne, firstError_eq_phase_iff, hp]
    decide

/-! ### NOP and CLEAR (R83, R84) -/

/-- A word with a command's opcode and a 1 above its operand bits is illegal (R72). -/
theorem decodeWord_of_reservedBits {i : Instr} {w : Word} (hopc : opcodeField w = i.opcode)
    (h : w.extractLsb' i.operandWidth (24 - i.operandWidth) ≠ 0) : decodeWord w = .illegal .reservedBits := by
  unfold decodeWord
  rw [hopc]
  cases i <;> exact if_neg h

/-- The E_ILLEGAL clause of every command rule (R72). -/
theorem rejectsReservedBits (i : Instr) : RejectsReservedBits i.opcode.toNat i.operandWidth := fun _ hb hopc h =>
  step_blockTurn_of_illegal hb (decodeWord_of_reservedBits (BitVec.eq_of_toNat_eq hopc) h)

/-- Settles O28: NOP is a completion of the state as it is. -/
theorem nopWritesOnlyLastErr : Obligations.NopWritesOnlyLastErr := by
  obtain ⟨hnop, -⟩ := sampleWordsDecode
  exact ⟨hnop, rejectsReservedBits .nop, complete_eq⟩

/-- Settles O29: CLEAR is a completion of the cleared state, which has the values of the reset state field by field. -/
theorem clearGivesResetStateButArg : Obligations.ClearGivesResetStateButArg := by
  obtain ⟨-, hclear, -⟩ := sampleWordsDecode
  exact ⟨hclear, rejectsReservedBits .clear, fun s => complete_eq s.cleared⟩

end Sys2Proof.Machine

namespace Sys2Proof.Machine

open Sys2Proof

/-! ### A load's table, in terms of the keys (R45, R88) -/

/-- A load appends a new symbol to the keys and moves no key (R88). -/
theorem keys_tableAfterLoad {s : State} (hs : s.TableInv) (y : Sym) (c : Word) :
    (s.tableAfterLoad y c).keys = if y ∈ s.keys then s.keys else s.keys ++ [y] := by
  obtain ⟨hk, hnodup, hfreq, -, -⟩ := hs
  rw [State.tableAfterLoad, keys_addCount]
  split
  · next hy => rw [addKey_present ((hfreq y).mpr hy)]
  · next hy => exact keys_addKey (Classical.not_not.mp (mt (hfreq y).mp hy)) (k_lt_of_not_mem hk hnodup hy)

/-- A load writes ORDER at index K at most (R88). -/
theorem orderAt_tableAfterLoad_of_ne {s : State} {i : Nat} (h : i ≠ s.k.toNat) (y : Sym) (c : Word) :
    (s.tableAfterLoad y c).orderAt i = s.orderAt i := by
  rw [State.orderAt, State.orderAt]
  split
  · simp only [tableAfterLoad_order]
    split
    · rw [orderSet_get, if_neg (Ne.symm h)]
    · rfl
  · rfl

/-- ORDER is the keys and then zeros (R45). -/
theorem orderAt_eq_getD_keys {s : State} (hs : s.TableInv) (i : Nat) : s.orderAt i = s.keys.getD i 0 := by
  obtain ⟨hk, -, -, -, hzero⟩ := hs
  by_cases hi : i < s.keys.length
  · rw [List.getD_eq_getElem _ _ hi, keys_getElem s hi]
  · rw [List.getD_eq_default _ _ (Nat.not_lt.mp hi)]
    rw [keys_length s hk, Nat.not_lt] at hi
    by_cases h256 : i < 256
    · exact hzero i h256 hi
    · exact dif_neg h256

/-- The keys and the counts determine FREQ, ORDER and K (R45, R46). -/
theorem table_ext {s t : State} (hs : s.TableInv) (ht : t.TableInv) (hkeys : s.keys = t.keys)
    (hfreq : ∀ y, s.freqOf y = t.freqOf y) : s.freq = t.freq ∧ s.order = t.order ∧ s.k = t.k := by
  have ⟨hsk, _⟩ := hs
  have ⟨htk, _⟩ := ht
  refine ⟨Vector.ext fun i hi => ?_, Vector.ext fun i hi => ?_, BitVec.eq_of_toNat_eq ?_⟩
  · simpa [State.freqOf, Nat.mod_eq_of_lt hi] using hfreq (BitVec.ofNat 8 i)
  · have h : s.orderAt i = t.orderAt i := by rw [orderAt_eq_getD_keys hs, orderAt_eq_getD_keys ht, hkeys]
    simpa [State.orderAt, hi] using h
  · rw [← keys_length s hsk, ← keys_length t htk, hkeys]

/-! ### The two ways of loading (R13, R89) -/

/-- A command that reported E_OK ran in the state the host's two writes leave. -/
theorem exec_of_performOk {s t : State} {i : Instr} {a : Word} (h : performOk i a s = some t) :
    exec i (s.issued i a) = .next t ∧ t.lastErr = .ok := by
  have hp : perform i a s = exec i (s.issued i a) := rfl
  unfold performOk at h
  split at h
  · next hu =>
    split at h
    · next hok => cases h; exact ⟨hp ▸ hu, hok⟩
    · cases h
  · cases h
  · cases h

/-- A LOAD_FREQ that reports E_OK keeps R46, and the keys are those of the load's table (R88). -/
theorem performOk_loadFreq_keys {s t : State} {y : Sym} {c : Word} (h : performOk (.loadFreq y) c s = some t)
    (hs : s.TableInv) : t.TableInv ∧ t.keys = if y ∈ s.keys then s.keys else s.keys ++ [y] := by
  obtain ⟨hexec, hok⟩ := exec_of_performOk h
  have hissued : (s.issued (.loadFreq y) c).TableInv := tableInv_congr (s := s) rfl rfl rfl hs
  refine ⟨exec_tableInv hexec hissued, ?_⟩
  obtain ⟨e, he, rfl⟩ | ⟨u, rfl, -, -, -, rfl⟩ := exec_next_cases hexec
  · exact absurd hok he
  · exact keys_tableAfterLoad hissued y c

/-- The first occurrences in `y :: S` of symbols outside `K` are `y`, if it is outside, and then those in `S` of symbols outside
`K` and other than `y`. -/
theorem append_filter_firstOccurrences_cons (K : List Sym) (y : Sym) (S : List Sym) :
    K ++ (firstOccurrences (y :: S)).filter (· ∉ K) =
      (if y ∈ K then K else K ++ [y]) ++
        (firstOccurrences S).filter (· ∉ if y ∈ K then K else K ++ [y]) := by
  rw [firstOccurrences, List.filter_cons, List.filter_filter]
  by_cases hy : y ∈ K
  · have hne {z : Sym} (hz : z ∉ K) : z ≠ y := fun e => hz (e ▸ hy)
    have hfilter : (firstOccurrences S).filter (fun z => decide (z ∉ K) && decide (z ≠ y)) =
        (firstOccurrences S).filter (· ∉ K) :=
      List.filter_congr fun z _ => by simpa using hne
    rw [if_neg (by simpa using hy), if_pos hy, hfilter]
  · simp [hy]

/-- Loads that all report E_OK append the new symbols to the keys in the order of their first occurrence (R88, R89). -/
theorem keys_performAll_loadCommands {s t : State} {L : List (Sym × Word)} (h : performAll (loadCommands L) s = some t)
    (hs : s.TableInv) : t.keys = s.keys ++ (firstOccurrences (L.map Prod.fst)).filter (· ∉ s.keys) := by
  induction L generalizing s with
  | nil => cases h; simp [firstOccurrences]
  | cons p L ih =>
    obtain ⟨y, c⟩ := p
    obtain ⟨u, hu, hrest⟩ := Option.bind_eq_some_iff.mp h
    obtain ⟨htable, hkeys⟩ := performOk_loadFreq_keys hu hs
    rw [ih hrest htable, hkeys, List.map_cons, append_filter_firstOccurrences_cons]

theorem firstOccurrences_of_nodup {S : List Sym} (h : S.Nodup) : firstOccurrences S = S := by
  induction S with
  | nil => rfl
  | cons y S ih =>
    obtain ⟨hy, hS⟩ := List.nodup_cons.mp h
    rw [firstOccurrences, ih hS, List.filter_eq_self.mpr fun z hz => by simpa using ne_of_mem_of_not_mem hz hy]

/-- Either way of R13 loads the symbols of an input in the order of their first occurrence (R89). -/
theorem keys_performAll_load {S : List Sym} {s t : State} {load : List (Instr × Word)}
    (hload : load = loadPerOccurrence S ∨ load = loadPerSymbol S) (h : performAll load s = some t) (hs : s.TableInv)
    (hk : s.k = 0) : t.keys = firstOccurrences S := by
  have hL : ∃ L, load = loadCommands L ∧ firstOccurrences (L.map Prod.fst) = firstOccurrences S := by
    rcases hload with rfl | rfl
    · exact ⟨_, loadPerOccurrence_eq S, by simp [Function.comp_def]⟩
    · exact ⟨_, loadPerSymbol_eq S, by simp [Function.comp_def, firstOccurrences_of_nodup (firstOccurrences_nodup S)]⟩
  obtain ⟨L, rfl, hfirst⟩ := hL
  have hempty : s.keys = [] := by simp [State.keys, hk]
  rw [keys_performAll_loadCommands h hs, hfirst, hempty]
  simp

/-- Settles O32: the keys after either way are the first occurrences, the counts the numbers of occurrences, and the two
determine the table. -/
theorem bothWaysOfLoadingAgree : Obligations.BothWaysOfLoadingAgree := by
  intro S s hS hs hp hk
  obtain ⟨t, ht, htable, -, -, htcount⟩ := performAll_load hS hs hp hk (.inl rfl)
  obtain ⟨u, hu, hutable, -, -, hucount⟩ := performAll_load hS hs hp hk (.inr rfl)
  have htkeys := keys_performAll_load (.inl rfl) ht hs hk
  have hukeys := keys_performAll_load (.inr rfl) hu hs hk
  obtain ⟨hfreq, horder, hkeys⟩ := table_ext htable hutable (htkeys.trans hukeys.symm) fun y =>
    BitVec.eq_of_toNat_eq ((htcount y).trans (hucount y).symm)
  exact ⟨t, u, ht, hu, hfreq, horder, hkeys, htkeys, htcount⟩

/-! ### LOAD_FREQ and READ_FREQ (R88, R90) -/

/-- RESULT1 holds LIDX, which fits. -/
theorem toNat_setWidth_leafIndex (s : State) (y : Sym) : ((s.leafIndex y).setWidth 32).toNat = (s.leafIndex y).toNat :=
  BitVec.toNat_setWidth_of_le (by decide)

theorem exec_loadFreq_of_ne_load {s : State} (hp : s.phase ≠ .load) (y : Sym) :
    exec (.loadFreq y) s = .next (s.failed .phase) := by
  rw [exec, execLoadFreq, if_pos hp, raise_eq]

theorem exec_loadFreq_of_count_zero {s : State} (hp : s.phase = .load) (hc : s.argl = 0) (y : Sym) :
    exec (.loadFreq y) s = .next (s.failed .arg) := by
  rw [exec, execLoadFreq, if_neg (fun h => h hp), if_pos hc, raise_eq]

theorem exec_loadFreq_of_overflow {s : State} (hp : s.phase = .load) (hc : s.argl ≠ 0)
    (ht : Config.freqMax < s.totalCount + s.argl.toNat) (y : Sym) : exec (.loadFreq y) s = .next (s.failed .ovf) := by
  rw [exec, execLoadFreq, if_neg (fun h => h hp), if_neg hc, if_pos ht, raise_eq]

/-- A first load appends its symbol to the keys, at index K (R88). -/
theorem tableAfterLoad_of_absent {s : State} (hs : s.TableInv) {y : Sym} (h0 : s.freqOf y = 0) (c : Word) :
    (s.tableAfterLoad y c).k.toNat = s.k.toNat + 1 ∧ (s.tableAfterLoad y c).keys = s.keys ++ [y] ∧
      ∀ i, i ≠ s.k.toNat → (s.tableAfterLoad y c).orderAt i = s.orderAt i := by
  have ⟨hk, hnodup, hfreq, _, _⟩ := hs
  have hy : y ∉ s.keys := fun hm => (hfreq y).mpr hm h0
  have hlt := k_lt_of_not_mem hk hnodup hy
  refine ⟨?_, by rw [keys_tableAfterLoad hs, if_neg hy], fun i hi => orderAt_tableAfterLoad_of_ne hi y c⟩
  rw [tableAfterLoad_k, if_pos h0, BitVec.toNat_add]
  exact Nat.mod_eq_of_lt (by simpa using (by omega : s.k.toNat + 1 < 512))

/-- A later load of a symbol leaves K and ORDER (R88). -/
theorem tableAfterLoad_of_present {s : State} {y : Sym} (h0 : s.freqOf y ≠ 0) (c : Word) :
    (s.tableAfterLoad y c).k = s.k ∧ (s.tableAfterLoad y c).order = s.order :=
  ⟨(tableAfterLoad_k s y c).trans (if_neg h0), (tableAfterLoad_order s y c).trans (if_neg h0)⟩

/-- While TOTAL fits, a load adds its count exactly (R88). -/
theorem toNat_freqOf_tableAfterLoad {s : State} {c : Word} (ht : s.totalCount + c.toNat ≤ Config.freqMax) (y : Sym) :
    ((s.tableAfterLoad y c).freqOf y).toNat = (s.freqOf y).toNat + c.toNat := by
  rw [freqOf_tableAfterLoad, if_pos rfl, toNat_freqOf_add s y c ht]

theorem freqOf_tableAfterLoad_ne_zero {s : State} {c : Word} (hc : c ≠ 0)
    (ht : s.totalCount + c.toNat ≤ Config.freqMax) (y : Sym) : (s.tableAfterLoad y c).freqOf y ≠ 0 := fun e => by
  have hcount := toNat_freqOf_tableAfterLoad ht y
  rw [e] at hcount
  exact hc (BitVec.eq_of_toNat_eq (Nat.add_eq_zero_iff.mp hcount.symm).2)

/-- Settles O30: the three checks in their order, then the load's table and what it holds of the symbol. -/
theorem loadFreqAddsCount : Obligations.LoadFreqAddsCount := by
  refine ⟨fun y => decodeInvertsEncode (.loadFreq y), rejectsReservedBits (.loadFreq 0), fun s y hs =>
    ⟨fun hp => exec_loadFreq_of_ne_load hp y, fun hp hc => exec_loadFreq_of_count_zero hp hc y,
      fun hp hc ht => exec_loadFreq_of_overflow hp hc ht y, fun hp hc ht => ?_⟩⟩
  have hexec := (exec_loadFreq_of_checks (y := y) hp hc ht).trans (complete_eq _)
  have hframe := tableAfterLoad_frame s y s.argl
  have hcount := toNat_freqOf_tableAfterLoad ht y
  have hothers (z : Sym) (hz : z ≠ y) : (s.tableAfterLoad y s.argl).freqOf z = s.freqOf z :=
    (freqOf_tableAfterLoad s y z s.argl).trans (if_neg (Ne.symm hz))
  have hnew (h0 : s.freqOf y = 0) := tableAfterLoad_of_absent hs h0 s.argl
  have hpresent (h0 : s.freqOf y ≠ 0) := tableAfterLoad_of_present h0 s.argl
  have htotal := totalCount_tableAfterLoad s y s.argl ht
  obtain ⟨hindex, hleaf⟩ := leafIndex_of_counted (tableInv_tableAfterLoad hs hc ht) (freqOf_tableAfterLoad_ne_zero hc ht y)
  rw [← toNat_setWidth_leafIndex] at hindex hleaf
  -- The table is opaque from here on, so that reading it through the completed state needs no unfolding of the load.
  generalize s.tableAfterLoad y s.argl = u at *
  obtain ⟨f, o, k, rfl⟩ := hframe
  exact ⟨_, hexec, rfl, hcount, hothers, hnew, hpresent, htotal, rfl, hindex, hleaf⟩

/-- Settles O31: READ_FREQ is a completion of the state with FREQ and LIDX of the symbol as its results. -/
theorem readFreqReadsCountAndIndex : Obligations.ReadFreqReadsCountAndIndex := by
  refine ⟨fun y => decodeInvertsEncode (.readFreq y), rejectsReservedBits (.readFreq 0), fun s y hs =>
    ⟨_, complete_eq _, fun h0 => ?_, fun hy => ?_⟩⟩
  · rw [leafIndex_absent h0]; rfl
  · rw [State.withResults_result1, toNat_setWidth_leafIndex]
    exact leafIndex_of_counted hs hy

end Sys2Proof.Machine


namespace Sys2Proof.Machine

open Sys2Proof

/-! ### NNODE, ROOTPOS and BUILD's results as numbers (R47, R50, R94) -/

/-- NNODE is 2K - 1, and 0 without a key (R47). -/
theorem nnode_eq_two_mul_sub_one (s : State) : s.nnode = 2 * s.k.toNat - 1 := by
  rcases Nat.eq_zero_or_pos s.k.toNat with h | h
  · rw [State.nnode, if_pos (BitVec.eq_of_toNat_eq h), h]
  · exact nnode_eq h

/-- ROOTPOS as a number (R50). -/
theorem toNat_rootPos {s : State} (hk : s.k.toNat ≤ 256) :
    s.rootPos.toNat = if 2 ≤ s.k.toNat then 2 * s.k.toNat - 2 else 0x1FF := by
  rw [State.rootPos]
  split
  · exact Nat.mod_eq_of_lt (by omega)
  · rfl

/-- BUILD's RESULT1 as a number (R94). -/
theorem toNat_setWidth_rootIndex {s : State} (hk : s.k.toNat ≤ 256) :
    (s.rootIndex.setWidth 32).toNat = if s.k = 0 then 0x1FF else 2 * s.k.toNat - 2 := by
  rw [BitVec.toNat_setWidth_of_le (by decide), State.rootIndex, nnode_eq_two_mul_sub_one]
  split
  · rfl
  · rw [BitVec.toNat_ofNat, Nat.mod_eq_of_lt (by omega)]
    omega

/-- BUILD's RESULT0 as a number (R94). -/
theorem toNat_ofNat_nnode (s : State) : (BitVec.ofNat 32 s.nnode).toNat = 2 * s.k.toNat - 1 := by
  have hk := s.k.isLt
  rw [nnode_eq_two_mul_sub_one]
  exact Nat.mod_eq_of_lt (by omega)

/-! ### BUILD reads no node it has not written (R94) -/

/-- The least key of a queue depends on the queue's nodes alone (R93). -/
theorem leastKey_congr {a b : Vector Node 511} {i : Nat} {q : List Nat} (h : ∀ j ∈ i :: q, nodeIn a j = nodeIn b j) :
    leastKey a i q = leastKey b i q := by
  induction q generalizing i with
  | nil => rfl
  | cons j q ih =>
    have hkey : keyLt a j i = keyLt b j i := by rw [keyLt, keyLt, h i (by simp), h j (by simp)]
    rw [leastKey, leastKey, hkey]
    refine ih fun l hl => ?_
    split at hl
    · exact h l (List.mem_cons_of_mem _ hl)
    · rcases List.mem_cons.mp hl with rfl | hl
      · exact h _ List.mem_cons_self
      · exact h l (by simp [hl])

theorem popLeast_congr {a b : Vector Node 511} {q : List Nat} (h : ∀ j ∈ q, nodeIn a j = nodeIn b j) :
    popLeast a q = popLeast b q := by
  cases q with
  | nil => rfl
  | cons i q => rw [popLeast, popLeast, leastKey_congr h]

/-- The next index goes to the end of a queue of earlier ones. -/
theorem lt_succ_of_mem_append {q : List Nat} {n : Nat} (h : ∀ j ∈ q, j < n) : ∀ j ∈ q ++ [n], j < n + 1 := by
  intro j hj
  rcases List.mem_append.mp hj with hj | hj
  · exact Nat.lt_succ_of_lt (h j hj)
  · rw [List.mem_singleton.mp hj]; exact Nat.lt_succ_self n

/-- The turn of the loop that merges the two candidates it pops (R94). -/
theorem mergeLoop_of_popLeast {nodes : Vector Node 511} {q q1 q2 : List Nat} {x y : Nat} (hx : popLeast nodes q = some (x, q1))
    (hy : popLeast nodes q1 = some (y, q2)) (fuel nxt : Nat) :
    mergeLoop (fuel + 1) nodes q nxt =
      mergeLoop fuel (nodeSet nodes nxt (mergedNode nodes x y)) (q2 ++ [nxt]) (nxt + 1) := by
  simp [mergeLoop, hx, hy]

/-- Writing one node at the first index where two arrays may differ makes them read the same one further. -/
theorem nodeIn_nodeSet_congr {a b : Vector Node 511} {n : Nat} (h : ∀ i < n, nodeIn a i = nodeIn b i) (x : Node) :
    ∀ i < n + 1, nodeIn (nodeSet a n x) i = nodeIn (nodeSet b n x) i := by
  intro i hi
  rcases Nat.lt_succ_iff_lt_or_eq.mp hi with hlt | rfl
  · rw [nodeIn_nodeSet_ne _ _ hlt.ne', nodeIn_nodeSet_ne _ _ hlt.ne', h i hlt]
  · rcases Nat.lt_or_ge i 511 with h511 | h511
    · rw [nodeIn_nodeSet_self _ _ h511, nodeIn_nodeSet_self _ _ h511]
    · rw [nodeIn_of_ge _ h511, nodeIn_of_ge _ h511]

/-- Two loops from the same queue, over arrays that read the same before the next index, write the same nodes. -/
theorem mergeLoop_congr {fuel : Nat} {a b : Vector Node 511} {q : List Nat} {nxt : Nat}
    (h : ∀ i < nxt, nodeIn a i = nodeIn b i) (hq : ∀ j ∈ q, j < nxt) (hfuel : q.length ≤ fuel + 1) :
    ∀ i < nxt + (q.length - 1), nodeIn (mergeLoop fuel a q nxt) i = nodeIn (mergeLoop fuel b q nxt) i := by
  induction fuel generalizing a b q nxt with
  | zero => exact fun i hi => h i (by omega)
  | succ fuel ih =>
    rcases mergeLoop_succ fuel a q nxt with ⟨hlt, -⟩ | ⟨x, q1, y, q2, hx, hy, e⟩
    · intro i hi
      rw [mergeLoop_below _ _ _ _ _ (by omega), mergeLoop_below _ _ _ _ _ (by omega), h i (by omega)]
    · have hperm : q.Perm (x :: y :: q2) := (popLeast_perm hx).trans ((popLeast_perm hy).cons x)
      have hlen : q.length = q2.length + 2 := hperm.length_eq
      have hrest {j : Nat} (hj : j ∈ x :: y :: q2) : j < nxt := hq j (hperm.mem_iff.mpr hj)
      have hx' : popLeast b q = some (x, q1) := by rw [← hx, popLeast_congr fun j hj => h j (hq j hj)]
      have hy' : popLeast b q1 = some (y, q2) := by
        rw [← hy, popLeast_congr fun j hj => h j (hrest (List.mem_cons_of_mem _ ((popLeast_perm hy).mem_iff.mp hj)))]
      have hmerged : mergedNode a x y = mergedNode b x y := by
        rw [mergedNode, mergedNode, h x (hrest (by simp)), h y (hrest (by simp))]
      rw [e, mergeLoop_of_popLeast hx' hy', hmerged]
      have hq2 : ∀ j ∈ q2, j < nxt := fun j hj => hrest (by simp [hj])
      exact fun i hi => ih (nodeIn_nodeSet_congr h _) (lt_succ_of_mem_append hq2) (by simp; omega) i (by simp; omega)

/-- The nodes 0..NNODE-1 that BUILD writes do not depend on what NODE held before. -/
theorem builtNodes_withNodes (s : State) (nodes : Vector Node 511) :
    ∀ i < s.nnode, nodeIn (s.withNodes nodes).builtNodes i = nodeIn s.builtNodes i := by
  intro i hi
  have hleaves : ∀ j < s.k.toNat, nodeIn (s.withNodes nodes).withLeaves j = nodeIn s.withLeaves j := fun j hj => by
    rcases Nat.lt_or_ge j 511 with h | h
    · rw [withLeaves_get, withLeaves_get, if_pos ⟨hj, h⟩, if_pos ⟨hj, h⟩]; rfl
    · rw [nodeIn_of_ge _ h, nodeIn_of_ge _ h]
  rw [nnode_eq_two_mul_sub_one] at hi
  exact mergeLoop_congr hleaves (fun j hj => List.mem_range.mp hj) (by simp [State.withNodes]) i (by simp; omega)

/-! ### BUILD: the merges and the shape of the tree (R95, R101) -/

/-- A finished node's frequency is the sum of its children's as words too: the exact sum fits. -/
theorem IsInternal.freq_eq {nodes : Vector Node 511} {i : Nat} (h : IsInternal nodes i) :
    (nodeIn nodes i).freq =
      (nodeIn nodes (nodeIn nodes i).left.toNat).freq + (nodeIn nodes (nodeIn nodes i).right.toNat).freq := by
  obtain ⟨-, -, -, -, -, hfreq⟩ := h
  have hlt := (nodeIn nodes i).freq.isLt
  refine BitVec.eq_of_toNat_eq ?_
  rw [BitVec.toNat_add, Nat.mod_eq_of_lt (by omega), hfreq]

/-- BUILD in LOAD leaves a state with the nodes it built over the same table. -/
theorem exec_build_fields {s t : State} (hp : s.phase = .load) (h : exec .build s = .next t) :
    t.k = s.k ∧ t.order = s.order ∧ t.freq = s.freq ∧ t.node = s.builtNodes := by
  rw [exec_build_of_load hp] at h
  cases h
  exact ⟨rfl, rfl, rfl, rfl⟩

/-- The state with an empty NODE. -/
def State.withEmptyNode (s : State) : State := s.withNodes State.reset.node

/-- Over any NODE, every node from K to NNODE - 1 that BUILD writes is a finished node that merges the least candidates: over an
empty NODE it is one, and BUILD writes the same nodes over any. -/
theorem builtNodes_merges {s : State} (hs : s.TableInv) {i : Nat} (hki : s.k.toNat ≤ i) (hi : i < s.nnode) :
    IsInternal s.builtNodes i ∧ (s.withNodes s.builtNodes).MergesLeast i := by
  have htable : s.withEmptyNode.TableInv := tableInv_congr (s := s) rfl rfl rfl hs
  have hempty : ∀ j < 511, s.withEmptyNode.nodeAt j = Node.zero := fun j _ => nodeIn_replicate_zero j
  have hsame : ∀ j ≤ i, nodeIn s.builtNodes j = nodeIn s.withEmptyNode.builtNodes j := fun j hj =>
    (builtNodes_withNodes s _ j (by omega)).symm
  have hshape : (s.withNodes s.withEmptyNode.builtNodes).TreeShape :=
    treeShape_of_builtNodes htable hempty rfl rfl rfl rfl
  have hmerges : (s.withNodes s.withEmptyNode.builtNodes).MergesLeast i :=
    mergesLeast_of_builtNodes (t := s.withNodes s.withEmptyNode.builtNodes) htable hempty rfl rfl i
      (mem_internalsIn.mpr ⟨hki, hi⟩)
  exact ⟨isInternal_congr hsame (treeShape_internal hshape hki hi),
    mergesLeast_of_eq_upTo (s := s.withNodes s.withEmptyNode.builtNodes) rfl hsame hmerges⟩

/-- Settles O35: every node BUILD adds to the leaves is finished and merges the two least candidates. -/
theorem buildMergesTwoLeastCandidates : Obligations.BuildMergesTwoLeastCandidates := by
  intro s t hs hp h i hki hi
  obtain ⟨hk, -, -, hn⟩ := exec_build_fields hp h
  obtain ⟨hinternal, hmerges⟩ := builtNodes_merges hs hki (by rw [nnode_eq (by omega)]; exact hi)
  rw [← hn] at hinternal
  obtain ⟨hleaf, hsym, -⟩ := id hinternal
  exact ⟨mergesLeast_congr (s := s.withNodes s.builtNodes) hk hn hmerges, hleaf, hsym, hinternal.freq_eq⟩

/-- Settles O36: the shape is the one of the merge loop, and its leaves are the nodes that are neither internal nor empty. -/
theorem buildGivesFullBinaryTree : Obligations.BuildGivesFullBinaryTree := by
  intro s t hs hp hz h
  obtain ⟨hk, ho, hf, hn⟩ := exec_build_fields hp h
  have hshape := treeShape_of_builtNodes hs hz hk ho hf hn
  refine ⟨hshape, fun i hi => ?_⟩
  obtain ⟨leaves, internals, -, -, past⟩ := hshape
  rw [hk] at leaves
  rcases Nat.lt_or_ge i s.k.toNat with hlt | hge
  · exact iff_of_true (by rw [leaves i hlt]; rfl) hlt
  · refine iff_of_false ?_ (Nat.not_lt.mpr hge)
    rcases Nat.lt_or_ge i t.nnode with hint | hpast
    · obtain ⟨hleaf, -⟩ := internals i (mem_internalsIn.mpr ⟨hk ▸ hge, hint⟩)
      simp [hleaf]
    · simp [past i hi hpast, Node.zero]

/-! ### BUILD's completion and frame (R94, R97, R98) -/

/-- Settles O33: the one error, else the completion of `exec_build_of_load` with its nodes, results and position read off. -/
theorem buildCompletes : Obligations.BuildCompletes := by
  refine ⟨decodeInvertsEncode .build, rejectsReservedBits .build, fun s hs => ⟨exec_build_of_ne_load, fun hp =>
    ⟨_, exec_build_of_load hp, rfl, lutIn_lutEmpty, fun i hi => ?_, fun i _ hi => ?_, toNat_ofNat_nnode s, ?_, ?_⟩⟩⟩
  all_goals obtain ⟨hk, -⟩ := hs
  · exact builtNodes_leaf s hi (by omega)
  · exact builtNodes_above s hi (by omega)
  · exact toNat_setWidth_rootIndex hk
  · exact toNat_rootPos hk

/-- Settles O34: with at most one key BUILD writes the leaf, if there is a key, and merges nothing. -/
theorem buildOfAtMostOneKey : Obligations.BuildOfAtMostOneKey := by
  intro s hs hp hz hk1
  have hpast (i : Nat) (hi : i < 511) (hki : s.k.toNat ≤ i) : nodeIn s.builtNodes i = Node.zero :=
    (builtNodes_above s (by omega) hki).trans (hz i hi)
  refine ⟨_, exec_build_of_load hp, rfl, if_neg (by omega), rfl, fun hk => ?_, fun hk => ?_⟩
  · have hk0 : s.k = 0 := BitVec.eq_of_toNat_eq hk
    refine ⟨?_, ?_, ?_, fun i hi => hpast i hi (by omega)⟩
    · simp [State.nnode, hk0]
    · simp [State.rootIndex, hk0, Config.nil]
    · simp [State.treeValid, hk0]
  · have hk0 : s.k = 1 := BitVec.eq_of_toNat_eq hk
    have hleaf := builtNodes_leaf s (i := 0) (by omega) (by decide)
    refine ⟨?_, ?_, ?_, ?_, ?_, fun i hi hpos => hpast i hi (by omega)⟩
    · simp [State.nnode, hk0]
    · simp [State.rootIndex, State.nnode, hk0]
    · simp [State.treeValid, hk0]
    · rw [State.nodeAt, hleaf]; rfl
    · rw [State.nodeAt, hleaf]; rfl

/-! ### BUILD and the stable-sort reference (R96) -/

/-- The reference's sort is insertion sort by frequency. -/
theorem stableInsert_eq_orderedInsert (f : Nat → Nat) (i : Nat) (q : List Nat) :
    stableInsert f i q = q.orderedInsert (f · ≤ f ·) i := by
  induction q with
  | nil => rfl
  | cons j q ih => rw [stableInsert, ih, List.orderedInsert_cons]

theorem stableSort_perm (f : Nat → Nat) (q : List Nat) : (stableSort f q).Perm q := by
  have hsort : stableSort f q = q.insertionSort (f · ≤ f ·) := by
    simp only [stableSort, List.insertionSort, funext₂ (stableInsert_eq_orderedInsert f)]
  exact hsort ▸ List.perm_insertionSort _ q

/-- The frequency of a node as the reference compares it. -/
def freqIn (nodes : Vector Node 511) (i : Nat) : Nat := (nodeIn nodes i).freq.toNat

/-- In this list nodes of equal frequency stand in the order in which they were made. -/
def InCreationOrder (nodes : Vector Node 511) (q : List Nat) : Prop :=
  q.Pairwise fun i j => freqIn nodes i = freqIn nodes j → i < j

/-- The list ascends by key (R93). -/
def AscendsByKey (nodes : Vector Node 511) (q : List Nat) : Prop := q.Pairwise fun i j => keyLt nodes i j = true

theorem ascendsByKey_stableInsert {nodes : Vector Node 511} {i : Nat} {q : List Nat} (hq : AscendsByKey nodes q)
    (hi : ∀ j ∈ q, freqIn nodes i = freqIn nodes j → i < j) : AscendsByKey nodes (stableInsert (freqIn nodes) i q) := by
  induction q with
  | nil => exact List.pairwise_singleton _ _
  | cons j q ih =>
    obtain ⟨hj, hq'⟩ := List.pairwise_cons.mp hq
    rw [stableInsert]
    split
    · next hle =>
      have hij : keyLt nodes i j = true := (keyLt_iff nodes i j).mpr
        ((Nat.lt_or_eq_of_le hle).imp_right fun e => ⟨e, hi j List.mem_cons_self e⟩)
      refine List.pairwise_cons.mpr ⟨fun l hl => ?_, hq⟩
      rcases List.mem_cons.mp hl with rfl | hl
      · exact hij
      · exact keyLt_trans hij (hj l hl)
    · next hgt =>
      have hji : keyLt nodes j i = true := (keyLt_iff nodes j i).mpr (.inl (Nat.lt_of_not_le hgt))
      refine List.pairwise_cons.mpr ⟨fun l hl => ?_, ih hq' fun l hl => hi l (List.mem_cons_of_mem _ hl)⟩
      rw [stableInsert_eq_orderedInsert, List.mem_orderedInsert] at hl
      rcases hl with rfl | hl
      · exact hji
      · exact hj l hl

/-- A stable sort of a list in creation order ascends by key: it breaks ties as R93 does. -/
theorem ascendsByKey_stableSort {nodes : Vector Node 511} {q : List Nat} (hq : InCreationOrder nodes q) :
    AscendsByKey nodes (stableSort (freqIn nodes) q) := by
  induction q with
  | nil => exact List.Pairwise.nil
  | cons i q ih =>
    obtain ⟨hi, hq'⟩ := List.pairwise_cons.mp hq
    exact ascendsByKey_stableInsert (ih hq') fun j hj => hi j ((stableSort_perm _ q).mem_iff.mp hj)

/-- What is popped is the head of the queue in ascending order. -/
theorem popLeast_of_ascendsByKey {nodes : Vector Node 511} {q r : List Nat} {a : Nat} (hr : AscendsByKey nodes (a :: r))
    (hq : q.Perm (a :: r)) : ∃ q', popLeast nodes q = some (a, q') ∧ q'.Perm r := by
  cases hpop : popLeast nodes q with
  | none => rw [popLeast_eq_none] at hpop; exact absurd (hpop ▸ hq).length_eq (by simp)
  | some p =>
    obtain ⟨b, q'⟩ := p
    have hperm := (popLeast_perm hpop).symm.trans hq
    obtain rfl : a = b := by
      obtain ⟨hfirst, -⟩ := List.pairwise_cons.mp hr
      refine (popLeast_least hpop a (hq.mem_iff.mpr List.mem_cons_self)).resolve_right fun hba => ?_
      rcases List.mem_cons.mp (hperm.mem_iff.mp List.mem_cons_self) with rfl | hb
      · simp [keyLt_irrefl] at hba
      · simpa [keyLt_irrefl] using keyLt_trans hba (hfirst b hb)
    exact ⟨q', rfl, hperm.cons_inv⟩

theorem inCreationOrder_range (nodes : Vector Node 511) (n : Nat) : InCreationOrder nodes (List.range n) := by
  refine List.pairwise_lt_range.imp ?_
  exact fun hlt _ => hlt

/-- The new node goes to the end: the list stays in creation order. -/
theorem inCreationOrder_append {nodes : Vector Node 511} {q : List Nat} {nxt : Nat} (hq : AscendsByKey nodes q)
    (hlt : ∀ j ∈ q, j < nxt) (x : Node) : InCreationOrder (nodeSet nodes nxt x) (q ++ [nxt]) := by
  refine List.pairwise_append.mpr ⟨hq.imp_of_mem fun {i j} hi hj hkey e => ?_, List.pairwise_singleton _ _, ?_⟩
  · rw [freqIn, freqIn, nodeIn_nodeSet_ne _ _ (hlt i hi).ne', nodeIn_nodeSet_ne _ _ (hlt j hj).ne'] at e
    rw [keyLt_iff] at hkey
    omega
  · intro i hi j hj _
    rw [List.mem_singleton.mp hj]
    exact hlt i hi

theorem referenceLoop_of_short {nodes : Vector Node 511} {q : List Nat} (h : q.length < 2) (fuel nxt : Nat) :
    referenceLoop fuel nodes q nxt = nodes := by
  cases fuel with
  | zero => rfl
  | succ fuel =>
    rw [referenceLoop]
    split
    · next e =>
      have hlen := (e ▸ stableSort_perm _ q).length_eq
      simp at hlen
      omega
    · rfl

theorem referenceLoop_of_sorted {nodes : Vector Node 511} {q rest : List Nat} {a b : Nat}
    (h : stableSort (freqIn nodes) q = a :: b :: rest) (fuel nxt : Nat) :
    referenceLoop (fuel + 1) nodes q nxt =
      referenceLoop fuel (nodeSet nodes nxt (mergedNode nodes a b)) (rest ++ [nxt]) (nxt + 1) := by
  have h' : stableSort (fun i => (nodeIn nodes i).freq.toNat) q = a :: b :: rest := h
  simp only [referenceLoop, h']

theorem exists_cons_cons_of_length {q : List Nat} (h : 2 ≤ q.length) : ∃ a b rest, q = a :: b :: rest := by
  match q, h with
  | a :: b :: rest, _ => exact ⟨a, b, rest, rfl⟩

/-- BUILD's loop and the reference's, over queues of the same nodes, the reference's in creation order, write the same nodes. -/
theorem mergeLoop_eq_referenceLoop {fuel : Nat} {nodes : Vector Node 511} {q r : List Nat} {nxt : Nat} (hqr : q.Perm r)
    (hr : InCreationOrder nodes r) (hlt : ∀ j ∈ r, j < nxt) :
    mergeLoop fuel nodes q nxt = referenceLoop fuel nodes r nxt := by
  induction fuel generalizing nodes q r nxt with
  | zero => rfl
  | succ fuel ih =>
    rcases mergeLoop_succ fuel nodes q nxt with ⟨hshort, e⟩ | ⟨x, q1, y, q2, hx, hy, e⟩
    · rw [e, referenceLoop_of_short (hqr.length_eq ▸ hshort)]
    · have hsort := stableSort_perm (freqIn nodes) r
      have hsorted := ascendsByKey_stableSort hr
      obtain ⟨a, b, rest, hab⟩ := exists_cons_cons_of_length (q := stableSort (freqIn nodes) r) (by
        rw [hsort.length_eq, ← hqr.length_eq, popLeast_length hx, popLeast_length hy]; omega)
      rw [referenceLoop_of_sorted hab]
      rw [hab] at hsort hsorted
      obtain ⟨-, hsorted1⟩ := List.pairwise_cons.mp hsorted
      obtain ⟨-, hsorted2⟩ := List.pairwise_cons.mp hsorted1
      obtain ⟨q1', ha, hq1⟩ := popLeast_of_ascendsByKey hsorted (hqr.trans hsort.symm)
      obtain ⟨q2', hb, hq2⟩ := popLeast_of_ascendsByKey hsorted1 hq1
      have hrest : ∀ j ∈ rest, j < nxt := fun j hj => hlt j (hsort.mem_iff.mp (by simp [hj]))
      rw [mergeLoop_of_popLeast ha hb]
      exact ih (hq2.append_right _) (inCreationOrder_append hsorted2 hrest _) (lt_succ_of_mem_append hrest)

/-- Settles O37: both loops start from the leaves in the order of ORDER. -/
theorem buildMatchesStableSortReference : Obligations.BuildMatchesStableSortReference := by
  intro s t hp h
  obtain ⟨-, -, -, hn⟩ := exec_build_fields hp h
  rw [hn]
  exact mergeLoop_eq_referenceLoop (List.Perm.refl _) (inCreationOrder_range _ _) fun j hj => List.mem_range.mp hj

/-! ### Of two nodes the one of smaller key is merged no later (R92, R95) -/

/-- `c` is LEFT or RIGHT of the node `i`. -/
def State.IsChild (s : State) (c i : Nat) : Prop := c = (s.nodeAt i).left.toNat ∨ c = (s.nodeAt i).right.toNat

section
variable {s : State}

theorem State.MergesLeast.child_mem {c i : Nat} (hm : s.MergesLeast i) (hc : s.IsChild c i) : c ∈ s.candidates i := by
  obtain ⟨hleft, hright, -⟩ := hm
  rcases hc with rfl | rfl
  · exact hleft
  · exact hright

/-- A merge takes its children before every candidate it leaves (R95). -/
theorem State.MergesLeast.keyBefore_rest {c i j : Nat} (hm : s.MergesLeast i) (hc : s.IsChild c i) (hj : j ∈ s.candidates i)
    (hrest : ¬ s.IsChild j i) : s.keyBefore c j := by
  obtain ⟨-, -, -, hfirst, hsecond⟩ := hm
  obtain ⟨hjl, hjr⟩ := not_or.mp hrest
  rcases hc with rfl | rfl
  · exact hfirst j hj hjl
  · exact hsecond j hj hjl hjr

/-- A candidate of a later merge that is there at an earlier one is a candidate which that one leaves (R92). -/
theorem candidate_of_later {c i j : Nat} (hc : c ∈ s.candidates j) (hij : i < j) (hki : s.k.toNat ≤ i) (hci : c < i) :
    c ∈ s.candidates i ∧ ¬ s.IsChild c i := by
  obtain ⟨-, hfree⟩ := mem_candidates.mp hc
  rw [mem_childrenIn] at hfree
  refine ⟨mem_candidates.mpr ⟨hci, fun hmem => ?_⟩, fun hchild => hfree ⟨i, hki, hij, hchild⟩⟩
  obtain ⟨p, hkp, hpi, hchild⟩ := mem_childrenIn.mp hmem
  exact hfree ⟨p, hkp, hpi.trans hij, hchild⟩

/-- If `x` was there when `y` was merged and its key is not the greater one, `x` is merged no later than `y`. -/
theorem parent_le_of_not_keyBefore {x y i j : Nat} (hi : s.MergesLeast i) (hj : s.MergesLeast j) (hx : s.IsChild x j)
    (hy : s.IsChild y i) (hki : s.k.toNat ≤ i) (hxi : x < i) (hkey : ¬ s.keyBefore y x) : j ≤ i := by
  by_contra hij
  obtain ⟨hmem, hrest⟩ := candidate_of_later (hj.child_mem hx) (Nat.lt_of_not_le hij) hki hxi
  exact hkey (hi.keyBefore_rest hy hmem hrest)

/-! ### Internal nodes are made in the order of their frequencies -/

/-- No internal node has a smaller frequency than one made before it: its children are either nodes from that one on, or
candidates that one left, which are no smaller than its own children. -/
theorem freq_le_of_internal (h : s.TreeShape) (hm : ∀ i ∈ s.internals, s.MergesLeast i) {i j : Nat} (hki : s.k.toNat ≤ i)
    (hij : i ≤ j) (hj : j < s.nnode) : (s.nodeAt i).freq.toNat ≤ (s.nodeAt j).freq.toNat := by
  induction j using Nat.strong_induction_on with
  | _ j ih =>
    rcases Nat.lt_or_eq_of_le hij with hlt | rfl
    · have hi := hm i (mem_internalsIn.mpr ⟨hki, by omega⟩)
      have hjm := hm j (mem_internalsIn.mpr ⟨by omega, hj⟩)
      obtain ⟨-, -, -, -, -, hsumi⟩ := treeShape_internal h hki (by omega)
      obtain ⟨-, -, hleft, hright, -, hsumj⟩ := treeShape_internal h (i := j) (by omega) hj
      have hchild {a c : Nat} (ha : s.IsChild a i) (hc : s.IsChild c j) (hcj : c < j) :
          (s.nodeAt i).freq.toNat ≤ (s.nodeAt c).freq.toNat ∨ (s.nodeAt a).freq.toNat ≤ (s.nodeAt c).freq.toNat := by
        rcases Nat.lt_or_ge c i with hci | hic
        · obtain ⟨hmem, hrest⟩ := candidate_of_later (hjm.child_mem hc) hlt hki hci
          exact .inr ((hi.keyBefore_rest ha hmem hrest).elim Nat.le_of_lt fun ⟨hfreq, _⟩ => hfreq.le)
        · exact .inl (ih c hcj hic (by omega))
      have hl := hchild (.inl rfl) (.inl rfl) hleft
      have hr := hchild (.inr rfl) (.inr rfl) hright
      simp only [State.nodeAt] at hl hr ⊢
      omega
    · exact le_rfl

/-! ### Paths from the root, edge by edge (R104) -/

theorem descend_concat {nodes : Vector Node 511} {n m : NodeIdx} {p : List Bool} {b : Bool}
    (h : descend nodes n (p ++ [b]) = some m) :
    ∃ l, descend nodes n p = some l ∧ (nodeIn nodes l.toNat).leaf = false ∧ childOf nodes l b = m := by
  rw [descend_append] at h
  obtain ⟨l, hl, hlast⟩ := Option.bind_eq_some_iff.mp h
  cases hleaf : (nodeIn nodes l.toNat).leaf with
  | true => rw [descend_leaf hleaf] at hlast; cases hlast
  | false => rw [descend_internal hleaf] at hlast; exact ⟨l, hl, hleaf, Option.some.inj hlast⟩

theorem descend_le (h : s.TreeShape) {n m : NodeIdx} (hn : n.toNat < s.nnode) {p : List Bool}
    (hp : descend s.node n p = some m) : m.toNat ≤ n.toNat := by
  induction p generalizing n with
  | nil => rw [Option.some.inj hp]
  | cons b p ih =>
    cases hl : (nodeIn s.node n.toNat).leaf with
    | true => rw [descend_leaf hl] at hp; cases hp
    | false =>
      rw [descend_internal hl] at hp
      have hchild := childOf_lt h hn hl b
      exact (ih (by omega) hp).trans hchild.le

theorem isChild_childOf (n : NodeIdx) (b : Bool) : s.IsChild (childOf s.node n b).toNat n.toNat := by
  cases b
  · exact .inl rfl
  · exact .inr rfl

/-- The last edge of a path leaves an internal node, the parent. -/
theorem exists_parent_of_descend (h : s.TreeShape) {n m : NodeIdx} (hn : n.toNat < s.nnode) {p : List Bool} {b : Bool}
    (hp : descend s.node n (p ++ [b]) = some m) :
    ∃ l, descend s.node n p = some l ∧ l.toNat ≤ n.toNat ∧ s.k.toNat ≤ l.toNat ∧ m.toNat < l.toNat ∧
      s.IsChild m.toNat l.toNat := by
  obtain ⟨l, hl, hleaf, rfl⟩ := descend_concat hp
  have hln := descend_le h hn hl
  obtain ⟨hk, -⟩ := treeShape_children_lt h (by omega) hleaf
  exact ⟨l, hl, hln, hk, childOf_lt h (by omega) hleaf b, isChild_childOf l b⟩

/-- A node whose key is not the greater one is at least as deep, if it is a leaf or made no later: it is merged no later, so the
same holds of the parents. -/
theorem depth_le_of_not_keyBefore (h : s.TreeShape) (hm : ∀ i ∈ s.internals, s.MergesLeast i) {n x y : NodeIdx}
    {p q : List Bool} (hn : n.toNat + 1 = s.nnode) (hp : descend s.node n p = some x) (hq : descend s.node n q = some y)
    (hxy : s.k.toNat ≤ x.toNat → x.toNat ≤ y.toNat) (hkey : ¬ s.keyBefore y.toNat x.toNat) : q.length ≤ p.length := by
  induction q using List.reverseRecOn generalizing p x y with
  | nil => exact Nat.zero_le _
  | append_singleton q b ih =>
    obtain ⟨i, hqi, hin, hki, hyi, hyc⟩ := exists_parent_of_descend h (by omega) hq
    rcases List.eq_nil_or_concat' p with rfl | ⟨p, c, rfl⟩
    · obtain rfl := Option.some.inj hp
      omega
    · obtain ⟨j, hpj, hjn, hkj, hxj, hxc⟩ := exists_parent_of_descend h (by omega) hp
      have hxi : x.toNat < i.toNat := by omega
      have hmi : s.MergesLeast i.toNat := hm _ (mem_internalsIn.mpr ⟨hki, by omega⟩)
      have hmj : s.MergesLeast j.toNat := hm _ (mem_internalsIn.mpr ⟨hkj, by omega⟩)
      have hji := parent_le_of_not_keyBefore hmi hmj hxc hyc hki hxi hkey
      have hfreq := freq_le_of_internal h hm hkj hji (by omega)
      have hlen := ih hpj hqi (fun _ => hji) (by rw [State.keyBefore]; omega)
      simpa using hlen

/-! ### Code lengths (R100) -/

/-- A path to a leaf of `y` ends at a node before K with the count of `y`. -/
theorem LeafPath.exists_leaf (h : s.TreeShape) {n : NodeIdx} (hn : n.toNat < s.nnode) {p : List Bool} {y : Sym}
    (hp : LeafPath s.node n p y) :
    ∃ l, descend s.node n p = some l ∧ l.toNat < s.k.toNat ∧ (s.nodeAt l.toNat).freq = s.freqOf y := by
  obtain ⟨l, hl, hleaf, hsym⟩ := hp
  have hln := descend_le h hn hl
  have hlk : l.toNat < s.k.toNat := by
    by_contra hge
    obtain ⟨hint, -⟩ := treeShape_internal h (Nat.not_lt.mp hge) (by omega)
    rw [hint] at hleaf
    cases hleaf
  rw [treeShape_leaf h hlk] at hsym
  exact ⟨l, hl, hlk, by rw [State.nodeAt, treeShape_leaf h hlk, ← hsym]; rfl⟩

theorem toNat_len_pathEntry {p : List Bool} (h : p.length ≤ 255) : (pathEntry 0 0 p).len.toNat = p.length := by
  rw [← length_code, code_pathEntry h]

/-- Two symbols with different counts, not zero, are two keys (R46). -/
theorem two_le_k_of_counts (ht : s.TableInv) {y z : Sym} (hy : s.freqOf y ≠ 0) (hz : s.freqOf z ≠ 0) (hne : y ≠ z) :
    2 ≤ s.k.toNat := by
  obtain ⟨hylt, hyord⟩ := leafIndex_of_counted ht hy
  obtain ⟨hzlt, hzord⟩ := leafIndex_of_counted ht hz
  by_contra hk
  exact hne (by rw [← hyord, ← hzord, show (s.leafIndex y).toNat = (s.leafIndex z).toNat by omega])

end

/-- Settles O39: code lengths are depths, and the key of lower frequency is at least as deep. -/
theorem higherFrequencyNoLongerCode : Obligations.HigherFrequencyNoLongerCode := by
  intro s y z hinv hp hlt hz
  obtain ⟨table, tree, code, -⟩ := hinv
  obtain ⟨hshape, hmerges⟩ := tree.2 (by simp [hp])
  have hy : s.freqOf y ≠ 0 := fun e => by simp [e] at hlt
  have hk2 := two_le_k_of_counts table hy hz fun e => by simp [e] at hlt
  have ⟨hk, _⟩ := table
  have hroot : s.rootPos.toNat + 1 = s.nnode := by
    rw [toNat_rootPos hk, if_pos hk2, nnode_eq_two_mul_sub_one]
    omega
  obtain ⟨p, hpathz, -, hplen, hpe⟩ := generatedLut_of_key table hshape hk2 hz
  obtain ⟨q, hpathy, -, hqlen, hqe⟩ := generatedLut_of_key table hshape hk2 hy
  obtain ⟨x, hpx, hxk, hxf⟩ := hpathz.exists_leaf hshape (by omega)
  obtain ⟨w, hqw, -, hwf⟩ := hpathy.exists_leaf hshape (by omega)
  have hlen : q.length ≤ p.length :=
    depth_le_of_not_keyBefore hshape hmerges hroot hpx hqw (fun _ => by omega) (by rw [State.keyBefore, hxf, hwf]; omega)
  rw [State.lutOf, State.lutOf, code.2 hp, hpe, hqe, toNat_len_pathEntry (by omega), toNat_len_pathEntry (by omega)]
  exact hlen

/-! ### READ_NODE (R102) -/

theorem extractLsb'_packNode (n : Node) :
    (packNode n).extractLsb' 26 5 = 0 ∧ (packNode n).extractLsb' 18 8 = n.sym ∧ (packNode n).extractLsb' 9 9 = n.right ∧
    (packNode n).extractLsb' 0 9 = n.left := by
  simp (disch := decide) only [packNode, BitVec.extractLsb'_append_eq_of_add_le,
    BitVec.extractLsb'_append_eq_of_le, Nat.reduceSub, BitVec.extractLsb'_eq_self, and_self]

theorem getLsbD_packNode_leaf (n : Node) : (packNode n).getLsbD 31 = n.leaf := by
  simp only [packNode, BitVec.getLsbD_append, BitVec.getLsbD_ofBool, Nat.reduceLT, if_false, Nat.reduceSub, decide_true,
    Bool.true_and]

theorem exec_readNode_of_load {s : State} (hp : s.phase = .load) (idx : NodeIdx) :
    exec (.readNode idx) s = .next (s.failed .phase) := by
  rw [exec, execReadNode, if_pos hp, raise_eq]

theorem exec_readNode_of_ge {s : State} {idx : NodeIdx} (hp : s.phase ≠ .load) (h : s.nnode ≤ idx.toNat) :
    exec (.readNode idx) s = .next (s.failed .arg) := by
  rw [exec, execReadNode, if_neg hp, if_pos h, raise_eq]

theorem exec_readNode_of_lt {s : State} {idx : NodeIdx} (hp : s.phase ≠ .load) (h : idx.toNat < s.nnode) :
    exec (.readNode idx) s = .next { s with
      result0 := packNode (s.nodeAt idx.toNat), result1 := (s.nodeAt idx.toNat).freq, lastErr := .ok, busy := false } := by
  rw [exec, execReadNode, if_neg hp, if_neg (Nat.not_le.mpr h)]; rfl

/-- Settles O38: the two checks in their order, then the node's fields packed in RESULT0. -/
theorem readNodeReadsFields : Obligations.ReadNodeReadsFields := by
  refine ⟨fun idx => decodeInvertsEncode (.readNode idx), rejectsReservedBits (.readNode 0), fun s idx =>
    ⟨fun hp => exec_readNode_of_load hp idx, fun hp hge => ?_, fun hp hlt => ?_⟩⟩
  · exact exec_readNode_of_ge hp ((nnode_eq_two_mul_sub_one s).le.trans hge)
  · exact ⟨_, exec_readNode_of_lt hp (hlt.trans_eq (nnode_eq_two_mul_sub_one s).symm), getLsbD_packNode_leaf _,
      extractLsb'_packNode _⟩

end Sys2Proof.Machine

namespace Sys2Proof.Machine

open Sys2Proof

/-! ### Keys and their leaves (R45, R87) -/

section
variable {s : State}

/-- The i-th key has a count, and its LIDX is i (R46, R87). -/
theorem leafIndex_orderAt (ht : s.TableInv) {i : Nat} (hi : i < s.k.toNat) :
    s.freqOf (s.orderAt i) ≠ 0 ∧ (s.leafIndex (s.orderAt i)).toNat = i := by
  obtain ⟨hk, hnodup, hfreq, -, -⟩ := ht
  have hlt : i < s.keys.length := by rwa [keys_length s hk]
  rw [← keys_getElem s hlt]
  have hcounted := (hfreq s.keys[i]).mpr (List.getElem_mem hlt)
  refine ⟨hcounted, ?_⟩
  rw [State.leafIndex, if_neg hcounted, hnodup.idxOf_getElem i hlt]
  exact Nat.mod_eq_of_lt (by omega)

/-- Along the keys, LIDX runs through 0..K-1 (R87). -/
theorem map_leafIndex_keys (ht : s.TableInv) : (s.keys.map fun y => (s.leafIndex y).toNat) = List.range s.k.toNat := by
  rw [keys_eq_map_orderAt ht.1, List.map_map]
  exact (List.map_congr_left fun i hi => (leafIndex_orderAt ht (List.mem_range.mp hi)).2).trans (List.map_id' _)

/-- A path to a leaf of `y` ends at the leaf LIDX(y), and `y` is a key (R48, R87). -/
theorem LeafPath.ends_at_leafIndex (ht : s.TableInv) (h : s.TreeShape) {n : NodeIdx} (hn : n.toNat < s.nnode)
    {p : List Bool} {y : Sym} (hp : LeafPath s.node n p y) :
    s.freqOf y ≠ 0 ∧ descend s.node n p = some (s.leafIndex y) := by
  obtain ⟨l, hl, hlk, -⟩ := hp.exists_leaf h hn
  obtain ⟨m, hm, -, hsym⟩ := hp
  obtain rfl : l = m := Option.some.inj (hl.symm.trans hm)
  rw [treeShape_leaf h hlk] at hsym
  obtain ⟨hcounted, hindex⟩ := leafIndex_orderAt ht hlk
  rw [show s.orderAt l.toNat = y from hsym] at hcounted hindex
  exact ⟨hcounted, by rw [hl, BitVec.eq_of_toNat_eq hindex]⟩

/-! ### The entries of the code table, by the number of keys (R106, R108) -/

theorem generatedLut_of_no_key (hk : s.k.toNat = 0) : s.generatedLut = lutEmpty := if_pos hk

theorem generatedLut_of_single (hk : s.k.toNat = 1) :
    s.generatedLut = lutSet lutEmpty (s.nodeAt 0).sym { valid := true, len := 1, bits := 0 } := by
  rw [State.generatedLut, if_neg (by omega), if_pos hk]

theorem generatedLut_of_two_le (hk : 2 ≤ s.k.toNat) :
    s.generatedLut = walk s.node s.nnode s.rootPos 0 0 lutEmpty := by
  rw [State.generatedLut, if_neg (by omega), if_neg (by omega), State.rootPos, if_pos hk]

theorem rootPos_of_two_le (hk : 2 ≤ s.k.toNat) : s.rootPos = BitVec.ofNat 9 (2 * s.k.toNat - 2) := if_pos hk

/-- With two keys or more ROOTPOS is the last node (R50). -/
theorem toNat_rootPos_add_one (hk : s.k.toNat ≤ 256) (hk2 : 2 ≤ s.k.toNat) : s.rootPos.toNat + 1 = s.nnode := by
  rw [toNat_rootPos hk, if_pos hk2, nnode_eq_two_mul_sub_one]
  omega

/-- The leaf of a single key holds a key (R94). -/
theorem sym_nodeAt_zero_of_single (ht : s.TableInv) (h : s.TreeShape) (hk : s.k.toNat = 1) :
    s.freqOf (s.nodeAt 0).sym ≠ 0 := by
  rw [State.nodeAt, treeShape_leaf h (by omega)]
  exact (leafIndex_orderAt ht (by omega)).1

/-- A symbol that is no key has the empty entry (R108). -/
theorem generatedLut_of_not_key (ht : s.TableInv) (h : s.TreeShape) {y : Sym} (hy : s.freqOf y = 0) :
    lutIn s.generatedLut y = LutEntry.empty := by
  obtain hk | hk | hk : s.k.toNat = 0 ∨ s.k.toNat = 1 ∨ 2 ≤ s.k.toNat := by omega
  · rw [generatedLut_of_no_key hk, lutIn_lutEmpty]
  · have hne : (s.nodeAt 0).sym ≠ y := fun e => sym_nodeAt_zero_of_single ht h hk (e ▸ hy)
    rw [generatedLut_of_single hk, lutIn_lutSet, if_neg hne, lutIn_lutEmpty]
  · have hroot := toNat_rootPos_add_one ht.1 hk
    rw [generatedLut_of_two_le hk]
    rcases walk_spec (m := s.rootPos.toNat) (fuel := s.nnode) (n := s.rootPos)
        (fun i hi hl => (treeShape_children_lt h (by omega) hl).2) le_rfl (by omega) 0 0 lutEmpty y with
      ⟨p, hp, -⟩ | ⟨-, e⟩
    · exact absurd hy (hp.ends_at_leafIndex ht h (by omega)).1
    · rw [e, lutIn_lutEmpty]

/-- The single key's code is "0" (R106). -/
theorem generatedLut_of_single_key (ht : s.TableInv) (h : s.TreeShape) (hk : s.k.toNat = 1) {y : Sym}
    (hy : s.freqOf y ≠ 0) : lutIn s.generatedLut y = { valid := true, len := 1, bits := 0 } := by
  have hsym : (s.nodeAt 0).sym = y := by
    by_contra hne
    have := two_le_k_of_counts ht (sym_nodeAt_zero_of_single ht h hk) hy hne
    omega
  rw [generatedLut_of_single hk, lutIn_lutSet, if_pos hsym]

/-- The bits of an entry past its length are 0 (R49). -/
theorem getLsbD_bits_pathEntry {p : List Bool} {b : Nat} (h : p.length ≤ b) : (pathEntry 0 0 p).bits.getLsbD b = false := by
  simp [pathEntry, getLsbD_pathBits, List.getElem?_eq_none h]

/-- A symbol with a code is a key (R108). -/
theorem counted_of_valid (ht : s.TableInv) (h : s.TreeShape) {y : Sym} (hv : (lutIn s.generatedLut y).valid = true) :
    s.freqOf y ≠ 0 := fun hy => by
  rw [generatedLut_of_not_key ht h hy] at hv
  cases hv

end

/-! ### GENERATE leaves the codes of the tree (R108, R110) -/

/-- `t` is in CODE with the tree and the number of keys of `s`, and holds the code table of that tree. -/
def State.HoldsCodesOf (t s : State) : Prop :=
  t.phase = .code ∧ t.node = s.node ∧ t.k = s.k ∧ t.lut = s.generatedLut

/-- GENERATE in TREE and CODE leaves the code table of the present tree (R110). -/
theorem holdsCodesOf_generate {s t : State} (hp : s.phase ≠ .load) (h : exec .generate s = .next t) : t.HoldsCodesOf s := by
  rw [exec_generate_of_ne_load hp] at h
  rw [← Host.Outcome.next.inj h]
  exact ⟨rfl, rfl, rfl, rfl⟩

/-- Settles O41: no path of the tree ends at a symbol that is no key; a single key's entry is "0", and a key's path from the root
ends at its leaf. -/
theorem generateWritesPathCodes : Obligations.GenerateWritesPathCodes := by
  intro s t ht htree hp hgen y
  obtain ⟨hshape, -⟩ := htree.2 hp
  obtain ⟨-, -, -, hlut⟩ := holdsCodesOf_generate hp hgen
  rw [State.lutOf, hlut]
  refine ⟨generatedLut_of_not_key ht hshape, fun hy => ?_⟩
  have ⟨hk, _⟩ := ht
  obtain ⟨hlt, -⟩ := leafIndex_of_counted ht hy
  obtain hk1 | hk2 : s.k.toNat = 1 ∨ 2 ≤ s.k.toNat := by omega
  · rw [generatedLut_of_single_key ht hshape hk1 hy]
    exact ⟨rfl, fun _ => rfl, fun hk2 => by omega, fun b _ => BitVec.getLsbD_zero⟩
  · obtain ⟨p, hpath, -, hlen, e⟩ := generatedLut_of_key ht hshape hk2 hy
    have hroot := toNat_rootPos_add_one hk hk2
    rw [e, code_pathEntry (by omega), toNat_len_pathEntry (by omega), ← rootPos_of_two_le hk2]
    exact ⟨rfl, fun hk1 => by omega, fun _ => (hpath.ends_at_leafIndex ht hshape (by omega)).2,
      fun b => getLsbD_bits_pathEntry⟩

/-! ### No code begins another (R109) -/

/-- A code that decodes to one symbol is not empty: no bits emit no symbol. -/
theorem ne_nil_of_decodeFrom {s : State} {cur c : NodeIdx} {p : List Bool} {y : Sym}
    (h : s.decodeFrom cur p = some ([y], c)) : p ≠ [] := by
  rintro rfl
  cases h

/-- Two codes that decode from ROOTPOS to one symbol each and back to ROOTPOS belong to one symbol if the one begins the other. -/
theorem eq_of_decodeFrom_of_begins {s : State} {p q : List Bool} {y z : Sym}
    (hp : s.decodeFrom s.rootPos p = some ([y], s.rootPos)) (hq : s.decodeFrom s.rootPos q = some ([z], s.rootPos))
    (hpq : p <+: q) : y = z := by
  obtain ⟨r, rfl⟩ := hpq
  rw [decodeFrom_append, hp, Option.bind_some] at hq
  obtain ⟨⟨ys, c⟩, -, e⟩ := Option.map_eq_some_iff.mp hq
  simp only [List.singleton_append, Prod.mk.injEq, List.cons.injEq] at e
  obtain ⟨⟨hyz, -⟩, -⟩ := e
  exact hyz

/-- Settles O42: every code decodes from ROOTPOS to its own symbol, which an empty code does not and two codes, one beginning the
other, do for one symbol only. -/
theorem codesArePrefixFree : Obligations.CodesArePrefixFree := by
  intro s hinv hp
  obtain ⟨ht, tree, ⟨-, hcode⟩, -⟩ := hinv
  obtain ⟨hshape, -⟩ := tree.2 (by simp [hp])
  have hlut (y : Sym) : s.lutOf y = lutIn s.generatedLut y := by rw [State.lutOf, hcode hp]
  have hkey {y : Sym} (hv : (s.lutOf y).valid = true) : s.freqOf y ≠ 0 := counted_of_valid ht hshape (hlut y ▸ hv)
  have hdec {y : Sym} (hv : (s.lutOf y).valid = true) :
      s.decodeFrom s.rootPos (s.lutOf y).code = some ([y], s.rootPos) :=
    hlut y ▸ (decodeFrom_code ht hshape (hkey hv)).2
  refine ⟨fun y hv => ⟨ne_nil_of_decodeFrom (hdec hv), fun hk1 => ?_⟩, fun y z hy hz hne hpre =>
    hne (eq_of_decodeFrom_of_begins (hdec hy) (hdec hz) hpre)⟩
  rw [hlut, generatedLut_of_single_key ht hshape hk1 (hkey hv)]
  rfl

/-! ### The code space (R109) -/

section
variable {s : State}

/-- A weight that every internal node shares out to its two children is, summed over the leaves, the root's: each node but the
root is a child once (R48). -/
theorem sum_leaves_of_shared (h : s.TreeShape) (hk : 1 ≤ s.k.toNat) {W : Nat → Nat}
    (hW : ∀ i ∈ s.internals, W (s.nodeAt i).left.toNat + W (s.nodeAt i).right.toNat = W i) :
    ((List.range s.k.toNat).map W).sum = W (s.nnode - 1) := by
  obtain ⟨-, -, hperm, -⟩ := h
  have hnnode := nnode_eq hk
  have hchildren : ((List.range (s.nnode - 1)).map W).sum = (s.internals.map W).sum := by
    rw [← (hperm.map W).sum_eq, State.children, List.map_flatMap, List.flatMap, List.sum_flatten, List.map_map]
    exact congrArg List.sum (List.map_congr_left fun i hi => by simpa using hW i hi)
  have hleaves : List.range s.k.toNat ++ s.internals = List.range s.nnode := by
    have htake : (List.range s.nnode).take s.k.toNat = List.range s.k.toNat := by
      rw [List.take_range, Nat.min_eq_left (by omega)]
    rw [← htake]
    exact List.take_append_drop _ _
  have hlast : List.range s.nnode = List.range (s.nnode - 1) ++ [s.nnode - 1] := by
    rw [← List.range_succ]; exact congrArg List.range (by omega)
  have hsum := congrArg (fun q => (q.map W).sum) (hleaves.trans hlast)
  simp only [List.map_append, List.sum_append, hchildren, List.map_cons, List.map_nil, List.sum_singleton] at hsum
  omega

theorem descend_concat_of_internal {nodes : Vector Node 511} {n m : NodeIdx} {p : List Bool}
    (h : descend nodes n p = some m) (hl : (nodeIn nodes m.toNat).leaf = false) (b : Bool) :
    descend nodes n (p ++ [b]) = some (childOf nodes m b) := by
  rw [descend_append, h, Option.bind_some, descend_internal hl]; rfl

/-- Every edge goes to a smaller index, so a path has no more edges than it passes indices. -/
theorem length_add_le_of_descend (h : s.TreeShape) {n m : NodeIdx} (hn : n.toNat < s.nnode) {p : List Bool}
    (hp : descend s.node n p = some m) : p.length + m.toNat ≤ n.toNat := by
  induction p generalizing n with
  | nil => obtain rfl := Option.some.inj hp; simp
  | cons b p ih =>
    cases hl : (nodeIn s.node n.toNat).leaf with
    | true => rw [descend_leaf hl] at hp; cases hp
    | false =>
      rw [descend_internal hl] at hp
      have hchild := childOf_lt h hn hl b
      have := ih (by omega) hp
      simp only [List.length_cons]
      omega

/-- All paths from the root to a node are equally long: every node has a depth. -/
theorem exists_depth (h : s.TreeShape) (hm : ∀ i ∈ s.internals, s.MergesLeast i) {n : NodeIdx}
    (hn : n.toNat + 1 = s.nnode) :
    ∃ d : Nat → Nat, ∀ p m, descend s.node n p = some m → d m.toNat = p.length := by
  have hle {p q : List Bool} {m : NodeIdx} (hp : descend s.node n p = some m) (hq : descend s.node n q = some m) :
      q.length ≤ p.length :=
    depth_le_of_not_keyBefore h hm hn hp hq (fun _ => le_rfl) (by simp [State.keyBefore])
  have hdepth (i : Nat) : ∃ d, ∀ p m, m.toNat = i → descend s.node n p = some m → d = p.length := by
    by_cases hex : ∃ p m, m.toNat = i ∧ descend s.node n p = some m
    · obtain ⟨p, m, rfl, hp⟩ := hex
      exact ⟨p.length, fun q l hl hq => le_antisymm (hle (BitVec.eq_of_toNat_eq hl ▸ hq) hp)
        (hle hp (BitVec.eq_of_toNat_eq hl ▸ hq))⟩
    · exact ⟨0, fun p m hi hp => absurd ⟨p, m, hi, hp⟩ hex⟩
  choose d hd using hdepth
  exact ⟨d, fun p m => hd _ p m rfl⟩

section
variable (h : s.TreeShape) (hk : s.k.toNat ≤ 256) (hk2 : 2 ≤ s.k.toNat) {d : Nat → Nat}
  (hd : ∀ p m, descend s.node s.rootPos p = some m → d m.toNat = p.length)
include h hk hk2 hd

/-- An internal node is at most K - 2 deep, and its children are one deeper. -/
theorem depth_of_internal {i : Nat} (hi : i ∈ s.internals) :
    d i + 2 ≤ s.k.toNat ∧ d (s.nodeAt i).left.toNat = d i + 1 ∧ d (s.nodeAt i).right.toNat = d i + 1 := by
  obtain ⟨hki, hin⟩ := mem_internalsIn.mp hi
  have hroot := toNat_rootPos_add_one hk hk2
  have hnnode := nnode_eq_two_mul_sub_one s
  have hiNat : (BitVec.ofNat 9 i).toNat = i := Nat.mod_eq_of_lt (by omega)
  have hrootEq : BitVec.ofNat 9 (s.nnode - 1) = s.rootPos := by rw [← hroot]; simp
  obtain ⟨p, hp⟩ := exists_descend h hk hin
  rw [hrootEq] at hp
  have hdi : d i = p.length := hiNat ▸ hd p _ hp
  have hlen := length_add_le_of_descend h (by omega) hp
  obtain ⟨hleaf, -⟩ := treeShape_internal h hki hin
  have hchild (b : Bool) : d (childOf s.node (BitVec.ofNat 9 i) b).toNat = d i + 1 := by
    rw [hd _ _ (descend_concat_of_internal hp (by rwa [hiNat]) b), hdi, List.length_append, List.length_singleton]
  refine ⟨by omega, ?_, ?_⟩
  · simpa [childOf, hiNat, State.nodeAt] using hchild false
  · simpa [childOf, hiNat, State.nodeAt] using hchild true

/-- The weights 2^(255 - depth) of the leaves sum up to the root's, 2^255. -/
theorem sum_depth_weights : ((List.range s.k.toNat).map fun i => 2 ^ (255 - d i)).sum = 2 ^ 255 := by
  have hdroot : d (s.nnode - 1) = 0 := by
    rw [← toNat_rootPos_add_one hk hk2]
    exact hd [] _ rfl
  rw [sum_leaves_of_shared h (by omega) (W := fun i => 2 ^ (255 - d i)), hdroot]
  intro i hi
  obtain ⟨hdeep, hleft, hright⟩ := depth_of_internal h hk hk2 hd hi
  rw [hleft, hright, ← Nat.two_mul, ← Nat.pow_succ', show (255 - (d i + 1)).succ = 255 - d i by omega]

end

end

/-- Settles O43: a code's length is its leaf's depth, and the weights of the leaves' depths sum up to the root's. -/
theorem codesFillTheCodeSpace : Obligations.CodesFillTheCodeSpace := by
  intro s hinv hp hk2
  obtain ⟨ht, tree, ⟨-, hcode⟩, -⟩ := hinv
  obtain ⟨hshape, hmerges⟩ := tree.2 (by simp [hp])
  have ⟨hk, _, hfreq, _⟩ := ht
  have hroot := toNat_rootPos_add_one hk hk2
  have hpath {y : Sym} (hy : y ∈ s.keys) : ∃ p, descend s.node s.rootPos p = some (s.leafIndex y) ∧
      (s.lutOf y).len.toNat = p.length ∧ 1 ≤ p.length ∧ p.length ≤ s.k.toNat - 1 := by
    obtain ⟨p, hpath, hne, hlen, e⟩ := generatedLut_of_key ht hshape hk2 ((hfreq y).mpr hy)
    refine ⟨p, (hpath.ends_at_leafIndex ht hshape (by omega)).2, ?_, List.length_pos_iff.mpr hne, hlen⟩
    rw [State.lutOf, hcode hp, e, toNat_len_pathEntry (by omega)]
  refine ⟨fun y hy => ?_, ?_⟩
  · obtain ⟨p, -, e, hlen⟩ := hpath hy
    rwa [e]
  · obtain ⟨d, hd⟩ := exists_depth hshape hmerges hroot
    rw [← sum_depth_weights hshape hk hk2 hd, ← map_leafIndex_keys ht, List.map_map]
    refine congrArg List.sum (List.map_congr_left fun y hy => ?_)
    obtain ⟨p, hpy, e, -⟩ := hpath hy
    rw [e, Function.comp_apply, hd p _ hpy]

/-! ### GENERATE's results (R110) -/

theorem maxLen_spec (lut : Vector LutEntry 256) :
    (∀ y, (lutIn lut y).len.toNat ≤ maxLen lut) ∧ ∃ y, (lutIn lut y).len.toNat = maxLen lut := by
  have hmax : (0 :: lut.toList.map fun e => e.len.toNat).max? = some (maxLen lut) := List.max?_cons'
  obtain ⟨hmem, hle⟩ := List.max?_eq_some_iff.mp hmax
  have hbound (y : Sym) : (lutIn lut y).len.toNat ≤ maxLen lut :=
    hle _ (List.mem_cons_of_mem _ (List.mem_map.mpr ⟨_, by simp [lutIn], rfl⟩))
  refine ⟨hbound, ?_⟩
  rcases List.mem_cons.mp hmem with hzero | hmem
  · exact ⟨0, le_antisymm (hbound 0) (by omega)⟩
  · obtain ⟨e, he, hlen⟩ := List.mem_map.mp hmem
    obtain ⟨i, hi, rfl⟩ := List.getElem_of_mem he
    have hi' : i < 256 := by simpa using hi
    exact ⟨BitVec.ofNat 8 i, by simpa [lutIn, Nat.mod_eq_of_lt hi'] using hlen⟩

theorem exec_generate_of_load {s : State} (hp : s.phase = .load) : exec .generate s = .next (s.failed .phase) := by
  rw [exec, execGenerate, if_pos hp, raise_eq]

/-- RESULT0 holds the greatest length, which fits. -/
theorem toNat_ofNat_maxLen (lut : Vector LutEntry 256) : (BitVec.ofNat 32 (maxLen lut)).toNat = maxLen lut := by
  obtain ⟨-, y, hy⟩ := maxLen_spec lut
  have hlt := (lutIn lut y).len.isLt
  exact Nat.mod_eq_of_lt (by omega)

/-- Settles O40: the one error, else the completion of `exec_generate_of_ne_load`, its RESULT0 the attained maximum. -/
theorem generateCompletes : Obligations.GenerateCompletes := by
  refine ⟨decodeInvertsEncode .generate, rejectsReservedBits .generate, fun s => ⟨exec_generate_of_load, fun hp =>
    ⟨_, exec_generate_of_ne_load hp, rfl, ?_, ?_, BitVec.toNat_setWidth_of_le (by decide), fun hk y => ?_⟩⟩⟩
  all_goals obtain ⟨hbound, hattained⟩ := maxLen_spec s.generatedLut
  · exact fun y => (hbound y).trans_eq (toNat_ofNat_maxLen _).symm
  · exact hattained.imp fun y hy => hy.trans (toNat_ofNat_maxLen _).symm
  · rw [State.lutOf, generatedLut_of_no_key (by simp [hk]), lutIn_lutEmpty]; rfl

/-! ### GENERATE again (R112) -/

/-- No command but CLEAR changes the tree, the keys and their codes in CODE. -/
theorem exec_holdsCodesOf {i : Instr} {s t u : State} (ht : t.HoldsCodesOf s) (hi : i ≠ .clear)
    (h : exec i t = .next u) : u.HoldsCodesOf s := by
  obtain ⟨hp, hn, hk, hl⟩ := ht
  have hne : t.phase ≠ .load := by simp [hp]
  by_cases hg : i = .generate
  · subst hg
    obtain ⟨up, un, uk, ul⟩ := holdsCodesOf_generate hne h
    exact ⟨up, un.trans hn, uk.trans hk, ul.trans (generatedLut_congr hn hk)⟩
  by_cases hb : i = .build
  · subst hb
    rw [exec_build_of_ne_load hne] at h
    rw [← Host.Outcome.next.inj h]
    exact ⟨hp, hn, hk, hl⟩
  obtain ⟨-, -, -, -, -, -, -, htable, hnode, hlut, -⟩ := whichCommandsWriteWhat i t u h hi
  obtain ⟨-, -, uk⟩ := htable (.inr hne)
  obtain up | ⟨e, -⟩ | ⟨e, -⟩ | ⟨e, -⟩ := exec_phase h
  · exact ⟨up.trans hp, (hnode (.inl hb)).trans hn, uk.trans hk, (hlut hb hg).trans hl⟩
  · exact absurd e hb
  · exact absurd e hg
  · exact absurd e hi

/-- Commands performed one after the other: the first leaves a state in which the rest are performed. -/
theorem performEach_cons {i : Instr} {a : Word} {rest : List (Instr × Word)} {s u : State}
    (h : performEach ((i, a) :: rest) s = some u) :
    ∃ t, exec i (s.issued i a) = .next t ∧ performEach rest t = some u := by
  rw [performEach, perform] at h
  split at h
  · exact ⟨_, ‹_›, h⟩
  · cases h
  · cases h

theorem performEach_holdsCodesOf {s t u : State} {between : List (Instr × Word)} (ht : t.HoldsCodesOf s)
    (hb : ∀ c ∈ between, c.1 ≠ .clear) (h : performEach between t = some u) : u.HoldsCodesOf s := by
  induction between generalizing t with
  | nil => rwa [← Option.some.inj h]
  | cons c between ih =>
    obtain ⟨hc, hrest⟩ := List.forall_mem_cons.mp hb
    obtain ⟨v, hv, h⟩ := performEach_cons h
    have hissued : (t.issued c.1 c.2).HoldsCodesOf s := ht
    exact ih (exec_holdsCodesOf hissued hc hv) hrest h

/-- Settles O44: GENERATE's table and results are functions of the tree and K, which the commands between keep. -/
theorem generateIsIdempotent : Obligations.GenerateIsIdempotent := by
  intro s t u v between hp ht hb hu hv
  obtain ⟨up, un, uk, ul⟩ := performEach_holdsCodesOf (holdsCodesOf_generate hp ht) hb hu
  have hlut : u.generatedLut = s.generatedLut := generatedLut_congr un uk
  rw [exec_generate_of_ne_load hp] at ht
  rw [exec_generate_of_ne_load (by simp [up]), hlut, uk] at hv
  rw [← Host.Outcome.next.inj ht, ← Host.Outcome.next.inj hv]
  exact ⟨rfl, rfl, rfl, ul⟩

/-! ### READ_CODE (R113) -/

/-- Bit b of word w of a code is BITS bit 32w + b, and 0 at bit 255. -/
theorem getLsbD_codeWord (bits : CodeBits) (w : BitVec 3) {b : Nat} (hb : b < 32) :
    (codeWord bits w).getLsbD b = if 32 * w.toNat + b < 255 then bits.getLsbD (32 * w.toNat + b) else false := by
  have hw := w.isLt
  rw [codeWord, BitVec.getLsbD_extractLsb', BitVec.getLsbD_setWidth]
  simp only [hb, show 32 * w.toNat + b < 256 by omega, decide_true, Bool.true_and]
  split
  · rfl
  · exact BitVec.getLsbD_of_ge _ _ (by omega)

theorem exec_readCode_of_ne_code {s : State} (hp : s.phase ≠ .code) (y : Sym) (w : BitVec 3) :
    exec (.readCode y w) s = .next (s.failed .phase) := by
  rw [exec, execReadCode, if_pos hp, raise_eq]

theorem exec_readCode_of_not_valid {s : State} {y : Sym} (hp : s.phase = .code) (hv : (s.lutOf y).valid = false)
    (w : BitVec 3) : exec (.readCode y w) s = .next (s.failed .noCode) := by
  rw [exec, execReadCode, if_neg (fun h => h hp), if_pos hv, raise_eq]

theorem exec_readCode_of_valid {s : State} {y : Sym} (hp : s.phase = .code) (hv : (s.lutOf y).valid = true)
    (w : BitVec 3) : exec (.readCode y w) s = .next { s with
      result0 := (s.lutOf y).len.setWidth 32, result1 := codeWord (s.lutOf y).bits w, lastErr := .ok, busy := false } := by
  rw [exec, execReadCode, if_neg (fun h => h hp), if_neg (by simp [hv])]; rfl

/-- Settles O45: the two checks in their order, then the entry's length and the bits of one word. -/
theorem readCodeReadsOneWord : Obligations.ReadCodeReadsOneWord := by
  refine ⟨fun y w => decodeInvertsEncode (.readCode y w), rejectsReservedBits (.readCode 0 0), fun s y w =>
    ⟨fun hp => exec_readCode_of_ne_code hp y w, fun hp hv => exec_readCode_of_not_valid hp hv w, fun hp hv =>
      ⟨_, _, exec_readCode_of_valid hp hv w, BitVec.toNat_setWidth_of_le (by decide), fun b hb =>
        getLsbD_codeWord _ w hb⟩⟩⟩

end Sys2Proof.Machine

namespace Sys2Proof.Machine

open Sys2Proof

/-! ### Decoding a stream to its end or its fall-off (R116 to R118, R122) -/

/-- What decoding bits from a position amounts to: the symbols emitted, the position at the end, the number of bits used, and whether
the last of them fell off. A run exists for every stream; `decodeFrom` has a value only where none falls off. -/
@[ext] structure DecodeRun where
  emitted : List Sym
  cur : NodeIdx
  used : Nat
  fell : Bool

/-- No bit decoded yet. -/
def DecodeRun.start (cur : NodeIdx) : DecodeRun := ⟨[], cur, 0, false⟩

/-- One run and then another, from where the first ended. -/
def DecodeRun.andThen (r q : DecodeRun) : DecodeRun := ⟨r.emitted ++ q.emitted, q.cur, r.used + q.used, q.fell⟩

@[simp] theorem DecodeRun.andThen_cur (r q : DecodeRun) : (r.andThen q).cur = q.cur := rfl
@[simp] theorem DecodeRun.andThen_fell (r q : DecodeRun) : (r.andThen q).fell = q.fell := rfl

theorem DecodeRun.andThen_assoc (r q p : DecodeRun) : (r.andThen q).andThen p = r.andThen (q.andThen p) := by
  simp [DecodeRun.andThen, Nat.add_assoc]

@[simp] theorem DecodeRun.start_andThen (c : NodeIdx) (r : DecodeRun) : (DecodeRun.start c).andThen r = r := by
  simp [DecodeRun.andThen, DecodeRun.start]

theorem DecodeRun.andThen_start {r : DecodeRun} (h : r.fell = false) : r.andThen (.start r.cur) = r := by
  ext <;> simp [DecodeRun.andThen, DecodeRun.start, h]

/-- One bit (R116, R117). -/
def State.decodeStep (s : State) (cur : NodeIdx) (b : Bool) : DecodeRun :=
  match s.move cur b with
  | none => ⟨[], cur, 1, true⟩
  | some n => if (s.nodeAt n.toNat).leaf then ⟨[(s.nodeAt n.toNat).sym], s.rootPos, 1, false⟩ else ⟨[], n, 1, false⟩

/-- Bits one after the other, to their end or to the first that falls off (R118, R122). -/
def State.decodeRun (s : State) : NodeIdx → List Bool → DecodeRun
  | cur, [] => .start cur
  | cur, b :: bs =>
    if (s.decodeStep cur b).fell then s.decodeStep cur b
    else (s.decodeStep cur b).andThen (s.decodeRun (s.decodeStep cur b).cur bs)

section
variable {s : State} {cur n : NodeIdx} {b : Bool}

theorem decodeStep_of_none (h : s.move cur b = none) : s.decodeStep cur b = ⟨[], cur, 1, true⟩ := by
  simp [State.decodeStep, h]

theorem decodeStep_of_leaf (h : s.move cur b = some n) (hl : (s.nodeAt n.toNat).leaf = true) :
    s.decodeStep cur b = ⟨[(s.nodeAt n.toNat).sym], s.rootPos, 1, false⟩ := by
  simp [State.decodeStep, h, hl]

theorem decodeStep_of_internal (h : s.move cur b = some n) (hl : (s.nodeAt n.toNat).leaf = false) :
    s.decodeStep cur b = ⟨[], n, 1, false⟩ := by
  simp [State.decodeStep, h, hl]

theorem decodeRun_of_fell (h : (s.decodeStep cur b).fell = true) (bs : List Bool) :
    s.decodeRun cur (b :: bs) = s.decodeStep cur b := by
  simp [State.decodeRun, h]

theorem decodeRun_of_not_fell (h : (s.decodeStep cur b).fell = false) (bs : List Bool) :
    s.decodeRun cur (b :: bs) = (s.decodeStep cur b).andThen (s.decodeRun (s.decodeStep cur b).cur bs) := by
  simp [State.decodeRun, h]

/-- A bit with nowhere to go ends the run, whatever follows it (R122). -/
theorem decodeRun_of_none (h : s.move cur b = none) (bs : List Bool) : s.decodeRun cur (b :: bs) = ⟨[], cur, 1, true⟩ := by
  rw [decodeRun_of_fell (by rw [decodeStep_of_none h]), decodeStep_of_none h]

theorem decodeRun_singleton (s : State) (cur : NodeIdx) (b : Bool) : s.decodeRun cur [b] = s.decodeStep cur b := by
  cases h : (s.decodeStep cur b).fell with
  | true => exact decodeRun_of_fell h []
  | false => exact (decodeRun_of_not_fell h []).trans (DecodeRun.andThen_start h)

end

/-- A run over two pieces ends in the first, or is one and then the other (R118, R124). -/
theorem decodeRun_append (s : State) (cur : NodeIdx) (xs ys : List Bool) :
    s.decodeRun cur (xs ++ ys) =
      if (s.decodeRun cur xs).fell then s.decodeRun cur xs
      else (s.decodeRun cur xs).andThen (s.decodeRun (s.decodeRun cur xs).cur ys) := by
  induction xs generalizing cur with
  | nil => simp [State.decodeRun, DecodeRun.start, DecodeRun.andThen]
  | cons b bs ih =>
    rw [List.cons_append]
    cases h : (s.decodeStep cur b).fell with
    | true => rw [decodeRun_of_fell h, decodeRun_of_fell h, if_pos h]
    | false =>
      rw [decodeRun_of_not_fell h, decodeRun_of_not_fell h, ih, DecodeRun.andThen_fell, DecodeRun.andThen_cur,
        DecodeRun.andThen_assoc]
      exact apply_ite _ _ _ _

/-- A run is a function of NODE and K alone. -/
theorem decodeRun_congr {s t : State} (hn : t.node = s.node) (hk : t.k = s.k) (cur : NodeIdx) (bs : List Bool) :
    t.decodeRun cur bs = s.decodeRun cur bs := by
  have hnode (i : Nat) : t.nodeAt i = s.nodeAt i := by rw [State.nodeAt, State.nodeAt, hn]
  have hmove (cur : NodeIdx) (b : Bool) : t.move cur b = s.move cur b := by simp only [State.move, hk, hnode]
  have hstep (cur : NodeIdx) (b : Bool) : t.decodeStep cur b = s.decodeStep cur b := by
    simp only [State.decodeStep, State.rootPos, hk, hmove, hnode]
  induction bs generalizing cur with
  | nil => rfl
  | cons b bs ih => simp only [State.decodeRun, hstep, ih]

/-! ### DECODE's loop is a run (R121) -/

/-- OUTBUF with the given symbols at its start and 0 past them. -/
def outOf (ys : List Sym) : Vector Sym 32 := Vector.ofFn fun i => ys.getD i 0

/-- What DECODE's loop carries after a run. -/
def DecodeRun.toWalk (r : DecodeRun) : Walk := ⟨r.cur, r.emitted.length, r.used, r.fell, outOf r.emitted⟩

theorem outOf_nil : outOf [] = outEmpty := by
  ext i hi
  simp [outOf, outEmpty]

theorem outSet_outOf (ys : List Sym) (y : Sym) : outSet (outOf ys) ys.length y = outOf (ys ++ [y]) := by
  ext1 i hi
  rw [outSet_get _ _ _ _ hi]
  simp only [outOf, Vector.getElem_ofFn]
  rcases Nat.lt_trichotomy i ys.length with h | rfl | h
  · simp [h, h.ne', List.getElem?_append_left]
  · simp
  · simp [h.ne, List.getElem?_eq_none h.le, List.getElem?_eq_none (show (ys ++ [y]).length ≤ i by simp; omega)]

theorem take_outOf {ys : List Sym} (h : ys.length ≤ 32) : (outOf ys).toList.take ys.length = ys := by
  refine List.ext_getElem (by simpa using h) fun i _ hi => ?_
  simp [outOf, hi]

theorem walkStart_eq_toWalk (s : State) : s.walkStart = (DecodeRun.start s.decCur).toWalk := by
  simp [State.walkStart, DecodeRun.toWalk, DecodeRun.start, outOf_nil]

theorem emitSymbol_toWalk (s : State) (r : DecodeRun) (h : r.fell = false) (y : Sym) :
    s.emitSymbol r.toWalk y = (r.andThen ⟨[y], s.rootPos, 1, false⟩).toWalk := by
  simp [State.emitSymbol, DecodeRun.toWalk, DecodeRun.andThen, outSet_outOf, h]

/-- DECODE's loop goes on from a run as the run goes on. -/
theorem walkBits_toWalk (s : State) (bs : List Bool) {r : DecodeRun} (h : r.fell = false) :
    s.walkBits bs r.toWalk = (r.andThen (s.decodeRun r.cur bs)).toWalk := by
  induction bs generalizing r with
  | nil => rw [State.decodeRun, DecodeRun.andThen_start h]; rfl
  | cons b bs ih =>
    rcases walkBits_cons s b bs r.toWalk with ⟨hm, e⟩ | ⟨n, hm, hl, e⟩ | ⟨n, hm, hl, e⟩
    · rw [e, decodeRun_of_none (cur := r.cur) hm]
      simp [DecodeRun.toWalk, DecodeRun.andThen]
    · have hstep := decodeStep_of_leaf (cur := r.cur) hm hl
      rw [e, emitSymbol_toWalk s r h, ih rfl, DecodeRun.andThen_assoc]
      rw [decodeRun_of_not_fell (by rw [hstep]), hstep]; rfl
    · have hstep := decodeStep_of_internal (cur := r.cur) hm hl
      have hnext : { r.toWalk with cur := n, used := r.toWalk.used + 1 } = (r.andThen ⟨[], n, 1, false⟩).toWalk := by
        simp [DecodeRun.toWalk, DecodeRun.andThen, h]
      rw [e, hnext, ih rfl, DecodeRun.andThen_assoc]
      rw [decodeRun_of_not_fell (by rw [hstep]), hstep]; rfl

theorem walkBits_start (s : State) (cur : NodeIdx) (bs : List Bool) :
    s.walkBits bs (DecodeRun.start cur).toWalk = (s.decodeRun cur bs).toWalk := by
  rw [walkBits_toWalk s bs rfl, DecodeRun.start_andThen]; rfl

/-- At most one symbol a bit, and every bit used unless the run falls off (R121). -/
theorem decodeRun_bounds (s : State) (cur : NodeIdx) (bs : List Bool) :
    (s.decodeRun cur bs).emitted.length ≤ (s.decodeRun cur bs).used ∧ (s.decodeRun cur bs).used ≤ bs.length ∧
    ((s.decodeRun cur bs).fell = false → (s.decodeRun cur bs).used = bs.length) ∧
    (bs ≠ [] → 1 ≤ (s.decodeRun cur bs).used) := by
  obtain ⟨-, hused, -, hnout, hall, hsome⟩ := walkBits_bounds s bs (DecodeRun.start cur).toWalk
  rw [walkBits_start] at hused hnout hall hsome
  simp only [DecodeRun.toWalk, DecodeRun.start, List.length_nil, Nat.zero_add, Nat.add_zero] at hused hnout hall hsome
  exact ⟨hnout, hused, hall, hsome⟩

/-! ### What DECODE leaves after a run (R121) -/

theorem getLsbD_packDecode_fell (fell : Bool) (used nout : Nat) : (packDecode fell used nout).getLsbD 16 = fell := by
  simp only [packDecode, BitVec.getLsbD_append, BitVec.getLsbD_ofBool, Nat.reduceLT, if_false, if_true, Nat.reduceSub,
    decide_true, Bool.true_and]

/-- NUSED and the bits that are always 0, below NUSED, above it and above FELL (R121). -/
theorem extractLsb'_packDecode_used (fell : Bool) (used nout : Nat) :
    (packDecode fell used nout).extractLsb' 8 6 = BitVec.ofNat 6 used ∧
    (packDecode fell used nout).extractLsb' 6 2 = 0 ∧ (packDecode fell used nout).extractLsb' 14 2 = 0 ∧
    (packDecode fell used nout).extractLsb' 17 15 = 0 := by
  simp (disch := decide) only [packDecode, BitVec.extractLsb'_append_eq_of_add_le,
    BitVec.extractLsb'_append_eq_of_le, Nat.reduceSub, BitVec.extractLsb'_eq_self, and_self]

/-- The state a DECODE leaves whose bits made the run `r`. -/
def State.afterRun (s : State) (r : DecodeRun) : State := { s.decoded r.toWalk with lastErr := .ok, busy := false }

section
variable (s : State) (r : DecodeRun)

@[simp] theorem State.afterRun_decCur : (s.afterRun r).decCur = r.cur := rfl
@[simp] theorem State.afterRun_decFell : (s.afterRun r).decFell = r.fell := rfl
@[simp] theorem State.afterRun_result0 : (s.afterRun r).result0 = packDecode r.fell r.used r.emitted.length := rfl

end

/-- OUTBUF past the symbols emitted is 0 (R121). -/
theorem outAt_afterRun {s : State} {r : DecodeRun} {i : Nat} (h : r.emitted.length ≤ i) : (s.afterRun r).outAt i = 0 := by
  have hout : (s.afterRun r).outbuf = outOf r.emitted := rfl
  rw [State.outAt, hout]
  split
  · simp [outOf, h]
  · rfl

/-- The host reads from OUTBUF and NOUT the symbols emitted, of a chunk of at most 32 bits (R43, R121). -/
theorem emitted_afterRun {s t : State} {cur : NodeIdx} {bs : List Bool} (h : bs.length ≤ 32) :
    (t.afterRun (s.decodeRun cur bs)).emitted = (s.decodeRun cur bs).emitted := by
  obtain ⟨hnout, hused, -, -⟩ := decodeRun_bounds s cur bs
  have hmod : (BitVec.ofNat 6 (s.decodeRun cur bs).emitted.length).toNat = (s.decodeRun cur bs).emitted.length :=
    Nat.mod_eq_of_lt (by omega)
  rw [State.emitted, State.afterRun_result0, extractLsb'_packDecode, hmod]
  exact take_outOf (by omega)

/-- DECODE past its checks is a run over its chunk (R121). -/
theorem exec_decode_eq_afterRun {s : State} {n : BitVec 6} (hp : s.phase ≠ .load) (hf : s.decFell = false) (hn : 1 ≤ n.toNat)
    (hn' : n.toNat ≤ 32) :
    exec (.decode n) s = .next (s.afterRun (s.decodeRun s.decCur (chunkBits n.toNat s.argl))) := by
  have hne : n ≠ 0 := by rintro rfl; exact absurd hn (by decide)
  rw [exec_decode_of_checks hp hf hne hn', walkStart_eq_toWalk, walkBits_start, complete_eq]; rfl

/-- The state a DECODE leaves, by the run over its chunk, and the symbols read in it (R121). -/
theorem exec_decode_of_run {s : State} {n : BitVec 6} {r : DecodeRun} (hp : s.phase ≠ .load) (hf : s.decFell = false)
    (hn : 1 ≤ n.toNat) (hn' : n.toNat ≤ 32) (hr : s.decodeRun s.decCur (chunkBits n.toNat s.argl) = r) :
    exec (.decode n) s = .next (s.afterRun r) ∧ (s.afterRun r).emitted = r.emitted := by
  subst hr
  exact ⟨exec_decode_eq_afterRun hp hf hn hn', emitted_afterRun (by rwa [chunkBits_length])⟩

/-- A DECODE that reports E_OK has passed its checks and made a run (R121). -/
theorem eq_afterRun_of_exec_decode {s t : State} {n : BitVec 6} (h : exec (.decode n) s = .next t) (hok : t.lastErr = .ok) :
    s.phase ≠ .load ∧ s.decFell = false ∧ t = s.afterRun (s.decodeRun s.decCur (chunkBits n.toNat s.argl)) := by
  obtain ⟨e, he, rfl⟩ | ⟨-, -, hp, hf, hn, hn', -⟩ := exec_next_cases h
  · exact absurd hok he
  · have hpos : n.toNat ≠ 0 := fun e => hn (BitVec.eq_of_toNat_eq e)
    rw [exec_decode_eq_afterRun hp hf (by omega) hn'] at h
    exact ⟨hp, hf, (Host.Outcome.next.inj h).symm⟩

/-! ### Feeding a stream that may fall off (R124) -/

/-- A DECODE performed on a chunk, with no error, found the decoder not halted and made a run over the chunk (R17, R121). -/
theorem performOk_decode_run {s t : State} {c : List Bool} (hc : 1 ≤ c.length ∧ c.length ≤ 32)
    (h : performOk (.decode (BitVec.ofNat 6 c.length)) (packBits c) s = some t) :
    s.decFell = false ∧ t.emitted = (s.decodeRun s.decCur c).emitted ∧ t.decCur = (s.decodeRun s.decCur c).cur ∧
      t.decFell = (s.decodeRun s.decCur c).fell ∧ t.node = s.node ∧ t.k = s.k := by
  obtain ⟨hexec, hok⟩ := exec_of_performOk h
  obtain ⟨-, hf, rfl⟩ := eq_afterRun_of_exec_decode hexec hok
  have hlen : (BitVec.ofNat 6 c.length).toNat = c.length := Nat.mod_eq_of_lt (by omega)
  rw [State.issued_argl, State.issued_decCur, hlen, chunkBits_packBits hc.2,
    decodeRun_congr (State.issued_node _ _ _) (State.issued_k _ _ _)]
  exact ⟨hf, emitted_afterRun hc.2, rfl, rfl, rfl, rfl⟩

theorem feed_cons {c : List Bool} {cs : List (List Bool)} {s : State} {r : List Sym × State} (h : feed (c :: cs) s = some r) :
    ∃ t q, performOk (.decode (BitVec.ofNat 6 c.length)) (packBits c) s = some t ∧ feed cs t = some q ∧
      r = (t.emitted ++ q.1, q.2) := by
  obtain ⟨t, ht, h⟩ := Option.bind_eq_some_iff.mp h
  obtain ⟨q, hq, e⟩ := Option.map_eq_some_iff.mp h
  exact ⟨t, q, ht, hq, e.symm⟩

/-- A halted decoder can be fed nothing (R122). -/
theorem feed_of_halted {cs : List (List Bool)} {s : State} {r : List Sym × State} (hs : s.decFell = true) (hcs : ChunksFit cs)
    (h : feed cs s = some r) : cs = [] ∧ r = ([], s) := by
  cases cs with
  | nil => exact ⟨rfl, (Option.some.inj h).symm⟩
  | cons c cs =>
    obtain ⟨t, q, ht, -⟩ := feed_cons h
    obtain ⟨hf, -⟩ := performOk_decode_run (hcs c List.mem_cons_self) ht
    exact absurd hs (by simp [hf])

/-- Chunks fed are one run over their stream: only the last can fall off (R118, R124). -/
theorem feed_eq_run {cs : List (List Bool)} {s : State} {r : List Sym × State} (hs : s.decFell = false) (hcs : ChunksFit cs)
    (h : feed cs s = some r) :
    r.1 = (s.decodeRun s.decCur cs.flatten).emitted ∧ r.2.decCur = (s.decodeRun s.decCur cs.flatten).cur ∧
      r.2.decFell = (s.decodeRun s.decCur cs.flatten).fell := by
  induction cs generalizing s r with
  | nil =>
    obtain rfl := Option.some.inj h
    exact ⟨rfl, rfl, hs⟩
  | cons c cs ih =>
    obtain ⟨hc, hrest⟩ := List.forall_mem_cons.mp hcs
    obtain ⟨t, q, ht, hq, rfl⟩ := feed_cons h
    obtain ⟨-, hemitted, hcur, hfell, hn, hk⟩ := performOk_decode_run hc ht
    rw [List.flatten_cons, decodeRun_append]
    cases hf : (s.decodeRun s.decCur c).fell with
    | true =>
      obtain ⟨-, rfl⟩ := feed_of_halted (hfell.trans hf) hrest hq
      rw [if_pos rfl]
      exact ⟨(List.append_nil _).trans hemitted, hcur, hfell⟩
    | false =>
      obtain ⟨qemitted, qcur, qfell⟩ := ih (hfell.trans hf) hrest hq
      rw [hcur, decodeRun_congr hn hk] at qemitted qcur qfell
      rw [if_neg Bool.false_ne_true]
      exact ⟨congrArg₂ _ hemitted qemitted, qcur, qfell⟩

/-- Settles O55: however it is cut, a stream fed is one run over it, and a decoder already halted is fed no chunk at all. -/
theorem chunkingDoesNotChangeTheResult : Obligations.ChunkingDoesNotChangeTheResult := by
  intro s cs ds r q hcs hds hflat hr hq
  cases hs : s.decFell with
  | true =>
    obtain ⟨-, rfl⟩ := feed_of_halted hs hcs hr
    obtain ⟨-, rfl⟩ := feed_of_halted hs hds hq
    exact ⟨rfl, rfl, rfl⟩
  | false =>
    obtain ⟨remitted, rcur, rfell⟩ := feed_eq_run hs hcs hr
    obtain ⟨qemitted, qcur, qfell⟩ := feed_eq_run hs hds hq
    rw [hflat] at remitted rcur rfell
    exact ⟨remitted.trans qemitted.symm, rcur.trans qcur.symm, rfell.trans qfell.symm⟩

/-! ### The decoder inverts the code table (R125) -/

/-- Encoding succeeds only when every symbol has a code (R16). -/
theorem valid_of_encodeSymbols {lut : Vector LutEntry 256} {S : List Sym} {B : List Bool} (h : encodeSymbols lut S = some B) :
    ∀ y ∈ S, (lutIn lut y).valid = true := by
  induction S generalizing B with
  | nil => exact fun y hy => absurd hy List.not_mem_nil
  | cons y S ih =>
    rw [encodeSymbols] at h
    split at h
    · next hy hS => exact List.forall_mem_cons.mpr ⟨(Option.ite_none_right_eq_some.mp hy).1, ih hS⟩
    · cases h

/-- Settles O56: every symbol encoded has a code, so it is a key, and the codes of keys decode from ROOTPOS one after the other. -/
theorem decoderInvertsTheCodes : Obligations.DecoderInvertsTheCodes := by
  intro s g S B cs hinv hp hcur hfell hgen hB hcs hflat
  obtain ⟨ht, tree, -, -⟩ := hinv
  obtain ⟨hshape, -⟩ := tree.2 hp
  obtain ⟨-, -, -, hlut⟩ := holdsCodesOf_generate hp hgen
  rw [hlut] at hB
  obtain ⟨B', hB', hdec⟩ := encode_decodes ht hshape fun y hy =>
    counted_of_valid ht hshape (valid_of_encodeSymbols hB y hy)
  obtain rfl : B = B' := Option.some.inj (hB.symm.trans hB')
  obtain ⟨t, hfeed, tcur, tfell, -⟩ := feed_of_decodeFrom hp hfell hcs (by rw [hflat, hcur]; exact hdec)
  exact ⟨t, hfeed, tcur, tfell⟩

/-! ### DECODE and DEC_RESET: errors and completion (R119, R121) -/

theorem exec_decode_of_not_permitted {s : State} (h : s.phase = .load ∨ s.decFell = true) (n : BitVec 6) :
    exec (.decode n) s = .next (s.failed .phase) := by
  rw [exec, execDecode, if_pos h, raise_eq]

theorem exec_decode_of_count {s : State} {n : BitVec 6} (hp : s.phase ≠ .load) (hf : s.decFell = false)
    (hn : n = 0 ∨ 32 < n.toNat) : exec (.decode n) s = .next (s.failed .arg) := by
  rw [exec, execDecode, if_neg (by simp [hp, hf]), if_pos hn, raise_eq]

/-- Settles O48: the two checks in their order, then the state after a run, whose counts are bounded and fit their fields. -/
theorem decodeCompletes : Obligations.DecodeCompletes := by
  refine ⟨fun n => decodeInvertsEncode (.decode n), rejectsReservedBits (.decode 0), fun s n =>
    ⟨fun h => exec_decode_of_not_permitted h n, exec_decode_of_count, fun hp hf hn hn' => ?_⟩⟩
  obtain ⟨hnout, hused, hall, hsome⟩ := decodeRun_bounds s s.decCur (chunkBits n.toNat s.argl)
  rw [chunkBits_length] at hused hall
  have hpos := hsome (List.ne_nil_of_length_pos (by rwa [chunkBits_length]))
  generalize hrun : s.decodeRun s.decCur (chunkBits n.toNat s.argl) = r at hnout hused hall hpos
  obtain ⟨hexec, -⟩ := exec_decode_of_run hp hf hn hn' hrun
  obtain ⟨husedField, hbelow, habove, htop⟩ := extractLsb'_packDecode_used r.fell r.used r.emitted.length
  refine ⟨_, _, _, hexec, rfl, hnout, hpos, hused, hall, ?_⟩
  rw [State.afterRun_result0, extractLsb'_packDecode, husedField]
  exact ⟨Nat.mod_eq_of_lt (by omega), Nat.mod_eq_of_lt (by omega), getLsbD_packDecode_fell _ _ _, hbelow, habove, htop,
    fun i _ hi => outAt_afterRun hi⟩

theorem exec_decReset_of_load {s : State} (hp : s.phase = .load) : exec .decReset s = .next (s.failed .phase) := by
  rw [exec, execDecReset, if_pos hp, raise_eq]

/-- Settles O47: the one error, else the completion with the position at ROOTPOS. -/
theorem decResetReturnsToRoot : Obligations.DecResetReturnsToRoot := by
  refine ⟨decodeInvertsEncode .decReset, rejectsReservedBits .decReset, fun s => ⟨exec_decReset_of_load, fun hp =>
    ⟨_, exec_decReset_of_ne_load hp, fun hk2 hk => ?_, fun hk1 => if_neg (by omega)⟩⟩⟩
  rw [toNat_rootPos hk, if_pos hk2]

/-! ### One bit in a tree and at the virtual root (R116, R117, R120) -/

/-- At the virtual root bit 0 leads to the leaf of a single key, and no other bit leads anywhere (R120, R126). -/
theorem move_nil (s : State) (b : Bool) :
    s.move Config.nil b = if s.k.toNat = 1 ∧ b = false then some 0 else none := if_pos rfl

section
variable {s : State}

/-- With one key or none the decoder is at the virtual root (R50). -/
theorem State.Inv.decCur_eq_nil (h : s.Inv) (hp : s.phase ≠ .load) (hk1 : s.k.toNat ≤ 1) : s.decCur = Config.nil := by
  obtain ⟨-, -, -, -, hat, -⟩ := h
  exact State.DecoderAt.eq_nil hk1 (hat hp)

/-- With two keys or more the decoder is at an internal node (R50, R123). -/
theorem State.Inv.decCur_internal (h : s.Inv) (hp : s.phase ≠ .load) (hk2 : 2 ≤ s.k.toNat) :
    s.k.toNat ≤ s.decCur.toNat ∧ s.decCur.toNat < s.nnode := by
  obtain ⟨⟨hk, -⟩, -, -, -, hat, -⟩ := h
  exact State.DecoderAt.internal hk hk2 (hat hp)

/-- With two keys or more every bit leads the decoder to a child (R116, R123). -/
theorem State.Inv.move_decCur (h : s.Inv) (hp : s.phase ≠ .load) (hk2 : 2 ≤ s.k.toNat) (b : Bool) :
    s.move s.decCur b = some (childOf s.node s.decCur b) := by
  obtain ⟨-, hlt⟩ := h.decCur_internal hp hk2
  obtain ⟨⟨hk, -⟩, -⟩ := h
  have hnnode := nnode_le hk
  refine move_of_ne_nil (fun e => ?_) b
  rw [e, show Config.nil.toNat = 511 from rfl] at hlt
  omega

/-- Only a decoder with one key or none is halted (R123). -/
theorem State.Inv.k_le_one_of_fell (h : s.Inv) (hf : s.decFell = true) : s.k.toNat ≤ 1 := by
  obtain ⟨-, -, -, -, -, hhalted⟩ := h
  exact hhalted hf

/-- At the virtual root of a one-key tree a bit 0 emits its symbol and stays (R120). -/
theorem decodeStep_nil_of_single (h : s.Inv) (hp : s.phase ≠ .load) (hk : s.k.toNat = 1) :
    s.decodeStep Config.nil false = ⟨[(s.nodeAt 0).sym], Config.nil, 1, false⟩ := by
  obtain ⟨-, ⟨-, tree⟩, -⟩ := h
  obtain ⟨⟨leaves, -⟩, -⟩ := tree hp
  have hmove : s.move Config.nil false = some 0 := by rw [move_nil, if_pos ⟨hk, rfl⟩]
  have hroot : s.rootPos = Config.nil := if_neg (by omega)
  rw [decodeStep_of_leaf hmove (by rw [show (0 : NodeIdx).toNat = 0 from rfl, leaves 0 (by omega)]; rfl), hroot]; rfl

end

/-- DECODE of one bit is one step (R121). -/
theorem exec_decode_one {s : State} (hp : s.phase ≠ .load) (hf : s.decFell = false) :
    exec (.decode 1) s = .next (s.afterRun (s.decodeStep s.decCur (s.argl.getLsbD 0))) := by
  rw [← decodeRun_singleton]
  exact exec_decode_eq_afterRun hp hf (by decide) (by decide)

theorem emitted_afterStep (s : State) (cur : NodeIdx) (b : Bool) :
    (s.afterRun (s.decodeStep cur b)).emitted = (s.decodeStep cur b).emitted := by
  rw [← decodeRun_singleton]
  exact emitted_afterRun (by simp)

/-- Settles O49: with two keys or more the bit leads to a child, a leaf or not; at the virtual root it is the bit 0 of the single
key, or leads nowhere. -/
theorem decodeOneBitMoves : Obligations.DecodeOneBitMoves := by
  intro s hinv hp hf
  refine ⟨_, exec_decode_one hp hf, rfl, fun hk2 => ?_, fun hk hb => ?_, fun hk => ?_⟩
  all_goals rw [emitted_afterStep, State.afterRun_decFell, State.afterRun_decCur]
  · intro child
    have hmove : s.move s.decCur (s.argl.getLsbD 0) = some child := hinv.move_decCur hp hk2 (s.argl.getLsbD 0)
    cases hl : (s.nodeAt child.toNat).leaf with
    | true => rw [decodeStep_of_leaf hmove hl]; exact ⟨rfl, fun _ => ⟨rfl, rfl⟩, nofun⟩
    | false => rw [decodeStep_of_internal hmove hl]; exact ⟨rfl, nofun, fun _ => ⟨rfl, rfl⟩⟩
  · rw [hinv.decCur_eq_nil hp hk.le, hb, decodeStep_nil_of_single hinv hp hk]
    exact ⟨rfl, rfl, rfl⟩
  · have hnone : ¬ (s.k.toNat = 1 ∧ s.argl.getLsbD 0 = false) := by
      rintro ⟨hone, hzero⟩
      rw [hone, hzero] at hk
      simp at hk
    rw [hinv.decCur_eq_nil hp (by omega), decodeStep_of_none ((move_nil s _).trans (if_neg hnone))]
    exact ⟨rfl, rfl, rfl⟩

/-! ### Whole chunks at the virtual root (R120, R126) -/

/-- The bits of a chunk are its first z bits and then the bits from z on. -/
theorem chunkBits_add (z m : Nat) (c : Word) :
    chunkBits (z + m) c = chunkBits z c ++ (List.range m).map fun i => c.getLsbD (z + i) := by
  simp [chunkBits, List.range_add]

/-- Bits 0 at the virtual root of a one-key tree emit its symbol each (R120). -/
theorem decodeRun_replicate_of_single {s : State} (h : s.Inv) (hp : s.phase ≠ .load) (hk : s.k.toNat = 1) (z : Nat) :
    s.decodeRun Config.nil (List.replicate z false) = ⟨List.replicate z (s.nodeAt 0).sym, Config.nil, z, false⟩ := by
  have hstep := decodeStep_nil_of_single h hp hk
  induction z with
  | zero => rfl
  | succ z ih =>
    rw [List.replicate_succ, decodeRun_of_not_fell (by rw [hstep]), hstep, ih, DecodeRun.andThen, Nat.add_comm]; rfl

/-- The run over z bits 0 and then, unless the chunk ends there, a bit 1 (R120). -/
theorem decodeRun_chunk_of_single {s : State} (h : s.Inv) (hp : s.phase ≠ .load) (hk : s.k.toNat = 1) {c : Word} {n z : Nat}
    (hz : z ≤ n) (hzero : ∀ b < z, c.getLsbD b = false) (hend : z = n ∨ c.getLsbD z = true) :
    s.decodeRun Config.nil (chunkBits n c) =
      ⟨List.replicate z (s.nodeAt 0).sym, Config.nil, if z < n then z + 1 else n, decide (z < n)⟩ := by
  have hzeros : chunkBits z c = List.replicate z false :=
    List.eq_replicate_iff.mpr ⟨chunkBits_length z c, by simpa [chunkBits] using hzero⟩
  obtain ⟨m, rfl⟩ := Nat.exists_eq_add_of_le hz
  rw [chunkBits_add, hzeros]
  cases m with
  | zero => simp [decodeRun_replicate_of_single h hp hk]
  | succ m =>
    have hone : c.getLsbD z = true := hend.resolve_left (by omega)
    have hmove : s.move Config.nil true = none := (move_nil s true).trans (if_neg (by simp))
    rw [List.range_succ_eq_map, List.map_cons, Nat.add_zero, hone, decodeRun_append,
      decodeRun_replicate_of_single h hp hk, if_neg Bool.false_ne_true, decodeRun_of_none hmove]
    simp [DecodeRun.andThen]

/-- Settles O53: the run over the chunk, read off the state it leaves. -/
theorem singleSymbolDecoding : Obligations.SingleSymbolDecoding := by
  intro s n z hinv hp hf hk hn hn' hz hzero hend
  have hrun := decodeRun_chunk_of_single hinv hp hk hz hzero hend
  rw [← hinv.decCur_eq_nil hp hk.le] at hrun
  obtain ⟨hexec, hemitted⟩ := exec_decode_of_run hp hf hn hn' hrun
  refine ⟨_, hexec, rfl, hemitted, hinv.decCur_eq_nil hp hk.le, decide_eq_true_iff, ?_⟩
  obtain ⟨hused, -⟩ := extractLsb'_packDecode_used (decide (z < n.toNat)) (if z < n.toNat then z + 1 else n.toNat)
    (List.replicate z (s.nodeAt 0).sym).length
  rw [State.afterRun_result0, hused]
  exact Nat.mod_eq_of_lt (by split <;> omega)

/-- Settles O54: with no key the first bit of the chunk leads nowhere. -/
theorem noTreeFallsOffAtFirstBit : Obligations.NoTreeFallsOffAtFirstBit := by
  intro s n hinv hp hf hk hn hn'
  have hcur := hinv.decCur_eq_nil hp (by simp [hk])
  obtain ⟨b, bs, hbits⟩ := List.exists_cons_of_length_pos (hn.trans_eq (chunkBits_length n.toNat s.argl).symm)
  have hmove : s.move s.decCur b = none := by rw [hcur, move_nil, if_neg (by simp [hk])]
  obtain ⟨hexec, hemitted⟩ := exec_decode_of_run hp hf hn hn' (hbits ▸ decodeRun_of_none hmove bs)
  have hresult : packDecode true 1 0 = 0x00010100 := by decide
  exact ⟨_, hexec, rfl, hresult, rfl, hemitted, hcur, fun i _ => outAt_afterRun (Nat.zero_le i)⟩

/-! ### Falling off (R122, R123) -/

/-- RESULT0's FELL is DEC_FELL after a DECODE that reports E_OK (R121). -/
theorem getLsbD_result0_of_exec_decode {s t : State} {n : BitVec 6} (h : exec (.decode n) s = .next t)
    (hok : t.lastErr = .ok) : t.result0.getLsbD 16 = t.decFell := by
  obtain ⟨-, -, rfl⟩ := eq_afterRun_of_exec_decode h hok
  exact getLsbD_packDecode_fell _ _ _

/-- DECODE leaves PHASE and K (R121). -/
theorem exec_decode_phase_k {s t : State} {n : BitVec 6} (h : exec (.decode n) s = .next t) : t.phase = s.phase ∧ t.k = s.k := by
  obtain ⟨-, -, rfl⟩ | ⟨-, rfl, -, -, -, -, rfl⟩ := exec_next_cases h <;> exact ⟨rfl, rfl⟩

/-- Settles O51: DECODE keeps the invariant, by which only a decoder with one key or none is halted. -/
theorem noFallOffWithTwoKeys : Obligations.NoFallOffWithTwoKeys := by
  intro s t n hinv hp hk2 h
  have htinv := exec_inv h hinv
  obtain ⟨hphase, hk⟩ := exec_decode_phase_k h
  have hfell : t.decFell = false := Bool.eq_false_iff.mpr fun hf => by
    have hk1 := hk ▸ htinv.k_le_one_of_fell hf
    omega
  obtain ⟨hlo, hhi⟩ := htinv.decCur_internal (hphase ▸ hp) (hk ▸ hk2)
  rw [nnode_eq_two_mul_sub_one, hk] at hhi
  exact ⟨hfell, fun hok => (getLsbD_result0_of_exec_decode h hok).trans hfell, hk ▸ hlo, hhi⟩

/-- In TREE or CODE, halted at a position (R122). -/
def State.HaltedAt (s : State) (c : NodeIdx) : Prop := s.phase ≠ .load ∧ s.decFell = true ∧ s.decCur = c

/-- No command but DEC_RESET and CLEAR moves a halted decoder (R122). -/
theorem exec_haltedAt {i : Instr} {s t : State} {c : NodeIdx} (hs : s.HaltedAt c) (hr : i ≠ .decReset) (hc : i ≠ .clear)
    (h : exec i s = .next t) : t.HaltedAt c := by
  obtain ⟨hp, hf, hcur⟩ := id hs
  by_cases hd : ∃ n, i = .decode n
  · obtain ⟨n, rfl⟩ := hd
    rw [exec_decode_of_not_permitted (.inr hf)] at h
    rw [← Host.Outcome.next.inj h]
    exact hs
  by_cases hb : i = .build
  · subst hb
    rw [exec_build_of_ne_load hp] at h
    rw [← Host.Outcome.next.inj h]
    exact hs
  obtain ⟨-, -, -, -, -, -, -, -, -, -, -, hdec, -⟩ := whichCommandsWriteWhat i s t h hc
  obtain ⟨tcur, tfell⟩ := hdec (not_exists.mp hd) hb hr
  refine ⟨?_, tfell.trans hf, tcur.trans hcur⟩
  obtain e | ⟨-, -, e⟩ | ⟨-, -, e⟩ | ⟨e, -⟩ := exec_phase h
  · exact e ▸ hp
  · simp [e]
  · simp [e]
  · exact absurd e hc

theorem performEach_haltedAt {between : List (Instr × Word)} {s u : State} {c : NodeIdx} (hs : s.HaltedAt c)
    (hb : ∀ x ∈ between, x.1 ≠ .decReset ∧ x.1 ≠ .clear) (h : performEach between s = some u) : u.HaltedAt c := by
  induction between generalizing s with
  | nil => rwa [← Option.some.inj h]
  | cons x between ih =>
    obtain ⟨⟨hr, hc⟩, hrest⟩ := List.forall_mem_cons.mp hb
    obtain ⟨t, ht, h⟩ := performEach_cons h
    have hissued : (s.issued x.1 x.2).HaltedAt c := hs
    exact ih (exec_haltedAt hissued hr hc ht) hrest h

/-- Settles O52: a fall-off leaves the decoder halted at the virtual root, where it was, and there it stays halted. -/
theorem fallOffHaltsTheDecoder : Obligations.FallOffHaltsTheDecoder := by
  intro s t n hinv h hok hbit
  have htinv := exec_inv h hinv
  obtain ⟨hphase, hk⟩ := exec_decode_phase_k h
  obtain ⟨hp, -, -⟩ := eq_afterRun_of_exec_decode h hok
  have hfell : t.decFell = true := (getLsbD_result0_of_exec_decode h hok).symm.trans hbit
  have hk1 := htinv.k_le_one_of_fell hfell
  have htcur := htinv.decCur_eq_nil (hphase ▸ hp) hk1
  refine ⟨hfell, htcur.trans (hinv.decCur_eq_nil hp (hk ▸ hk1)).symm, fun between u hb hu => ?_⟩
  obtain ⟨up, ufell, ucur⟩ := performEach_haltedAt ⟨hphase ▸ hp, hfell, rfl⟩ hb hu
  exact ⟨ufell, ucur, exec_decode_of_not_permitted (.inr ufell), ⟨_, exec_decReset_of_ne_load up, rfl, rfl⟩, ⟨_, rfl, rfl⟩⟩

end Sys2Proof.Machine

namespace Sys2Proof.Machine

open Sys2Proof

/-! ### The errors a command can report (R130, R132) -/

/-- A cause that applies to a command is one that R132 lists for it. -/
theorem mem_reportableErrors_of_applies {i : Instr} {s : State} {e : ErrCode} (h : (e, true) ∈ errorCauses i s) :
    e ∈ reportableErrors i := by
  simp only [errorCauses, List.mem_cons, Prod.mk.injEq, List.not_mem_nil, or_false] at h
  obtain ⟨rfl, hphase⟩ | ⟨rfl, harg⟩ | ⟨rfl, hovf⟩ | ⟨rfl, hcode⟩ := h
  · cases i with
    | nop | clear | readFreq y => cases hphase
    | _ => exact List.mem_cons_self
  · cases i with
    | loadFreq y | readNode idx | decode n => simp [reportableErrors]
    | _ => cases harg
  · cases i with
    | loadFreq y => simp [reportableErrors]
    | _ => cases hovf
  · cases i with
    | readCode y w => simp [reportableErrors]
    | _ => cases hcode

/-- The first error of a command is one that R132 lists for it. -/
theorem firstError_mem_reportableErrors {i : Instr} {s : State} (h : firstError i s ≠ .ok) :
    firstError i s ∈ reportableErrors i :=
  mem_reportableErrors_of_applies (firstCause_mem h)

/-- Settles O25: an illegal word raises E_ILLEGAL, and a command ends with its first error, one of its causes. -/
theorem firstErrorIsReported : Obligations.FirstErrorIsReported := by
  refine ⟨fun s hb ⟨_, hd⟩ => step_blockTurn_of_illegal hb hd, fun i s => ?_⟩
  obtain ⟨t, h, -, hlast, herr⟩ := exec_endsWith_firstError i s
  exact ⟨⟨t, h, hlast⟩, fun hne => ⟨herr hne ▸ h, firstError_mem_reportableErrors hne⟩⟩

/-! ### Host writes during a command (R137, R150) -/

/-- An overrun write does not reach a command in progress other than CLEAR (R33, R137). -/
theorem exec_with_ovr {i : Instr} {s t : State} (hi : i ≠ .clear) (o : Bool) (h : exec i s = .next t) :
    exec i { s with ovr := o } = .next { t with ovr := o } := by
  have e := exec_withHost s s.arg o hi
  rw [h] at e
  exact e.trans (by rw [← exec_arg h]; rfl)

/-- CLEAR does the same with OVR set (R84). -/
theorem exec_clear_with_ovr (s : State) (o : Bool) : exec .clear { s with ovr := o } = exec .clear s := rfl

/-- Settles O17: no command reads ARG or OVR, and only CLEAR writes OVR. -/
theorem hostWritesDoNotDisturbCommand : Obligations.HostWritesDoNotDisturbCommand := by
  refine fun i s t v h => ⟨exec_with_arg v h, fun hi => exec_with_ovr hi true h, ?_⟩
  rintro rfl
  exact (exec_clear_with_ovr s true).trans h

end Sys2Proof.Machine

namespace Sys2Proof.Machine

open Sys2Proof

/-! ### Reset (R142, R143) -/

/-- Settles O1: the scalar elements are what `State.reset` writes, and each array holds one value throughout. -/
theorem resetStateAndRegisters : Obligations.ResetStateAndRegisters := by
  obtain ⟨-, -, hdecpos, htotal, hout⟩ := decposTotalAndOutRead
  have horder (i : Nat) (hi : i < 256) : State.reset.orderAt i = 0 := by simp [State.orderAt, hi, State.reset]
  have houtbuf (i : Nat) (hi : i < 32) : State.reset.outAt i = 0 := by simp [State.outAt, hi, State.reset]
  exact ⟨rfl, rfl, rfl, rfl, rfl, rfl, rfl, rfl, rfl, rfl, rfl, rfl, freqOf_reset, horder,
    fun i _ => nodeIn_replicate_zero i, lutIn_lutEmpty, houtbuf, rfl, by decide, rfl, rfl, hdecpos, htotal, hout⟩

/-- Settles O2: the empty table, the empty tree and code table of LOAD, and the decoder at NIL. -/
theorem resetMeetsInvariant : Obligations.ResetMeetsInvariant := inv_reset

/-- Settles O3: the reset step, and a CMD write to the idle block it leaves. -/
theorem platformResetAbandonsCommand : Obligations.PlatformResetAbandonsCommand := fun s =>
  ⟨s.resetBlock, step_reset s, rfl, rfl, fun w => step_wr_cmd_of_idle (s := s.resetBlock) rfl w⟩

/-! ### The block's turn (R146, R147) -/

/-- With no input pending the step is the block's turn (log 2). -/
theorem step_of_no_input {s : State} (h : s.inputs = []) : step s = step (s.facing .blockTurn) := by
  rw [step_idle h, step_blockTurn]

/-- Settles O14: the block's turn executes the command that CMDL encodes, whether it is an input or none is pending. -/
theorem stepRunsDecodedCommand : Obligations.StepRunsDecodedCommand := fun _ _ hb hd =>
  ⟨fun hin => (step_of_no_input hin).trans (step_blockTurn_of_decoded hb hd), step_blockTurn_of_decoded hb hd⟩

/-- Settles O15: the block's turn ends the command in progress whatever its word, and does nothing without one. -/
theorem commandInProgressCompletes : Obligations.CommandInProgressCompletes := by
  refine fun s => ⟨fun hb => ?_, fun hb => ?_⟩
  · obtain ⟨e, t, hturn, hidle, -⟩ := step_blockTurn_endsWith hb
    exact ⟨t, hturn, hidle, fun hin => (step_of_no_input hin).trans hturn⟩
  · have hturn : step (s.facing .blockTurn) = .next s := (step_blockTurn s).trans (blockTurn_idle hb)
    exact ⟨hturn, fun hin => (step_of_no_input hin).trans hturn⟩

/-! ### Host accesses while BUSY = 1 (R148) -/

/-- While BUSY = 1 a read of a register that is not specified then records `readBusy` of the next free value. -/
theorem step_rd_of_busy {s : State} {r : Reg} (hb : s.busy = true) (hr : unspecifiedWhileBusy r = true) :
    step (s.facing (rd r)) =
      .next { s with readData := some (s.readBusy r (Config.unspecified s.draws)), draws := s.draws + 1 } := by
  rw [step_rd, State.hostRead, if_pos ⟨hb, hr⟩]

/-- STATUS while BUSY = 1, bit by bit: BUSY, OVR, and the drawn bits above and below them. -/
theorem getLsbD_busyStatusWord (s : State) (drawn : Word) {b : Nat} (h : b < 32) :
    (s.busyStatusWord drawn).getLsbD b = if b = 2 then true else if b = 3 then s.ovr else drawn.getLsbD b := by
  simp only [State.busyStatusWord, BitVec.getLsbD_append]
  match b, h with
  | 0, _ | 1, _ | 2, _ | 3, _ => simp
  | c + 4, h => simp [show c < 28 by omega, Nat.add_comm 4 c]

/-- Settles O12: the reads that are specified at all times, the drawn ones with STATUS bit by bit, and the two writes. -/
theorem readsAndWritesWhileBusy : Obligations.ReadsAndWritesWhileBusy := by
  refine fun s hb => ⟨step_rd_of_specified (r := .id) rfl s, step_rd_of_specified (r := .arg) rfl s, ?status, ?drawn,
    fun v => ⟨step_wr s .arg v, fun _ _ => exec_with_arg v⟩, step_wr_cmd_of_busy hb⟩
  case status =>
    have hbit {b : Nat} := getLsbD_busyStatusWord s (Config.unspecified s.draws) (b := b)
    refine ⟨_, step_rd_of_busy hb rfl, hbit (by decide), hbit (by decide), fun b hlt h2 h3 => ?_⟩
    exact (hbit hlt).trans ((if_neg h2).trans (if_neg h3))
  case drawn =>
    rintro r (rfl | rfl | rfl | rfl | ⟨j, rfl⟩) <;> exact step_rd_of_busy hb rfl

/-! ### What a step leaves of the inputs, and what starts a command -/

theorem eq_facing_of_inputs {s : State} {x : Input} {rest : List Input} (h : s.inputs = x :: rest) :
    ∃ u : State, s = u.facing x ∧ u.inputs = rest :=
  ⟨{ s with inputs := rest }, by rw [State.facing, ← h], rfl⟩

theorem blockTurn_inputs {s t : State} (h : s.blockTurn = .next t) : t.inputs = s.inputs := by
  cases hb : s.busy with
  | false =>
    rw [blockTurn_idle hb] at h
    cases h; rfl
  | true =>
    rw [blockTurn_busy hb, State.runLatched] at h
    cases hd : decodeWord s.cmdl with
    | command i =>
      rw [hd] at h
      obtain ⟨hinputs, -⟩ := exec_own h
      exact hinputs
    | illegal why =>
      rw [hd] at h
      rw [raise_next h]; rfl

theorem hostRead_busy (s : State) (r : Reg) : (s.hostRead r).busy = s.busy := by
  obtain ⟨w, d, e⟩ := hostRead_frame s r
  rw [e]

theorem hostRead_inputs (s : State) (r : Reg) : (s.hostRead r).inputs = s.inputs := by
  obtain ⟨w, d, e⟩ := hostRead_frame s r
  rw [e]

theorem hostWrite_inputs (s : State) (r : Reg) (v : Word) : (s.hostWrite r v).inputs = s.inputs := by
  cases r with
  | cmd => simp only [State.hostWrite]; split <;> rfl
  | _ => rfl

/-- A step consumes the next input and adds none (log 1). -/
theorem step_inputs {s t : State} (h : step s = .next t) : t.inputs = s.inputs.tail := by
  cases hin : s.inputs with
  | nil =>
    rw [step_idle hin] at h
    exact (blockTurn_inputs h).trans hin
  | cons x rest =>
    obtain ⟨u, rfl, rfl⟩ := eq_facing_of_inputs hin
    cases x with
    | blockTurn => exact blockTurn_inputs h
    | reset => cases h; rfl
    | read addr bits =>
      obtain ⟨r, rfl⟩ := hostAccess_next h
      exact hostRead_inputs u r
    | write addr bits v =>
      rw [step_write] at h
      obtain ⟨r, rfl⟩ := hostAccess_next h
      exact hostWrite_inputs u r v

/-- A host write that starts a command is one of CMD (R28). -/
theorem eq_cmd_of_hostWrite_busy {s : State} {r : Reg} {v : Word} (hs : s.busy = false) (h : (s.hostWrite r v).busy = true) :
    r = .cmd := by
  cases r with
  | cmd => rfl
  | _ => exact absurd (hs.symm.trans h) (by decide)

/-- A write access that has an effect on CMD is `Input.isCmdWrite`. -/
theorem isCmdWrite_of_access {addr bits : Nat} (v : Word) (hw : addressInWindow addr = true)
    (hs : accessSupported (addr - Config.base) bits = true) (hr : registerAt (addr - Config.base) = .cmd) :
    (Input.write addr bits v).isCmdWrite = true := by
  obtain ⟨hlo, hhi⟩ : Config.base ≤ addr ∧ addr < Config.base + 256 := by simpa [addressInWindow] using hw
  obtain ⟨hbits, h4⟩ : bits = 32 ∧ (addr - Config.base) % 4 = 0 := by simpa [accessSupported] using hs
  obtain ⟨r, hoff⟩ := exists_register_offset (off := addr - Config.base) (by omega) h4
  rw [← hoff, registerAt_offset] at hr
  subst hr
  have haddr : addr = Config.base + Reg.cmd.offset := by omega
  simp [Input.isCmdWrite, hbits, haddr]

/-- Only a CMD write starts a command in an idle block (R28, R64). -/
theorem step_starts_command {s t : State} (h : step s = .next t) (hs : s.busy = false) (ht : t.busy = true) :
    ∃ x ∈ s.inputs, x.isCmdWrite = true := by
  have hne : t.busy ≠ s.busy := by simp [hs, ht]
  cases hin : s.inputs with
  | nil =>
    rw [step_idle hin, blockTurn_idle hs] at h
    cases h; exact absurd rfl hne
  | cons x rest =>
    obtain ⟨u, rfl, rfl⟩ := eq_facing_of_inputs hin
    rw [State.facing_busy] at hs hne
    refine ⟨x, List.mem_cons_self, ?_⟩
    cases x with
    | blockTurn =>
      rw [step_blockTurn, blockTurn_idle hs] at h
      cases h; exact absurd rfl hne
    | reset => cases h; cases ht
    | read addr bits =>
      obtain ⟨r, rfl⟩ := hostAccess_next h
      exact absurd (hostRead_busy u r) hne
    | write addr bits v =>
      rw [step_write] at h
      obtain ⟨-, e⟩ | ⟨-, -, e⟩ | ⟨hw, hshape, e⟩ := hostAccess_cases addr bits fun r => u.hostWrite r v <;>
        rw [e] at h <;> cases h
      exact isCmdWrite_of_access v hw hshape (eq_cmd_of_hostWrite_busy hs ht)

/-! ### The end of a run (R154) -/

/-- No command is in progress, and the host issues none any more. -/
def State.Finished (s : State) : Prop := s.busy = false ∧ ∀ x ∈ s.inputs, x.isCmdWrite = false

/-- What is finished stays so. -/
theorem step_finished {s t : State} (hs : s.Finished) (h : step s = .next t) : t.Finished := by
  obtain ⟨hidle, hinputs⟩ := hs
  refine ⟨?_, fun x hx => hinputs x (List.mem_of_mem_tail (step_inputs h ▸ hx))⟩
  by_contra hbusy
  obtain ⟨x, hx, hcmd⟩ := step_starts_command h hidle (by simpa using hbusy)
  rw [hinputs x hx] at hcmd
  cases hcmd

/-- A run of `n + 1` steps is a step and a run of `n`. -/
theorem run_succ_next {s t : State} {n : Nat} (h : Host.Core.run Sys2Proof.core (n + 1) s = .next t) :
    ∃ u, step s = .next u ∧ Host.Core.run Sys2Proof.core n u = .next t := by
  simp only [Host.Core.run] at h
  split at h
  · next u hu => exact ⟨u, hu, h⟩
  · cases h
  · cases h

theorem run_finished {s t : State} {n : Nat} (hs : s.Finished) (h : Host.Core.run Sys2Proof.core n s = .next t) :
    t.Finished := by
  induction n generalizing s with
  | zero => cases h; exact hs
  | succ n ih =>
    obtain ⟨u, hstep, hrun⟩ := run_succ_next h
    exact ih (step_finished hs hstep) hrun

/-- A run that its next step ends is finished, unless that step is a reset. -/
theorem finished_of_endsRun {s : State} (hreset : ∀ x ∈ s.inputs, x ≠ .reset) (h : s.endsRun = true) : s.Finished := by
  obtain ⟨x, rest, hin, rfl | ⟨hread, hidle, hrest⟩⟩ := (endsRun_iff s).mp h
  · exact absurd rfl (hreset .reset (hin ▸ List.mem_cons_self))
  · have hx : x.isCmdWrite = false := by
      cases x with
      | write addr bits v => cases hread
      | _ => rfl
    exact ⟨hidle, by rw [hin]; exact List.forall_mem_cons.mpr ⟨hx, hrest⟩⟩

/-- A run that is over without a reset is finished, however far it has gone on. -/
theorem finished_of_runOver {s t : State} {n : Nat} (hreset : ∀ x ∈ s.inputs, x ≠ .reset) (hover : s.runOver n = true)
    (h : Host.Core.run Sys2Proof.core n s = .next t) : t.Finished := by
  induction n generalizing s with
  | zero => cases hover
  | succ n ih =>
    obtain ⟨u, hstep, hrun⟩ := run_succ_next h
    rw [runOver_succ hstep, Bool.or_eq_true] at hover
    obtain hends | hlater := hover
    · exact run_finished (finished_of_endsRun hreset hends) h
    · exact ih (fun x hx => hreset x (List.mem_of_mem_tail (step_inputs hstep ▸ hx))) hlater hrun

theorem runOver_succ_of_endsRun {s : State} (h : s.endsRun = true) (n : Nat) : s.runOver (n + 1) = true := by
  simp [State.runOver, h]

/-- The run that starts in `s` is over after `m` steps and not before. -/
def State.RunLasts (s : State) (m : Nat) : Prop := ∀ n ≤ m, (s.runOver n = true ↔ n = m)

theorem runLasts_one {s : State} (h : s.endsRun = true) : s.RunLasts 1 := by
  intro n hn
  cases n with
  | zero => simp
  | succ n =>
    obtain rfl : n = 0 := by omega
    simp [runOver_succ_of_endsRun h]

theorem runLasts_succ {s t : State} {m : Nat} (h : step s = .next t) (hs : s.endsRun = false) (ht : t.RunLasts m) :
    s.RunLasts (m + 1) := by
  intro n hn
  cases n with
  | zero => simp
  | succ n => rw [runOver_succ h, hs, Bool.false_or, ht n (by omega), Nat.add_right_cancel_iff]

theorem endsRun_facing (s : State) (x : Input) : (s.facing x).endsRun = true ↔
    x = .reset ∨ (x.isStatusRead = true ∧ s.busy = false ∧ ∀ y ∈ s.inputs, y.isCmdWrite = false) := by
  simp [endsRun_iff]

/-- An input that is neither a reset nor a read of STATUS in an idle block does not end the run. -/
theorem endsRun_facing_eq_false {s : State} {x : Input} (hreset : x ≠ .reset)
    (hread : x.isStatusRead = true → s.busy = true) : (s.facing x).endsRun = false := by
  rw [Bool.eq_false_iff, Ne, endsRun_facing]
  rintro (h | ⟨h, hidle, -⟩)
  · exact hreset h
  · rw [hread h] at hidle; cases hidle

section
variable {rest : List Input} (hrest : ∀ x ∈ rest, x.isCmdWrite = false)
include hrest

/-- The run of POLL with a command in progress ends with its last read of STATUS: the vain reads see BUSY = 1 (R77). -/
theorem runLasts_poll {s : State} {p : Nat} (hb : s.busy = true) (hin : s.inputs = poll p ++ rest) :
    s.RunLasts (poll p).length := by
  induction p generalizing s with
  | zero =>
    obtain ⟨u, rfl, hu⟩ := eq_facing_of_inputs hin
    obtain ⟨e, t, hturn, hidle, -⟩ := step_blockTurn_endsWith (s := u) hb
    refine runLasts_succ hturn (endsRun_facing_eq_false nofun nofun) (runLasts_one ?_)
    obtain ⟨v, rfl, rfl⟩ := eq_facing_of_inputs ((step_inputs hturn).trans hu)
    exact (endsRun_facing v (rd .status)).mpr (.inr ⟨by simp, hidle, hrest⟩)
  | succ p ih =>
    obtain ⟨u, rfl, hu⟩ := eq_facing_of_inputs hin
    exact runLasts_succ (step_rd_of_busy hb rfl) (endsRun_facing_eq_false nofun fun _ => hb) (ih hb hu)

theorem runLasts_wr_cmd_poll {s : State} {w : Word} {p : Nat} (hb : s.busy = false)
    (hin : s.inputs = wr .cmd w :: poll p ++ rest) : s.RunLasts (wr .cmd w :: poll p).length := by
  obtain ⟨u, rfl, hu⟩ := eq_facing_of_inputs hin
  exact runLasts_succ (step_wr_cmd_of_idle (s := u) hb w) (endsRun_facing_eq_false nofun nofun)
    (runLasts_poll (s := u.issue w) hrest rfl hu)

/-- The run of a mnemonic ends with the last read of its POLL (R78). -/
theorem runLasts_expand {s : State} {i : Instr} {a : Word} {p : Nat} (hb : s.busy = false)
    (hin : s.inputs = expand i a p ++ rest) : s.RunLasts (expand i a p).length := by
  cases harg : usesArg i with
  | false =>
    simp only [expand, harg, Bool.false_eq_true, if_false, List.nil_append] at hin ⊢
    exact runLasts_wr_cmd_poll hrest hb hin
  | true =>
    simp only [expand, harg, if_true] at hin ⊢
    obtain ⟨u, rfl, hu⟩ := eq_facing_of_inputs hin
    exact runLasts_succ (step_wr u .arg a) (endsRun_facing_eq_false nofun nofun)
      (runLasts_wr_cmd_poll (s := { u with arg := a }) hrest hb hu)

end

/-- Settles O60: a reset, the finished state a run without one is over in, and the run of a mnemonic. -/
theorem runEndsAtIdleStatusReadOrReset : Obligations.RunEndsAtIdleStatusReadOrReset := by
  refine ⟨fun s n hhead => ?_, fun s t n hreset hover h => ?_,
    fun s i a p rest hb hin hrest => runLasts_expand hrest hb hin⟩
  · obtain ⟨rest, hin⟩ := List.head?_eq_some_iff.mp hhead
    exact runOver_succ_of_endsRun ((endsRun_iff s).mpr ⟨.reset, rest, hin, .inl rfl⟩) n
  · obtain ⟨hidle, -⟩ := finished_of_runOver hreset hover h
    exact hidle

end Sys2Proof.Machine
